-- ==== Sys2Proof/Word.lean ====
section
/-! DEFINITION. The words of the machine: a byte, a 32-bit word and the bit pattern of a binary64. -/

namespace Sys2Proof

/-- A byte, 0..255 (R7). -/
abbrev Byte := BitVec 8

/-- A 32-bit pattern: an `i32` immediate field or the 32-bit reading of a register (R81, R27). -/
abbrev Word := BitVec 32

/-- An `f64` value, held as its IEEE 754 binary64 bit pattern (R7, R54). Two patterns are the same value
only when they are the same pattern: -0.0 and +0.0 differ, and so do NaNs of different payloads. -/
abbrev F64 := BitVec 64

end Sys2Proof
end

