-- ==== Sys2Proof/Config.lean ====
section
/-! DEFINITION. The parameters of R6 (00_scope): the values the spec gives, and, as constants without a body,
the values it leaves open (log 2). MEM_SIZE and EPS, which a configuration sets, stand in State; here are the values
the reference configuration gives them (log 1). Nothing in Lean can evaluate a constant without a body, so a theorem about
the model holds whatever the value is. -/

namespace Sys2Proof.Config

/-- MEM_SIZE of the reference configuration, 16 MiB (R6, R35; log 1). -/
def referenceMemSize : Nat := 16777216

/-- The value R6 gives EPS, the binary64 nearest to 1e-9 (R6, D6; log 1). -/
def referenceEps : F64 := 0x3E112E0BE826D695#64

/-- RESET_PC (R6, R421). -/
def resetPc : Nat := 0

/-- STACK_SLOT, the bytes of one stack slot (R6, R23). -/
def stackSlot : Nat := 8

/-- SHIFT_CF: the carry after a shift or rotate, a free Boolean at each execution (R170, D18; log 4). -/
opaque shiftCarry : Nat → Bool

/-- The bits offered for a produced NaN; used only where they are a NaN's (R147; log 3). -/
opaque nanBits : Nat → F64

/-- ENGINE_VERSION, the value SYS_VERSION returns (R6, R357, D45; log 7). -/
opaque engineVersion : F64

/-- LOG_FN where R146 does not fix it (R6, D23; log 7). -/
opaque logOpen : F64 → F64

/-- First character of NUM_FORMAT, counted from 0x20 (R6, D46; log 7). -/
opaque numFormatHead : F64 → Fin 95

/-- The other characters of NUM_FORMAT, counted from 0x20 (R6, D46; log 7). -/
opaque numFormatTail : F64 → List (Fin 95)

/-- The Host's answer to GetChar (R340, R342; log 5). -/
opaque hostChar : Nat → Byte

/-- The Host's answer to PollKey, 0 for no key (R340, R343; log 5). -/
opaque hostKey : Nat → Byte

/-- The column of the Host's answer to GetCursor (R340, R348; log 5). -/
opaque hostCursorCol : Nat → Word

/-- The row of the Host's answer to GetCursor (R340, R348; log 5). -/
opaque hostCursorRow : Nat → Word

/-- The bytes the Host offers for ReadLine, before they are cut to the range R340 states (R354; log 5, log 6). -/
opaque hostLine : Nat → List Byte

end Sys2Proof.Config
end

