-- ==== Sys2Proof/Machine/Float.lean ====
section
/-! DEFINITION. IEEE 754 binary64 arithmetic on bit patterns, by exact integer arithmetic and one rounding
(R11, R54, R147). A finite value is `± mant * 2 ^ scale`; every operation computes its exact result as an
integer ratio and rounds it once, to nearest, ties to even. The corner cases that R11 leaves to the standard it
names (signs of zero results, infinities) follow IEEE 754 (log 12). -/

namespace Sys2Proof.Machine

/-! ### Fields and classes of a pattern -/

/-- The sign bit: true for a negative sign, -0.0 included. -/
def fSign (v : F64) : Bool := v.msb

/-- The magnitude bits, everything but the sign. -/
def fMag (v : F64) : Nat := v.toNat % 2 ^ 63

/-- The magnitude bits of an infinity. -/
def infMag : Nat := 2047 * 2 ^ 52

/-- `isnan` (R11). -/
def isNaN (v : F64) : Bool := decide (infMag < fMag v)

/-- `isinf` (R11). -/
def isInf (v : F64) : Bool := fMag v == infMag

/-- Neither a NaN nor an infinity. -/
def isFin (v : F64) : Bool := decide (fMag v < infMag)

/-- The pattern with a given sign and magnitude bits. -/
def ofSignMag (neg : Bool) (mag : Nat) : F64 := BitVec.ofNat 64 ((if neg then 2 ^ 63 else 0) + mag)

/-- A zero of either sign. -/
def fZero (neg : Bool) : F64 := ofSignMag neg 0

/-- An infinity of either sign. -/
def fInf (neg : Bool) : F64 := ofSignMag neg infMag

/-- 1.0 -/
def fOne : F64 := 0x3FF0000000000000#64

/-- 8.0, the size of a stack slot (R6). -/
def fEight : F64 := 0x4020000000000000#64

/-- The integer significand of a finite value. -/
def fMant (v : F64) : Nat :=
  if fMag v / 2 ^ 52 = 0 then fMag v else 2 ^ 52 + fMag v % 2 ^ 52

/-- The power of two the significand of a finite value is scaled by. -/
def fScale (v : F64) : Int :=
  if fMag v / 2 ^ 52 = 0 then -1074 else ((fMag v / 2 ^ 52 : Nat) : Int) - 1075

/-- The signed significand of a finite value at a scale `e` not above its own: the value is this times 2^e. -/
def fixedAt (v : F64) (e : Int) : Int :=
  let m : Int := ((fMant v * 2 ^ (fScale v - e).toNat : Nat) : Int)
  if fSign v then -m else m

/-- A pattern as a NaN: itself where it is one. Its values are exactly the NaNs, whatever pattern is free. -/
def nanOf (p : F64) : F64 := if isNaN p then p else 0x7FF8000000000000#64

/-- A NaN an operation produces: any NaN, the `k`-th free choice of the run (R147, P6; log 3). -/
def producedNaN (k : Nat) : F64 := nanOf (Config.nanBits k)

/-! ### Rounding -/

/-- The floor of the base-2 logarithm of `num / den`, both positive. -/
def floorLog2 (num den : Nat) : Int :=
  let l : Int := (num.log2 : Int) - (den.log2 : Int)
  if den * 2 ^ l.toNat ≤ num * 2 ^ (-l).toNat then l else l - 1

/-- The binary64 nearest to `num / den` (`den` positive), ties to even, with the sign given; the sign also
decides the sign of a zero. Overflow gives an infinity, subnormals are kept (R11, R147). -/
def roundRatio (neg : Bool) (num den : Nat) : F64 :=
  if num = 0 then fZero neg
  else
    let e : Int := max (floorLog2 num den - 52) (-1074)
    let n := num * 2 ^ (-e).toNat
    let d := den * 2 ^ e.toNat
    let q := n / d
    let r := n % d
    let m := if d < 2 * r ∨ (2 * r = d ∧ q % 2 = 1) then q + 1 else q
    ofSignMag neg (min ((e + 1074).toNat * 2 ^ 52 + m) infMag)

/-- The binary64 nearest to `m * 2 ^ e`, ties to even. -/
def roundDyadic (neg : Bool) (m : Nat) (e : Int) : F64 :=
  roundRatio neg (m * 2 ^ e.toNat) (2 ^ (-e).toNat)

/-! ### The operations of R11. `k` is the number of the free choice a produced NaN takes. -/

/-- Sign-bit flip (R11, R132). -/
def fneg (v : F64) : F64 := ofSignMag (!fSign v) (fMag v)

/-- Magnitude (R11). -/
def fabs (v : F64) : F64 := ofSignMag false (fMag v)

/-- Addition. -/
def fadd (k : Nat) (a b : F64) : F64 :=
  if isNaN a || isNaN b then producedNaN k
  else if isInf a then (if isInf b && (fSign a != fSign b) then producedNaN k else a)
  else if isInf b then b
  else
    let e := min (fScale a) (fScale b)
    let sum := fixedAt a e + fixedAt b e
    if sum = 0 then fZero (fSign a && fSign b)
    else roundDyadic (decide (sum < 0)) sum.natAbs e

/-- Subtraction. -/
def fsub (k : Nat) (a b : F64) : F64 := fadd k a (fneg b)

/-- Multiplication. -/
def fmul (k : Nat) (a b : F64) : F64 :=
  let neg := fSign a != fSign b
  if isNaN a || isNaN b then producedNaN k
  else if isInf a || isInf b then
    (if fMag a = 0 ∨ fMag b = 0 then producedNaN k else fInf neg)
  else roundDyadic neg (fMant a * fMant b) (fScale a + fScale b)

/-- Division. -/
def fdiv (k : Nat) (a b : F64) : F64 :=
  let neg := fSign a != fSign b
  if isNaN a || isNaN b then producedNaN k
  else if isInf a then (if isInf b then producedNaN k else fInf neg)
  else if isInf b then fZero neg
  else if fMag b = 0 then (if fMag a = 0 then producedNaN k else fInf neg)
  else
    let e := fScale a - fScale b
    roundRatio neg (fMant a * 2 ^ e.toNat) (fMant b * 2 ^ (-e).toNat)

/-- The truncated remainder, exact, with the sign of the dividend (R11, R130). -/
def fmod (k : Nat) (a b : F64) : F64 :=
  if isNaN a || isNaN b || isInf a || (fMag b == 0) then producedNaN k
  else if isInf b then a
  else
    let e := min (fScale a) (fScale b)
    roundDyadic (fSign a) ((fixedAt a e).natAbs % (fixedAt b e).natAbs) e

/-- The integer square root of `n`, found from bit `k - 1` downwards on top of the root bits `r`. -/
def isqrtFrom : Nat → Nat → Nat → Nat
  | 0, _, r => r
  | k + 1, n, r => isqrtFrom k n (if (r + 2 ^ k) * (r + 2 ^ k) ≤ n then r + 2 ^ k else r)

/-- Square root. A finite positive value is `n * 2 ^ (2 * h)` with `2 ^ 108 ≤ n < 2 ^ 110`; the root of `n` is
taken to an integer, with one more bit that says whether it is exact, and rounded once. -/
def fsqrt (k : Nat) (v : F64) : F64 :=
  if isNaN v then producedNaN k
  else if fMag v = 0 then v
  else if fSign v then producedNaN k
  else if isInf v then v
  else
    let l : Int := (fMant v).log2
    let h : Int := (fScale v + l - 108) / 2
    let n := fMant v * 2 ^ (fScale v - 2 * h).toNat
    let r := isqrtFrom 55 n 0
    roundDyadic false (2 * r + (if r * r = n then 0 else 1)) (h - 1)

/-- LOG_FN (R146): fixed at 1.0, +infinity and NaN, open elsewhere (D23; log 7). -/
def logFn (v : F64) : F64 :=
  if v = fOne then fZero false
  else if v = fInf false then fInf false
  else if isNaN v then nanOf (Config.logOpen v)
  else Config.logOpen v

/-! ### Comparisons (R11): false when either operand is a NaN -/

/-- A number that orders the values that are not NaN; both zeros have 0. -/
def fKey (v : F64) : Int := if fSign v then -(fMag v : Int) else (fMag v : Int)

/-- `a < b` -/
def flt (a b : F64) : Bool := !isNaN a && !isNaN b && decide (fKey a < fKey b)

/-- `a <= b` -/
def fle (a b : F64) : Bool := !isNaN a && !isNaN b && decide (fKey a ≤ fKey b)

/-- `a == b` -/
def feq (a b : F64) : Bool := !isNaN a && !isNaN b && decide (fKey a = fKey b)

/-! ### Integers (R10) -/

/-- `trunc`: a finite value rounded toward zero (R10). -/
def ftrunc (v : F64) : Int :=
  let m := fMant v * 2 ^ (fScale v).toNat / 2 ^ (-fScale v).toNat
  if fSign v then -(m : Int) else (m : Int)

/-- `f64(n)` of a natural number (R10). -/
def ofNat (n : Nat) : F64 := roundRatio false n 1

/-- `f64(n)` of an integer (R10). -/
def ofInt (n : Int) : F64 := roundRatio (decide (n < 0)) n.natAbs 1

/-- A flag read as a register value: 1.0 or 0.0 (R8). -/
def ofBool (b : Bool) : F64 := if b then fOne else fZero false

end Sys2Proof.Machine
end

