-- ==== Sys2Proof/Machine/Memory.lean ====
section
/-! DEFINITION. Memory (10_state R35, 20_memory): MEM_SIZE bytes, held as the list of the cells that are not
zero. A byte no cell lists reads as 0, the value every byte has before the ROM image is copied in (R38, R420).
Bounds are checked by the named operations of Machine/Ops.lean; these functions move bytes only. -/

namespace Sys2Proof.Machine

/-- The bytes of Memory that are not zero, by rising address. -/
abbrev Memory := List Host.Cell

/-- The canonical form of a Memory of `size` bytes: addresses strictly rising, no zero byte listed, every address
inside Memory (R35). -/
abbrev Memory.wf (m : Memory) (size : Nat) : Prop :=
  m.Pairwise (fun c d => c.1 < d.1) ∧ ∀ c ∈ m, c.2 ≠ 0 ∧ c.1 < size

/-- The byte at an address (R50); 0 where nothing is listed (R38). -/
def Memory.get : Memory → Nat → Byte
  | [], _ => 0
  | (k, v) :: m, a => if k = a then v else Memory.get m a

/-- Puts a cell at its place among rising addresses. -/
def Memory.insertCell (a : Nat) (v : Byte) : Memory → Memory
  | [] => [(a, v)]
  | (k, w) :: m => if a < k then (a, v) :: (k, w) :: m else (k, w) :: Memory.insertCell a v m

/-- Replaces the byte at an address; writing 0 takes the cell out, so that equal memories are equal lists. -/
def Memory.set (m : Memory) (a : Nat) (v : Byte) : Memory :=
  let others := m.filter (fun c => c.1 ≠ a)
  if v = 0 then others else Memory.insertCell a v others

/-- The `n` bytes from an address on, the lowest address first (R9). -/
def Memory.readBytes (m : Memory) : Nat → Nat → List Byte
  | _, 0 => []
  | a, n + 1 => m.get a :: Memory.readBytes m (a + 1) n

/-- Writes a byte string from an address on, its first byte at the lowest address (R9). -/
def Memory.writeBytes (m : Memory) : Nat → List Byte → Memory
  | _, [] => m
  | a, b :: bs => Memory.writeBytes (m.set a b) (a + 1) bs

end Sys2Proof.Machine
end

