-- ==== Sys2Proof/Machine/State.lean ====
section
/-! DEFINITION. The state of the engine as plain data (10_state), the outcomes of a step, and the state after
reset (R38, R420). -/

namespace Sys2Proof.Machine

/-- The four condition flags, independent Booleans (R32). -/
structure Flags where
  /-- ZF -/
  zero : Bool
  /-- SF -/
  sign : Bool
  /-- CF -/
  carry : Bool
  /-- OF -/
  overflow : Bool
deriving DecidableEq, Repr

/-- The reason an `InvalidOpcode` fault records (R380). -/
inductive OpcodeReason where
  /-- The PC is at or past the end of Memory (R88). -/
  | pcOutOfRange
  /-- The opcode byte is unassigned (R87). -/
  | unknownOpcode (op : Byte)
deriving DecidableEq, Repr

/-- What an `OutOfBounds` fault records first: an address, or a register value no address or count could be
made of (R380). -/
inductive Place where
  | addr (a : Int)
  | value (v : F64)
deriving DecidableEq, Repr

/-- The seven fault kinds of the engine, each with the information R380 records. -/
inductive FaultRecord where
  /-- Code 1: the fetch is past the end of Memory or the opcode is unassigned (R88). -/
  | invalidOpcode (pc : Nat) (reason : OpcodeReason)
  /-- Code 2: a register field holds 41..255 (R89). -/
  | invalidRegister (pc : Nat) (index : Byte)
  /-- Code 3: an access outside Memory, or a value that is no address or count (R51, R29, R30); the length is 0
  for a failed conversion. -/
  | outOfBounds (place : Place) (length : Nat)
  /-- Code 4: a divisor of magnitude below EPS (R121). -/
  | divideByZero (pc : Nat) (divisor : F64)
  /-- Code 5: a square root of a negative value, or a logarithm of a value at or below zero (R145, R146). -/
  | domainError (pc : Nat) (operand : F64)
  /-- Code 6: a push that would take SP below 0; SP before the push (R238). -/
  | stackOverflow (pc : Nat) (sp : F64)
  /-- Code 7: a pop with SP at or above the end of Memory; SP before the pop (R238). -/
  | stackUnderflow (pc : Nat) (sp : F64)
deriving DecidableEq, Repr

/-- The run status (R34). -/
inductive RunStatus where
  | running
  | halted
  | faulted (record : FaultRecord)
deriving DecidableEq, Repr

/-- An output request to the Host, with the values it carries (R340). -/
inductive HostEvent where
  | putChar (b : Byte)
  | putStr (s : List Byte)
  | newline
  | setCursor (col row : Word)
  | setColor (code : Word)
  | resetColor
  | putNum (v : F64)
  | putHex (w : Word)
  | clearScreen
  | sleep (ms : Word)
deriving DecidableEq, Repr

/-- Why a step has no next state: the engine has stopped. A fault of an instruction is not among these: it is a
next state whose status is Faulted (R384; log 8). -/
inductive Fault where
  /-- Raised by `step` alone, when the status is Halted: the engine takes no further step (R34, R262). Safe. -/
  | engineHalted
  /-- Raised by `step` alone, when the status is Faulted: the engine takes no further step (R34, R384). Safe. -/
  | engineFaulted (record : FaultRecord)
deriving DecidableEq, Repr

/-- Why the model gives an instruction no meaning. -/
inductive Refusal where
  /-- Raised by an arm of `exec` for an instruction without a meaning. No arm raises it. Safe. -/
  | notModelled (mnemonic : String)
deriving DecidableEq, Repr

/-- The parameters of R6 a configuration sets, the same all through a run (log 1). -/
structure Params where
  /-- MEM_SIZE: the number of bytes of Memory, N (R6, R35). -/
  memSize : Nat
  /-- EPS: the threshold of the zero flag and of the divisor check (R6, R120, R121). -/
  eps : F64
deriving DecidableEq, Repr

/-- The values of the reference configuration (R6). -/
def Params.reference : Params where
  memSize := Config.referenceMemSize
  eps := Config.referenceEps

/-- The configurations R6 admits: `1 <= N <= 2^32`. -/
def Params.Legal (p : Params) : Prop := 1 ≤ p.memSize ∧ p.memSize ≤ 2 ^ 32

/-- The whole state (10_state), with the parameters of its configuration (R6). -/
structure State where
  /-- MEM_SIZE and EPS (R6); no step changes them. -/
  params : Params
  /-- R0..R31 (R22). -/
  gpr : Vector F64 32
  /-- SP (R23). -/
  sp : F64
  /-- F0..F3 (R25). -/
  aux : Vector F64 4
  /-- ZF, SF, CF, OF (R24, R32). -/
  flags : Flags
  /-- The program counter, an integer in 0..2^32 (R33). -/
  pc : Nat
  /-- Memory (R35). -/
  mem : Memory
  /-- The run status (R34). -/
  status : RunStatus
  /-- The output requests made so far, the oldest first (R340; log 10). -/
  trace : List HostEvent
  /-- How many free values the run has used: the model's own field (log 2). -/
  draws : Nat
deriving DecidableEq, Repr

/-- What a step answers. -/
abbrev Result := Host.Outcome State Fault Refusal

/-- The state right after reset, with an empty ROM image, in a given configuration (R38, R420; log 9). -/
def State.resetWith (p : Params) : State where
  params := p
  gpr := Vector.replicate 32 (fZero false)
  sp := ofNat p.memSize
  aux := Vector.replicate 4 (fZero false)
  flags := { zero := false, sign := false, carry := false, overflow := false }
  pc := Config.resetPc
  mem := []
  status := .running
  trace := []
  draws := 0

/-- The state right after reset in the reference configuration (R38, R420; log 1). -/
def State.reset : State := State.resetWith Params.reference

end Sys2Proof.Machine
end

