-- ==== Sys2Proof/Machine/Flags.lean ====
section
/-! DEFINITION. The two flag updates (R120, R170) and the conditions of the conditional jumps (R278). -/

namespace Sys2Proof.Machine

/-- `setFloatFlags`: the flags a float-family result sets, for a value of EPS (R120). -/
def floatFlags (eps r : F64) : Flags where
  zero := flt (fabs r) eps
  sign := flt r (fZero false)
  carry := isInf r
  overflow := isInf r

/-- `setIntFlags`: the flags a 32-bit result pattern sets, with the carry given (R170). -/
def intFlags (p : Word) (cf : Bool) : Flags where
  zero := p == 0
  sign := p.msb
  carry := cf
  overflow := false

/-! The condition table of R278. -/

def condZ (f : Flags) : Bool := f.zero
def condNZ (f : Flags) : Bool := !f.zero
def condG (f : Flags) : Bool := !f.zero && !f.sign
def condGE (f : Flags) : Bool := f.zero || !f.sign
def condL (f : Flags) : Bool := f.sign && !f.zero
def condLE (f : Flags) : Bool := f.zero || f.sign
def condS (f : Flags) : Bool := f.sign
def condNS (f : Flags) : Bool := !f.sign
def condC (f : Flags) : Bool := f.carry
def condNC (f : Flags) : Bool := !f.carry
def condO (f : Flags) : Bool := f.overflow
def condNO (f : Flags) : Bool := !f.overflow

end Sys2Proof.Machine
end

