-- ==== Sys2Proof/Syntax.lean ====
section
/-! DEFINITION. The instruction set as syntax: one constructor of `Instr` per row of spec/opcode_table.json,
operands in the order they are written in assembly, which is the order of the fields (R82). -/

namespace Sys2Proof

/-- A register slot (R20, R21). -/
inductive Reg where
  /-- R0..R31, indices 0..31. -/
  | r (n : Fin 32)
  /-- SP, index 32. -/
  | sp
  /-- F0..F3, indices 33..36. -/
  | f (n : Fin 4)
  /-- ZF, index 37. -/
  | zf
  /-- SF, index 38. -/
  | sf
  /-- CF, index 39. -/
  | cf
  /-- OF, index 40. -/
  | of
deriving DecidableEq, Repr

/-- An `a32` field: an absolute byte address (R81). Well-formed instructions hold 0..2^32-1. -/
abbrev Addr := Nat

/-- The 102 instructions of R86. -/
inductive Instr where
  -- Control flow (43_control_flow)
  /-- `NOP`, opcode 0x00, shape N (R261). -/
  | nop
  /-- `HLT`, opcode 0x01, shape N (R262). -/
  | hlt
  -- Data movement and stack (42_data_movement)
  /-- `MOV Rd, Rs`, opcode 0x10, shape RR (R221). -/
  | movRR (d s : Reg)
  /-- `MOV Rd, fimm`, opcode 0x11, shape RF (R222). -/
  | movRI (d : Reg) (fimm : F64)
  /-- `MOV Rd, [a]`, opcode 0x12, shape RA (R223). -/
  | movRM (d : Reg) (a : Addr)
  /-- `MOV [a], Rs`, opcode 0x13, shape AR (R224). -/
  | movMR (a : Addr) (s : Reg)
  /-- `MOV Rd, [Rs]`, opcode 0x14, shape RR (R225). -/
  | movRMI (d s : Reg)
  /-- `MOV [Rd], Rs`, opcode 0x15, shape RR (R226). -/
  | movMRI (d s : Reg)
  /-- `MOVB Rd, [a]`, opcode 0x16, shape RA (R227). -/
  | movbRM (d : Reg) (a : Addr)
  /-- `MOVB [a], Rs`, opcode 0x17, shape AR (R228). -/
  | movbMR (a : Addr) (s : Reg)
  /-- `MOVB Rd, [Rs]`, opcode 0x18, shape RR (R229). -/
  | movbRMI (d s : Reg)
  /-- `MOVB [Rd], Rs`, opcode 0x19, shape RR (R230). -/
  | movbMRI (d s : Reg)
  /-- `MOVZX Rd, Rs`, opcode 0x1A, shape RR (R231). -/
  | movzx (d s : Reg)
  /-- `MOVSX Rd, Rs`, opcode 0x1B, shape RR (R232). -/
  | movsx (d s : Reg)
  /-- `LEA Rd, a`, opcode 0x1C, shape RA (R233). -/
  | lea (d : Reg) (a : Addr)
  /-- `PUSH Rs`, opcode 0x20, shape R (R240). -/
  | push (s : Reg)
  /-- `POP Rd`, opcode 0x21, shape R (R241). -/
  | pop (d : Reg)
  -- Float arithmetic (40_float_arith)
  /-- `ADD Rd, Rs`, opcode 0x30, shape RR (R122). -/
  | addRR (d s : Reg)
  /-- `ADD Rd, fimm`, opcode 0x31, shape RF (R123). -/
  | addRI (d : Reg) (fimm : F64)
  /-- `SUB Rd, Rs`, opcode 0x32, shape RR (R124). -/
  | subRR (d s : Reg)
  /-- `SUB Rd, fimm`, opcode 0x33, shape RF (R125). -/
  | subRI (d : Reg) (fimm : F64)
  /-- `MUL Rd, Rs`, opcode 0x34, shape RR (R126). -/
  | mulRR (d s : Reg)
  /-- `MUL Rd, fimm`, opcode 0x35, shape RF (R127). -/
  | mulRI (d : Reg) (fimm : F64)
  /-- `DIV Rd, Rs`, opcode 0x36, shape RR (R128). -/
  | divRR (d s : Reg)
  /-- `DIV Rd, fimm`, opcode 0x37, shape RF (R129). -/
  | divRI (d : Reg) (fimm : F64)
  /-- `MOD Rd, Rs`, opcode 0x38, shape RR (R130). -/
  | modRR (d s : Reg)
  /-- `MOD Rd, fimm`, opcode 0x39, shape RF (R131). -/
  | modRI (d : Reg) (fimm : F64)
  /-- `NEG Rd`, opcode 0x3A, shape R (R132). -/
  | neg (d : Reg)
  /-- `INC Rd`, opcode 0x3B, shape R (R133). -/
  | inc (d : Reg)
  /-- `DEC Rd`, opcode 0x3C, shape R (R134). -/
  | dec (d : Reg)
  /-- `CMP Ra, Rb`, opcode 0x3D, shape RR (R135). -/
  | cmpRR (a b : Reg)
  /-- `CMP Ra, fimm`, opcode 0x3E, shape RF (R136). -/
  | cmpRI (a : Reg) (fimm : F64)
  /-- `MATH_ADD Rd, Rs`, opcode 0x40, shape RR (R140). -/
  | mathAdd (d s : Reg)
  /-- `MATH_SUB Rd, Rs`, opcode 0x41, shape RR (R141). -/
  | mathSub (d s : Reg)
  /-- `MATH_MUL Rd, Rs`, opcode 0x42, shape RR (R142). -/
  | mathMul (d s : Reg)
  /-- `MATH_DIV Rd, Rs`, opcode 0x43, shape RR (R143). -/
  | mathDiv (d s : Reg)
  /-- `MATH_MOD Rd, Rs`, opcode 0x44, shape RR (R144). -/
  | mathMod (d s : Reg)
  /-- `MATH_SQRT Rd, Rs`, opcode 0x45, shape RR (R145). -/
  | mathSqrt (d s : Reg)
  /-- `MATH_LOG Rd, Rs`, opcode 0x46, shape RR (R146). -/
  | mathLog (d s : Reg)
  -- Integer bitwise, shift and rotate (41_integer_bitwise)
  /-- `AND Rd, Rs`, opcode 0x50, shape RR (R172). -/
  | andRR (d s : Reg)
  /-- `AND Rd, imm`, opcode 0x51, shape RI (R173). -/
  | andRI (d : Reg) (imm : Word)
  /-- `OR Rd, Rs`, opcode 0x52, shape RR (R174). -/
  | orRR (d s : Reg)
  /-- `OR Rd, imm`, opcode 0x53, shape RI (R175). -/
  | orRI (d : Reg) (imm : Word)
  /-- `XOR Rd, Rs`, opcode 0x54, shape RR (R176). -/
  | xorRR (d s : Reg)
  /-- `XOR Rd, imm`, opcode 0x55, shape RI (R177). -/
  | xorRI (d : Reg) (imm : Word)
  /-- `NOT Rd`, opcode 0x56, shape R (R178). -/
  | not (d : Reg)
  /-- `TEST Ra, Rb`, opcode 0x57, shape RR (R179). -/
  | testRR (a b : Reg)
  /-- `TEST Ra, imm`, opcode 0x58, shape RI (R180). -/
  | testRI (a : Reg) (imm : Word)
  /-- `SHL Rd, Rs`, opcode 0x59, shape RR (R181). -/
  | shlRR (d s : Reg)
  /-- `SHL Rd, imm`, opcode 0x5A, shape RI (R182). -/
  | shlRI (d : Reg) (imm : Word)
  /-- `SHR Rd, Rs`, opcode 0x5B, shape RR (R183). -/
  | shrRR (d s : Reg)
  /-- `SHR Rd, imm`, opcode 0x5C, shape RI (R184). -/
  | shrRI (d : Reg) (imm : Word)
  /-- `SAR Rd, Rs`, opcode 0x5D, shape RR (R185). -/
  | sarRR (d s : Reg)
  /-- `SAR Rd, imm`, opcode 0x5E, shape RI (R186). -/
  | sarRI (d : Reg) (imm : Word)
  /-- `ROL Rd, Rs`, opcode 0x5F, shape RR (R187). -/
  | rolRR (d s : Reg)
  /-- `ROL Rd, imm`, opcode 0x60, shape RI (R188). -/
  | rolRI (d : Reg) (imm : Word)
  /-- `ROR Rd, Rs`, opcode 0x61, shape RR (R189). -/
  | rorRR (d s : Reg)
  /-- `ROR Rd, imm`, opcode 0x62, shape RI (R190). -/
  | rorRI (d : Reg) (imm : Word)
  -- Control flow (43_control_flow)
  /-- `JMP a`, opcode 0x70, shape A (R263). -/
  | jmp (a : Addr)
  /-- `JZ a`, opcode 0x71, shape A (R264). -/
  | jz (a : Addr)
  /-- `JNZ a`, opcode 0x72, shape A (R265). -/
  | jnz (a : Addr)
  /-- `JG a`, opcode 0x73, shape A (R266). -/
  | jg (a : Addr)
  /-- `JGE a`, opcode 0x74, shape A (R267). -/
  | jge (a : Addr)
  /-- `JL a`, opcode 0x75, shape A (R268). -/
  | jl (a : Addr)
  /-- `JLE a`, opcode 0x76, shape A (R269). -/
  | jle (a : Addr)
  /-- `JS a`, opcode 0x77, shape A (R270). -/
  | js (a : Addr)
  /-- `JNS a`, opcode 0x78, shape A (R271). -/
  | jns (a : Addr)
  /-- `JC a`, opcode 0x79, shape A (R272). -/
  | jc (a : Addr)
  /-- `JNC a`, opcode 0x7A, shape A (R273). -/
  | jnc (a : Addr)
  /-- `JO a`, opcode 0x7B, shape A (R274). -/
  | jo (a : Addr)
  /-- `JNO a`, opcode 0x7C, shape A (R275). -/
  | jno (a : Addr)
  /-- `CALL a`, opcode 0x7D, shape A (R276). -/
  | call (a : Addr)
  /-- `RET`, opcode 0x7E, shape N (R277). -/
  | ret
  -- Strings and blocks (44_string_memory)
  /-- `str.len Rd, [s]`, opcode 0x80, shape RA (R302). -/
  | strLen (d : Reg) (s : Addr)
  /-- `str.cpy [d], [s]`, opcode 0x81, shape AA (R303). -/
  | strCpy (d s : Addr)
  /-- `str.cat [d], [s]`, opcode 0x82, shape AA (R304). -/
  | strCat (d s : Addr)
  /-- `str.cmp Rd, [s1], [s2]`, opcode 0x83, shape RAA (R305). -/
  | strCmp (d : Reg) (s1 s2 : Addr)
  /-- `str.ncpy [d], [s], Rn`, opcode 0x84, shape AAR (R306). -/
  | strNcpy (d s : Addr) (n : Reg)
  /-- `str.ncat [d], [s], Rn`, opcode 0x85, shape AAR (R307). -/
  | strNcat (d s : Addr) (n : Reg)
  /-- `str.upper [s]`, opcode 0x86, shape A (R308). -/
  | strUpper (s : Addr)
  /-- `str.lower [s]`, opcode 0x87, shape A (R309). -/
  | strLower (s : Addr)
  /-- `str.chr Rd, [s], Rc`, opcode 0x88, shape RAR (R310). -/
  | strChr (d : Reg) (s : Addr) (c : Reg)
  /-- `str.str Rd, [s], [t]`, opcode 0x89, shape RAA (R311). -/
  | strStr (d : Reg) (s t : Addr)
  /-- `mem.cpy [d], [s], Rn`, opcode 0x8A, shape AAR (R312). -/
  | memCpy (d s : Addr) (n : Reg)
  /-- `mem.set [d], Rv, Rn`, opcode 0x8B, shape ARR (R313). -/
  | memSet (d : Addr) (v n : Reg)
  /-- `mem.clr [d], Rn`, opcode 0x8C, shape AR (R314). -/
  | memClr (d : Addr) (n : Reg)
  -- Host I/O (45_host_io)
  /-- `SYS_GETCH`, opcode 0xA0, shape N (R342). -/
  | sysGetch
  /-- `SYS_KBHIT`, opcode 0xA1, shape N (R343). -/
  | sysKbhit
  /-- `SYS_PRINT_CHAR`, opcode 0xA2, shape N (R344). -/
  | sysPrintChar
  /-- `SYS_PRINT_STR`, opcode 0xA3, shape N (R345). -/
  | sysPrintStr
  /-- `SYS_NEWLINE`, opcode 0xA4, shape N (R346). -/
  | sysNewline
  /-- `SYS_SET_CURSOR`, opcode 0xA5, shape N (R347). -/
  | sysSetCursor
  /-- `SYS_GET_CURSOR`, opcode 0xA6, shape N (R348). -/
  | sysGetCursor
  /-- `SYS_SET_COLOR`, opcode 0xA7, shape N (R349). -/
  | sysSetColor
  /-- `SYS_RESET_COLOR`, opcode 0xA8, shape N (R350). -/
  | sysResetColor
  /-- `SYS_PRINT_NUM`, opcode 0xA9, shape N (R351). -/
  | sysPrintNum
  /-- `SYS_PRINT_HEX`, opcode 0xAA, shape N (R352). -/
  | sysPrintHex
  /-- `SYS_NUM_TO_STR`, opcode 0xAB, shape N (R353). -/
  | sysNumToStr
  /-- `SYS_READ_LINE`, opcode 0xAC, shape N (R354). -/
  | sysReadLine
  /-- `SYS_CLEAR_SCREEN`, opcode 0xAD, shape N (R355). -/
  | sysClearScreen
  /-- `SYS_SLEEP`, opcode 0xAE, shape N (R356). -/
  | sysSleep
  /-- `SYS_VERSION`, opcode 0xAF, shape N (R357). -/
  | sysVersion
deriving DecidableEq, Repr

end Sys2Proof
end

