-- ==== Sys2Proof/WellFormed.lean ====
section
/-! DEFINITION. Which instruction terms an encoding can stand for: an `a32` field holds an unsigned address
0..2^32-1 (R81). Every other field is well-formed by its type: a register operand is one of the 41 slots (R21),
an `i32` field any 32-bit pattern, an `f64` field any 64-bit pattern (R81, R54). -/

namespace Sys2Proof

/-- The `a32` fields of an instruction, in field order (R82). -/
def Instr.addrFields : Instr → List Addr
  | .nop => []
  | .hlt => []
  | .movRR _ _ => []
  | .movRI _ _ => []
  | .movRM _ a => [a]
  | .movMR a _ => [a]
  | .movRMI _ _ => []
  | .movMRI _ _ => []
  | .movbRM _ a => [a]
  | .movbMR a _ => [a]
  | .movbRMI _ _ => []
  | .movbMRI _ _ => []
  | .movzx _ _ => []
  | .movsx _ _ => []
  | .lea _ a => [a]
  | .push _ => []
  | .pop _ => []
  | .addRR _ _ => []
  | .addRI _ _ => []
  | .subRR _ _ => []
  | .subRI _ _ => []
  | .mulRR _ _ => []
  | .mulRI _ _ => []
  | .divRR _ _ => []
  | .divRI _ _ => []
  | .modRR _ _ => []
  | .modRI _ _ => []
  | .neg _ => []
  | .inc _ => []
  | .dec _ => []
  | .cmpRR _ _ => []
  | .cmpRI _ _ => []
  | .mathAdd _ _ => []
  | .mathSub _ _ => []
  | .mathMul _ _ => []
  | .mathDiv _ _ => []
  | .mathMod _ _ => []
  | .mathSqrt _ _ => []
  | .mathLog _ _ => []
  | .andRR _ _ => []
  | .andRI _ _ => []
  | .orRR _ _ => []
  | .orRI _ _ => []
  | .xorRR _ _ => []
  | .xorRI _ _ => []
  | .not _ => []
  | .testRR _ _ => []
  | .testRI _ _ => []
  | .shlRR _ _ => []
  | .shlRI _ _ => []
  | .shrRR _ _ => []
  | .shrRI _ _ => []
  | .sarRR _ _ => []
  | .sarRI _ _ => []
  | .rolRR _ _ => []
  | .rolRI _ _ => []
  | .rorRR _ _ => []
  | .rorRI _ _ => []
  | .jmp a => [a]
  | .jz a => [a]
  | .jnz a => [a]
  | .jg a => [a]
  | .jge a => [a]
  | .jl a => [a]
  | .jle a => [a]
  | .js a => [a]
  | .jns a => [a]
  | .jc a => [a]
  | .jnc a => [a]
  | .jo a => [a]
  | .jno a => [a]
  | .call a => [a]
  | .ret => []
  | .strLen _ s => [s]
  | .strCpy d s => [d, s]
  | .strCat d s => [d, s]
  | .strCmp _ s1 s2 => [s1, s2]
  | .strNcpy d s _ => [d, s]
  | .strNcat d s _ => [d, s]
  | .strUpper s => [s]
  | .strLower s => [s]
  | .strChr _ s _ => [s]
  | .strStr _ s t => [s, t]
  | .memCpy d s _ => [d, s]
  | .memSet d _ _ => [d]
  | .memClr d _ => [d]
  | .sysGetch => []
  | .sysKbhit => []
  | .sysPrintChar => []
  | .sysPrintStr => []
  | .sysNewline => []
  | .sysSetCursor => []
  | .sysGetCursor => []
  | .sysSetColor => []
  | .sysResetColor => []
  | .sysPrintNum => []
  | .sysPrintHex => []
  | .sysNumToStr => []
  | .sysReadLine => []
  | .sysClearScreen => []
  | .sysSleep => []
  | .sysVersion => []

/-- Every address field fits its four bytes (R81). -/
abbrev Instr.WellFormed (i : Instr) : Prop := ∀ a ∈ i.addrFields, a < 2 ^ 32

end Sys2Proof
end

