-- ==== Sys2Proof/Decode.lean ====
section
/-! DEFINITION. Byte order, operand shapes, the opcode map, the decoder (total on any bytes, rejecting by name)
and the encoder (30_encoding, 20_memory R53 and R54). -/

namespace Sys2Proof

/-! ### Byte order (R53, R54) -/

/-- The unsigned number a little-endian byte string stands for, least significant byte first (R53). -/
def leNat : List Byte → Nat
  | [] => 0
  | b :: bs => b.toNat + 256 * leNat bs

/-- The `n`-byte little-endian image of a number, taken modulo 2^(8n) (R53). -/
def leBytes : Nat → Nat → List Byte
  | 0, _ => []
  | n + 1, v => BitVec.ofNat 8 v :: leBytes n (v / 256)

/-- `encode_f64`: the 8-byte image of an `f64` (R54). -/
def encodeF64 (v : F64) : List Byte := leBytes 8 v.toNat

/-- `decode_f64`: the `f64` of an 8-byte image (R54). -/
def decodeF64 (bs : List Byte) : F64 := BitVec.ofNat 64 (leNat bs)

/-! ### Register indices (R21) -/

/-- The index byte of a slot (R21). -/
def Reg.index : Reg → Nat
  | .r n => n.val
  | .sp => 32
  | .f n => 33 + n.val
  | .zf => 37
  | .sf => 38
  | .cf => 39
  | .of => 40

/-- The slot an index byte names; none for 41..255 (R21, R26, R89). -/
def Reg.ofIndex (k : Nat) : Option Reg :=
  if h : k < 32 then some (.r ⟨k, h⟩)
  else if k = 32 then some .sp
  else if h : k - 33 < 4 then some (.f ⟨k - 33, h⟩)
  else if k = 37 then some .zf
  else if k = 38 then some .sf
  else if k = 39 then some .cf
  else if k = 40 then some .of
  else none

/-! ### Operand shapes (R81, R82, R83) -/

/-- The operand shapes of R82. -/
inductive Shape where
  | n | r | rr | ri | rf | ra | ar | a | aa | raa | aar | rar | arr
deriving DecidableEq, Repr

/-- The length in bytes of an instruction of a shape, the opcode byte included (R82, R83). -/
def Shape.length : Shape → Nat
  | .n => 1
  | .r => 2
  | .rr => 3
  | .ri => 6
  | .rf => 10
  | .ra => 6
  | .ar => 6
  | .a => 5
  | .aa => 9
  | .raa => 10
  | .aar => 10
  | .rar => 7
  | .arr => 7

/-- The longest instruction (R82). -/
def maxLength : Nat := 10

/-- What the decoder rejects, each by name (R87, R88, R89). -/
inductive DecodeError where
  /-- There is no byte at all: the fetch is outside Memory (R88, first check). -/
  | noByte
  /-- The opcode byte is unassigned (R87). -/
  | unknownOpcode (op : Byte)
  /-- Fewer bytes are left than the opcode's shape takes, `length` of them (R88, extent check). -/
  | truncated (length : Nat)
  /-- A register field holds 41..255 (R89). -/
  | badRegister (index : Byte)
deriving DecidableEq, Repr

/-- A `reg` field (R81, R89). -/
def takeReg : List Byte → Except DecodeError (Reg × List Byte)
  | [] => .error .noByte
  | b :: bs =>
    match Reg.ofIndex b.toNat with
    | some x => .ok (x, bs)
    | none => .error (.badRegister b)

/-- A little-endian field of `n` bytes as an unsigned number (R53, R81). -/
def takeNat (n : Nat) (bs : List Byte) : Except DecodeError (Nat × List Byte) :=
  if bs.length < n then .error .noByte else .ok (leNat (bs.take n), bs.drop n)

/-- An `a32` field (R81). -/
def takeAddr (bs : List Byte) : Except DecodeError (Addr × List Byte) := takeNat 4 bs

/-- An `i32` field, used without sign extension (R81, R84). -/
def takeImm (bs : List Byte) : Except DecodeError (Word × List Byte) := do
  let (v, bs) ← takeNat 4 bs
  pure (BitVec.ofNat 32 v, bs)

/-- An `f64` field (R81, R54). -/
def takeF64 (bs : List Byte) : Except DecodeError (F64 × List Byte) := do
  let (v, bs) ← takeNat 8 bs
  pure (BitVec.ofNat 64 v, bs)

/-- An opcode's operand shape together with the instruction its fields make. -/
inductive Form where
  | n (i : Instr)
  | r (k : Reg → Instr)
  | rr (k : Reg → Reg → Instr)
  | ri (k : Reg → Word → Instr)
  | rf (k : Reg → F64 → Instr)
  | ra (k : Reg → Addr → Instr)
  | ar (k : Addr → Reg → Instr)
  | a (k : Addr → Instr)
  | aa (k : Addr → Addr → Instr)
  | raa (k : Reg → Addr → Addr → Instr)
  | aar (k : Addr → Addr → Reg → Instr)
  | rar (k : Reg → Addr → Reg → Instr)
  | arr (k : Addr → Reg → Reg → Instr)

/-- The shape of a form. -/
def Form.shape : Form → Shape
  | .n _ => .n
  | .r _ => .r
  | .rr _ => .rr
  | .ri _ => .ri
  | .rf _ => .rf
  | .ra _ => .ra
  | .ar _ => .ar
  | .a _ => .a
  | .aa _ => .aa
  | .raa _ => .raa
  | .aar _ => .aar
  | .rar _ => .rar
  | .arr _ => .arr

/-- Reads the fields after the opcode byte, in the field order of R82. -/
def Form.parse : Form → List Byte → Except DecodeError (Instr × List Byte)
  | .n i, bs => pure (i, bs)
  | .r k, bs => do
    let (x, bs) ← takeReg bs
    pure (k x, bs)
  | .rr k, bs => do
    let (x, bs) ← takeReg bs
    let (y, bs) ← takeReg bs
    pure (k x y, bs)
  | .ri k, bs => do
    let (x, bs) ← takeReg bs
    let (v, bs) ← takeImm bs
    pure (k x v, bs)
  | .rf k, bs => do
    let (x, bs) ← takeReg bs
    let (v, bs) ← takeF64 bs
    pure (k x v, bs)
  | .ra k, bs => do
    let (x, bs) ← takeReg bs
    let (p, bs) ← takeAddr bs
    pure (k x p, bs)
  | .ar k, bs => do
    let (p, bs) ← takeAddr bs
    let (x, bs) ← takeReg bs
    pure (k p x, bs)
  | .a k, bs => do
    let (p, bs) ← takeAddr bs
    pure (k p, bs)
  | .aa k, bs => do
    let (p, bs) ← takeAddr bs
    let (q, bs) ← takeAddr bs
    pure (k p q, bs)
  | .raa k, bs => do
    let (x, bs) ← takeReg bs
    let (p, bs) ← takeAddr bs
    let (q, bs) ← takeAddr bs
    pure (k x p q, bs)
  | .aar k, bs => do
    let (p, bs) ← takeAddr bs
    let (q, bs) ← takeAddr bs
    let (x, bs) ← takeReg bs
    pure (k p q x, bs)
  | .rar k, bs => do
    let (x, bs) ← takeReg bs
    let (p, bs) ← takeAddr bs
    let (y, bs) ← takeReg bs
    pure (k x p y, bs)
  | .arr k, bs => do
    let (p, bs) ← takeAddr bs
    let (x, bs) ← takeReg bs
    let (y, bs) ← takeReg bs
    pure (k p x y, bs)

/-! ### The opcode map (R86, R87) -/

/-- OPCODE_MAP: the form of each assigned opcode byte, none for the 154 unassigned ones (R86, R87). -/
def formOf : Nat → Option Form
  | 0x00 => some (.n .nop)
  | 0x01 => some (.n .hlt)
  | 0x10 => some (.rr .movRR)
  | 0x11 => some (.rf .movRI)
  | 0x12 => some (.ra .movRM)
  | 0x13 => some (.ar .movMR)
  | 0x14 => some (.rr .movRMI)
  | 0x15 => some (.rr .movMRI)
  | 0x16 => some (.ra .movbRM)
  | 0x17 => some (.ar .movbMR)
  | 0x18 => some (.rr .movbRMI)
  | 0x19 => some (.rr .movbMRI)
  | 0x1A => some (.rr .movzx)
  | 0x1B => some (.rr .movsx)
  | 0x1C => some (.ra .lea)
  | 0x20 => some (.r .push)
  | 0x21 => some (.r .pop)
  | 0x30 => some (.rr .addRR)
  | 0x31 => some (.rf .addRI)
  | 0x32 => some (.rr .subRR)
  | 0x33 => some (.rf .subRI)
  | 0x34 => some (.rr .mulRR)
  | 0x35 => some (.rf .mulRI)
  | 0x36 => some (.rr .divRR)
  | 0x37 => some (.rf .divRI)
  | 0x38 => some (.rr .modRR)
  | 0x39 => some (.rf .modRI)
  | 0x3A => some (.r .neg)
  | 0x3B => some (.r .inc)
  | 0x3C => some (.r .dec)
  | 0x3D => some (.rr .cmpRR)
  | 0x3E => some (.rf .cmpRI)
  | 0x40 => some (.rr .mathAdd)
  | 0x41 => some (.rr .mathSub)
  | 0x42 => some (.rr .mathMul)
  | 0x43 => some (.rr .mathDiv)
  | 0x44 => some (.rr .mathMod)
  | 0x45 => some (.rr .mathSqrt)
  | 0x46 => some (.rr .mathLog)
  | 0x50 => some (.rr .andRR)
  | 0x51 => some (.ri .andRI)
  | 0x52 => some (.rr .orRR)
  | 0x53 => some (.ri .orRI)
  | 0x54 => some (.rr .xorRR)
  | 0x55 => some (.ri .xorRI)
  | 0x56 => some (.r .not)
  | 0x57 => some (.rr .testRR)
  | 0x58 => some (.ri .testRI)
  | 0x59 => some (.rr .shlRR)
  | 0x5A => some (.ri .shlRI)
  | 0x5B => some (.rr .shrRR)
  | 0x5C => some (.ri .shrRI)
  | 0x5D => some (.rr .sarRR)
  | 0x5E => some (.ri .sarRI)
  | 0x5F => some (.rr .rolRR)
  | 0x60 => some (.ri .rolRI)
  | 0x61 => some (.rr .rorRR)
  | 0x62 => some (.ri .rorRI)
  | 0x70 => some (.a .jmp)
  | 0x71 => some (.a .jz)
  | 0x72 => some (.a .jnz)
  | 0x73 => some (.a .jg)
  | 0x74 => some (.a .jge)
  | 0x75 => some (.a .jl)
  | 0x76 => some (.a .jle)
  | 0x77 => some (.a .js)
  | 0x78 => some (.a .jns)
  | 0x79 => some (.a .jc)
  | 0x7A => some (.a .jnc)
  | 0x7B => some (.a .jo)
  | 0x7C => some (.a .jno)
  | 0x7D => some (.a .call)
  | 0x7E => some (.n .ret)
  | 0x80 => some (.ra .strLen)
  | 0x81 => some (.aa .strCpy)
  | 0x82 => some (.aa .strCat)
  | 0x83 => some (.raa .strCmp)
  | 0x84 => some (.aar .strNcpy)
  | 0x85 => some (.aar .strNcat)
  | 0x86 => some (.a .strUpper)
  | 0x87 => some (.a .strLower)
  | 0x88 => some (.rar .strChr)
  | 0x89 => some (.raa .strStr)
  | 0x8A => some (.aar .memCpy)
  | 0x8B => some (.arr .memSet)
  | 0x8C => some (.ar .memClr)
  | 0xA0 => some (.n .sysGetch)
  | 0xA1 => some (.n .sysKbhit)
  | 0xA2 => some (.n .sysPrintChar)
  | 0xA3 => some (.n .sysPrintStr)
  | 0xA4 => some (.n .sysNewline)
  | 0xA5 => some (.n .sysSetCursor)
  | 0xA6 => some (.n .sysGetCursor)
  | 0xA7 => some (.n .sysSetColor)
  | 0xA8 => some (.n .sysResetColor)
  | 0xA9 => some (.n .sysPrintNum)
  | 0xAA => some (.n .sysPrintHex)
  | 0xAB => some (.n .sysNumToStr)
  | 0xAC => some (.n .sysReadLine)
  | 0xAD => some (.n .sysClearScreen)
  | 0xAE => some (.n .sysSleep)
  | 0xAF => some (.n .sysVersion)
  | _ => none

/-! ### Decoding (R88, R90) -/

/-- Decodes the instruction at the head of a byte string and answers it with the bytes left over. The checks
stand in the order of R88: a byte is there, the opcode is assigned, the whole extent is there, and then the
register fields in field order. -/
def decode : List Byte → Except DecodeError (Instr × List Byte)
  | [] => .error .noByte
  | op :: rest =>
    match formOf op.toNat with
    | none => .error (.unknownOpcode op)
    | some form =>
      if rest.length + 1 < form.shape.length then .error (.truncated form.shape.length)
      else form.parse rest

/-- The bytes of a table word, in the order of their addresses: byte `k` is bits `8k+7..8k`, every bit from
`nbits` on is 0, and there are `maxLength` of them. -/
def tableBytes (nbits w : Nat) : List Byte := leBytes maxLength (w % 2 ^ nbits)

/-- The instruction the decoder reads from a word of spec/opcode_table.json. -/
def decodeTableWord (nbits w : Nat) : Option Instr :=
  match decode (tableBytes nbits w) with
  | .ok (i, _) => some i
  | .error _ => none

/-! ### Encoding (R80, R81, R82, R86) -/

/-- The byte of a `reg` field (R81). -/
def regField (x : Reg) : List Byte := [BitVec.ofNat 8 x.index]

/-- The four bytes of an `a32` field (R81). -/
def addrField (a : Addr) : List Byte := leBytes 4 a

/-- The four bytes of an `i32` field (R81). -/
def immField (v : Word) : List Byte := leBytes 4 v.toNat

/-- The bytes of an instruction, opcode first and then its fields in order (R80, R82, R86). -/
def encode : Instr → List Byte
  | .nop => [0x00]
  | .hlt => [0x01]
  | .movRR d s => [0x10] ++ regField d ++ regField s
  | .movRI d fimm => [0x11] ++ regField d ++ encodeF64 fimm
  | .movRM d a => [0x12] ++ regField d ++ addrField a
  | .movMR a s => [0x13] ++ addrField a ++ regField s
  | .movRMI d s => [0x14] ++ regField d ++ regField s
  | .movMRI d s => [0x15] ++ regField d ++ regField s
  | .movbRM d a => [0x16] ++ regField d ++ addrField a
  | .movbMR a s => [0x17] ++ addrField a ++ regField s
  | .movbRMI d s => [0x18] ++ regField d ++ regField s
  | .movbMRI d s => [0x19] ++ regField d ++ regField s
  | .movzx d s => [0x1A] ++ regField d ++ regField s
  | .movsx d s => [0x1B] ++ regField d ++ regField s
  | .lea d a => [0x1C] ++ regField d ++ addrField a
  | .push s => [0x20] ++ regField s
  | .pop d => [0x21] ++ regField d
  | .addRR d s => [0x30] ++ regField d ++ regField s
  | .addRI d fimm => [0x31] ++ regField d ++ encodeF64 fimm
  | .subRR d s => [0x32] ++ regField d ++ regField s
  | .subRI d fimm => [0x33] ++ regField d ++ encodeF64 fimm
  | .mulRR d s => [0x34] ++ regField d ++ regField s
  | .mulRI d fimm => [0x35] ++ regField d ++ encodeF64 fimm
  | .divRR d s => [0x36] ++ regField d ++ regField s
  | .divRI d fimm => [0x37] ++ regField d ++ encodeF64 fimm
  | .modRR d s => [0x38] ++ regField d ++ regField s
  | .modRI d fimm => [0x39] ++ regField d ++ encodeF64 fimm
  | .neg d => [0x3A] ++ regField d
  | .inc d => [0x3B] ++ regField d
  | .dec d => [0x3C] ++ regField d
  | .cmpRR a b => [0x3D] ++ regField a ++ regField b
  | .cmpRI a fimm => [0x3E] ++ regField a ++ encodeF64 fimm
  | .mathAdd d s => [0x40] ++ regField d ++ regField s
  | .mathSub d s => [0x41] ++ regField d ++ regField s
  | .mathMul d s => [0x42] ++ regField d ++ regField s
  | .mathDiv d s => [0x43] ++ regField d ++ regField s
  | .mathMod d s => [0x44] ++ regField d ++ regField s
  | .mathSqrt d s => [0x45] ++ regField d ++ regField s
  | .mathLog d s => [0x46] ++ regField d ++ regField s
  | .andRR d s => [0x50] ++ regField d ++ regField s
  | .andRI d imm => [0x51] ++ regField d ++ immField imm
  | .orRR d s => [0x52] ++ regField d ++ regField s
  | .orRI d imm => [0x53] ++ regField d ++ immField imm
  | .xorRR d s => [0x54] ++ regField d ++ regField s
  | .xorRI d imm => [0x55] ++ regField d ++ immField imm
  | .not d => [0x56] ++ regField d
  | .testRR a b => [0x57] ++ regField a ++ regField b
  | .testRI a imm => [0x58] ++ regField a ++ immField imm
  | .shlRR d s => [0x59] ++ regField d ++ regField s
  | .shlRI d imm => [0x5A] ++ regField d ++ immField imm
  | .shrRR d s => [0x5B] ++ regField d ++ regField s
  | .shrRI d imm => [0x5C] ++ regField d ++ immField imm
  | .sarRR d s => [0x5D] ++ regField d ++ regField s
  | .sarRI d imm => [0x5E] ++ regField d ++ immField imm
  | .rolRR d s => [0x5F] ++ regField d ++ regField s
  | .rolRI d imm => [0x60] ++ regField d ++ immField imm
  | .rorRR d s => [0x61] ++ regField d ++ regField s
  | .rorRI d imm => [0x62] ++ regField d ++ immField imm
  | .jmp a => [0x70] ++ addrField a
  | .jz a => [0x71] ++ addrField a
  | .jnz a => [0x72] ++ addrField a
  | .jg a => [0x73] ++ addrField a
  | .jge a => [0x74] ++ addrField a
  | .jl a => [0x75] ++ addrField a
  | .jle a => [0x76] ++ addrField a
  | .js a => [0x77] ++ addrField a
  | .jns a => [0x78] ++ addrField a
  | .jc a => [0x79] ++ addrField a
  | .jnc a => [0x7A] ++ addrField a
  | .jo a => [0x7B] ++ addrField a
  | .jno a => [0x7C] ++ addrField a
  | .call a => [0x7D] ++ addrField a
  | .ret => [0x7E]
  | .strLen d s => [0x80] ++ regField d ++ addrField s
  | .strCpy d s => [0x81] ++ addrField d ++ addrField s
  | .strCat d s => [0x82] ++ addrField d ++ addrField s
  | .strCmp d s1 s2 => [0x83] ++ regField d ++ addrField s1 ++ addrField s2
  | .strNcpy d s n => [0x84] ++ addrField d ++ addrField s ++ regField n
  | .strNcat d s n => [0x85] ++ addrField d ++ addrField s ++ regField n
  | .strUpper s => [0x86] ++ addrField s
  | .strLower s => [0x87] ++ addrField s
  | .strChr d s c => [0x88] ++ regField d ++ addrField s ++ regField c
  | .strStr d s t => [0x89] ++ regField d ++ addrField s ++ addrField t
  | .memCpy d s n => [0x8A] ++ addrField d ++ addrField s ++ regField n
  | .memSet d v n => [0x8B] ++ addrField d ++ regField v ++ regField n
  | .memClr d n => [0x8C] ++ addrField d ++ regField n
  | .sysGetch => [0xA0]
  | .sysKbhit => [0xA1]
  | .sysPrintChar => [0xA2]
  | .sysPrintStr => [0xA3]
  | .sysNewline => [0xA4]
  | .sysSetCursor => [0xA5]
  | .sysGetCursor => [0xA6]
  | .sysSetColor => [0xA7]
  | .sysResetColor => [0xA8]
  | .sysPrintNum => [0xA9]
  | .sysPrintHex => [0xAA]
  | .sysNumToStr => [0xAB]
  | .sysReadLine => [0xAC]
  | .sysClearScreen => [0xAD]
  | .sysSleep => [0xAE]
  | .sysVersion => [0xAF]

/-- The length of an instruction in bytes (R83). -/
def Instr.length (i : Instr) : Nat := (encode i).length

end Sys2Proof
end

