-- ==== Sys2Proof/Machine/Operands.lean ====
section
/-! DEFINITION. How an instruction reads a register value: as an unsigned or signed 32-bit integer, a byte, an
address or a byte count (10_state, R27 to R30). -/

namespace Sys2Proof.Machine

/-- `u32`: the truncation modulo 2^32, and 0 for a NaN or an infinity (R27). -/
def u32 (v : F64) : Word := if isFin v then BitVec.ofInt 32 (ftrunc v) else 0

/-- `i32`: the two's complement reading of `u32` (R28). -/
def i32 (v : F64) : Int := (u32 v).toInt

/-- The low 8 bits of the `u32` reading (R228, R310, R313, R344). -/
def lowByte (v : F64) : Byte := (u32 v).setWidth 8

/-- `addr`: the truncation as an unbounded integer; a NaN or an infinity is no address (R29). -/
def addr (v : F64) : Except FaultRecord Int :=
  if isFin v then .ok (ftrunc v) else .error (.outOfBounds (.value v) 0)

/-- `count`: the truncation where it is finite and not negative (R30). -/
def count (v : F64) : Except FaultRecord Nat :=
  if isFin v ∧ 0 ≤ ftrunc v then .ok (ftrunc v).toNat else .error (.outOfBounds (.value v) 0)

/-- The 32-bit unsigned result widened back to a register value (R31). -/
def widen (w : Word) : F64 := ofNat w.toNat

end Sys2Proof.Machine
end

