-- ==== Sys2Proof/Machine/Ops.lean ====
section
/-! DEFINITION. The named operations over registers, PC and Memory, taking a fault, and the stack primitives.
An instruction reads the state it starts in and builds its next state from it (R13); a check that fails ends it
with a fault record, and `complete` turns that into fault entry (R384). There is no return from a fault (R386). -/

namespace Sys2Proof.Machine

/-! ### Registers (R8, R24) -/

/-- `x[i]` as a source (R8). -/
def State.readReg (s : State) : Reg → F64
  | .r n => s.gpr[n]
  | .sp => s.sp
  | .f n => s.aux[n]
  | .zf => ofBool s.flags.zero
  | .sf => ofBool s.flags.sign
  | .cf => ofBool s.flags.carry
  | .of => ofBool s.flags.overflow

/-- `x[i] <- v`; a write to a flag slot changes nothing (R8, R24). -/
def State.writeReg (s : State) : Reg → F64 → State
  | .r n, v => { s with gpr := s.gpr.set n v }
  | .sp, v => { s with sp := v }
  | .f n, v => { s with aux := s.aux.set n v }
  | .zf, _ => s
  | .sf, _ => s
  | .cf, _ => s
  | .of, _ => s

/-! ### Flags, PC, trace, free values -/

/-- Writes all four flags (R32). -/
def State.setFlags (s : State) (f : Flags) : State := { s with flags := f }

/-- `next`, the address after an instruction of a shape at the PC (R12, R83). -/
def State.next (s : State) (sh : Shape) : Nat := s.pc + sh.length

/-- `pc <- t` (R12). -/
def State.jump (s : State) (t : Nat) : State := { s with pc := t }

/-- `pc <- next` (R13, R33). -/
def State.advance (s : State) (sh : Shape) : State := s.jump (s.next sh)

/-- An output request: appended to the event trace, no other effect (R340). -/
def State.emit (s : State) (e : HostEvent) : State := { s with trace := s.trace ++ [e] }

/-- Marks the free value numbered `draws` as used (log 2). -/
def State.draw (s : State) : State := { s with draws := s.draws + 1 }

/-- The run status becomes Halted (R262). -/
def State.halt (s : State) : State := { s with status := .halted }

/-! ### Fault entry (R384) -/

/-- Takes a fault: the status becomes Faulted with its record, and registers, flags, Memory and PC keep the
values they had before the instruction (R384). -/
def takeFault (f : FaultRecord) (s : State) : Result := .next { s with status := .faulted f }

/-- Commits the next state of an instruction, or takes the fault its checks raised (R13, R384). -/
def complete (s : State) : Except FaultRecord State → Result
  | .ok t => .next t
  | .error f => takeFault f s

/-- The numeric code of a fault kind (R380). -/
def FaultRecord.code : FaultRecord → Nat
  | .invalidOpcode _ _ => 1
  | .invalidRegister _ _ => 2
  | .outOfBounds _ _ => 3
  | .divideByZero _ _ => 4
  | .domainError _ _ => 5
  | .stackOverflow _ _ => 6
  | .stackUnderflow _ _ => 7

/-! ### Memory access (R9, R51, R52) -/

/-- An access of `n` bytes at an integer address is in bounds: `0 <= a` and `a + n <= MEM_SIZE` (R51). The second
comparison is made on naturals, which the kernel decides on symbolic addresses too. -/
abbrev inBounds (s : State) (a : Int) (n : Nat) : Prop := 0 ≤ a ∧ a.toNat + n ≤ s.params.memSize

/-- `MemRead(a, n)` (R9, R51). -/
def memRead (s : State) (a : Int) (n : Nat) : Except FaultRecord (List Byte) :=
  if inBounds s a n then .ok (s.mem.readBytes a.toNat n) else .error (.outOfBounds (.addr a) n)

/-- `MemWrite(a, n, bs)` of a byte string `bs` of length `n` (R9, R51): the whole extent is checked first (R52). -/
def memWrite (s : State) (a : Int) (n : Nat) (bs : List Byte) : Except FaultRecord State :=
  if inBounds s a n then .ok { s with mem := s.mem.writeBytes a.toNat bs }
  else .error (.outOfBounds (.addr a) n)

/-- `rd_f64` (R9, R54). -/
def rdF64 (s : State) (a : Int) : Except FaultRecord F64 := do
  let bs ← memRead s a 8
  pure (decodeF64 bs)

/-- `wr_f64` (R9, R54). -/
def wrF64 (s : State) (a : Int) (v : F64) : Except FaultRecord State := memWrite s a 8 (encodeF64 v)

/-! ### The stack (R238) -/

/-- `Push(v)` (R238). -/
def push (s : State) (v : F64) : Except FaultRecord State :=
  let nsp := fsub s.draws s.sp fEight
  if flt nsp (fZero false) then .error (.stackOverflow s.pc s.sp)
  else do
    let ea ← addr nsp
    let t ← wrF64 s ea v
    pure (t.writeReg .sp nsp)

/-- `Pop()`: the value of the slot and the state with SP moved (R238). -/
def pop (s : State) : Except FaultRecord (F64 × State) :=
  if fle (ofNat s.params.memSize) s.sp then .error (.stackUnderflow s.pc s.sp)
  else do
    let ea ← addr s.sp
    let v ← rdF64 s ea
    pure (v, s.writeReg .sp (fadd s.draws s.sp fEight))

end Sys2Proof.Machine
end

