-- ==== Sys2Proof/Machine/Control.lean ====
section
/-! DEFINITION. The control flow family (43_control_flow). No instruction here writes a flag (R260). -/

namespace Sys2Proof.Machine

/-- `if cond: pc <- a`, else past the instruction (R260, R278). -/
def branch (taken : Bool) (a : Addr) (s : State) : Result :=
  .next (if taken then s.jump a else s.advance .a)

/-- R261 -/
def execNop (s : State) : Result := .next (s.advance .n)

/-- R262 -/
def execHlt (s : State) : Result := .next ((s.advance .n).halt)

/-- R263: the target is not checked (R260). -/
def execJmp (a : Addr) (s : State) : Result := .next (s.jump a)

/-- R264 -/
def execJz (a : Addr) (s : State) : Result := branch (condZ s.flags) a s

/-- R265 -/
def execJnz (a : Addr) (s : State) : Result := branch (condNZ s.flags) a s

/-- R266 -/
def execJg (a : Addr) (s : State) : Result := branch (condG s.flags) a s

/-- R267 -/
def execJge (a : Addr) (s : State) : Result := branch (condGE s.flags) a s

/-- R268 -/
def execJl (a : Addr) (s : State) : Result := branch (condL s.flags) a s

/-- R269 -/
def execJle (a : Addr) (s : State) : Result := branch (condLE s.flags) a s

/-- R270 -/
def execJs (a : Addr) (s : State) : Result := branch (condS s.flags) a s

/-- R271 -/
def execJns (a : Addr) (s : State) : Result := branch (condNS s.flags) a s

/-- R272 -/
def execJc (a : Addr) (s : State) : Result := branch (condC s.flags) a s

/-- R273 -/
def execJnc (a : Addr) (s : State) : Result := branch (condNC s.flags) a s

/-- R274 -/
def execJo (a : Addr) (s : State) : Result := branch (condO s.flags) a s

/-- R275 -/
def execJno (a : Addr) (s : State) : Result := branch (condNO s.flags) a s

/-- R276: the return address is the one after the CALL. -/
def execCall (a : Addr) (s : State) : Result := complete s do
  let t ← push s (ofNat (s.next .a))
  pure (t.jump a)

/-- R277: a popped value that is no address in 0..2^32-1 is a fault. -/
def execRet (s : State) : Result := complete s do
  let (v, t) ← pop s
  let target ← addr v
  if target < 0 ∨ 2 ^ 32 ≤ target.toNat then .error (.outOfBounds (.value v) 0)
  else pure (t.jump target.toNat)

end Sys2Proof.Machine
end

