-- ==== Sys2Proof/Machine/DataMove.lean ====
section
/-! DEFINITION. The data movement and stack family (42_data_movement). No instruction here writes a flag (R220). -/

namespace Sys2Proof.Machine

/-! ### Shared operations -/

/-- `x[d] <- v` and the PC past the instruction. -/
def moveResult (d : Reg) (v : F64) (sh : Shape) (s : State) : State := (s.writeReg d v).advance sh

/-- `x[d] <- rd_f64(ea)` (R223, R225). -/
def loadF64 (d : Reg) (ea : Int) (sh : Shape) (s : State) : Except FaultRecord State := do
  let v ← rdF64 s ea
  pure (moveResult d v sh s)

/-- `wr_f64(ea, v)` (R224, R226). -/
def storeF64 (ea : Int) (v : F64) (sh : Shape) (s : State) : Except FaultRecord State := do
  let t ← wrF64 s ea v
  pure (t.advance sh)

/-- `x[d] <- f64(zext_8(MemRead(ea, 1)))` (R227, R229). -/
def loadByte (d : Reg) (ea : Int) (sh : Shape) (s : State) : Except FaultRecord State := do
  let bs ← memRead s ea 1
  pure (moveResult d (ofNat (leNat bs)) sh s)

/-- `MemWrite(ea, 1, u32(v) mod 256)` (R228, R230). -/
def storeByte (ea : Int) (v : F64) (sh : Shape) (s : State) : Except FaultRecord State := do
  let t ← memWrite s ea 1 [lowByte v]
  pure (t.advance sh)

/-! ### Register and immediate moves -/

/-- R221 -/
def execMovRR (d xs : Reg) (s : State) : Result := .next (moveResult d (s.readReg xs) .rr s)

/-- R222 -/
def execMovRI (d : Reg) (fimm : F64) (s : State) : Result := .next (moveResult d fimm .rf s)

/-! ### Memory moves -/

/-- R223 -/
def execMovRM (d : Reg) (a : Addr) (s : State) : Result := complete s (loadF64 d a .ra s)

/-- R224 -/
def execMovMR (a : Addr) (xs : Reg) (s : State) : Result := complete s (storeF64 a (s.readReg xs) .ar s)

/-- R225 -/
def execMovRMI (d xs : Reg) (s : State) : Result := complete s do
  let ea ← addr (s.readReg xs)
  loadF64 d ea .rr s

/-- R226 -/
def execMovMRI (d xs : Reg) (s : State) : Result := complete s do
  let ea ← addr (s.readReg d)
  storeF64 ea (s.readReg xs) .rr s

/-- R227 -/
def execMovbRM (d : Reg) (a : Addr) (s : State) : Result := complete s (loadByte d a .ra s)

/-- R228 -/
def execMovbMR (a : Addr) (xs : Reg) (s : State) : Result := complete s (storeByte a (s.readReg xs) .ar s)

/-- R229 -/
def execMovbRMI (d xs : Reg) (s : State) : Result := complete s do
  let ea ← addr (s.readReg xs)
  loadByte d ea .rr s

/-- R230 -/
def execMovbMRI (d xs : Reg) (s : State) : Result := complete s do
  let ea ← addr (s.readReg d)
  storeByte ea (s.readReg xs) .rr s

/-! ### Widening and address moves -/

/-- R231 -/
def execMovzx (d xs : Reg) (s : State) : Result := .next (moveResult d (widen (u32 (s.readReg xs))) .rr s)

/-- R232 -/
def execMovsx (d xs : Reg) (s : State) : Result := .next (moveResult d (ofInt (i32 (s.readReg xs))) .rr s)

/-- R233: no access and no bounds check. -/
def execLea (d : Reg) (a : Addr) (s : State) : Result := .next (moveResult d (ofNat a) .ra s)

/-! ### Stack -/

/-- R240: the value is read before SP moves. -/
def execPush (xs : Reg) (s : State) : Result := complete s do
  let t ← push s (s.readReg xs)
  pure (t.advance .r)

/-- R241: SP is written first, the destination second. -/
def execPop (d : Reg) (s : State) : Result := complete s do
  let (v, t) ← pop s
  pure (moveResult d v .r t)

end Sys2Proof.Machine
end

