-- ==== Sys2Proof/Machine/FloatArith.lean ====
section
/-! DEFINITION. The float arithmetic family (40_float_arith). -/

namespace Sys2Proof.Machine

/-! ### Shared operations -/

/-- `x[d] <- r; setFloatFlags(r)` and the PC past the instruction (R120). -/
def floatResult (d : Reg) (r : F64) (sh : Shape) (s : State) : State :=
  ((s.writeReg d r).setFlags (floatFlags s.params.eps r)).advance sh

/-- The same for an operation whose result may be a produced NaN: its free value is used up (R147; log 3). -/
def arithResult (d : Reg) (r : F64) (sh : Shape) (s : State) : State := (floatResult d r sh s).draw

/-- The near-zero divisor check of R121, then the operation on the divisor. -/
def divideBy (op : Nat → F64 → F64 → F64) (d : Reg) (b : F64) (sh : Shape) (s : State) : Result :=
  if flt (fabs b) s.params.eps then takeFault (.divideByZero s.pc b) s
  else .next (arithResult d (op s.draws (s.readReg d) b) sh s)

/-- What CMP sets the flags from: 0.0 for equal operands, else their difference (R135). -/
def compareValue (k : Nat) (a b : F64) : F64 := if feq a b then fZero false else fsub k a b

/-- `setFloatFlags(r)` alone, no register written (R135). -/
def compareResult (r : F64) (sh : Shape) (s : State) : State := (s.setFlags (floatFlags s.params.eps r)).advance sh

/-! ### Register and immediate arithmetic -/

/-- R122 -/
def execAddRR (d xs : Reg) (s : State) : Result :=
  .next (arithResult d (fadd s.draws (s.readReg d) (s.readReg xs)) .rr s)

/-- R123 -/
def execAddRI (d : Reg) (fimm : F64) (s : State) : Result :=
  .next (arithResult d (fadd s.draws (s.readReg d) fimm) .rf s)

/-- R124 -/
def execSubRR (d xs : Reg) (s : State) : Result :=
  .next (arithResult d (fsub s.draws (s.readReg d) (s.readReg xs)) .rr s)

/-- R125 -/
def execSubRI (d : Reg) (fimm : F64) (s : State) : Result :=
  .next (arithResult d (fsub s.draws (s.readReg d) fimm) .rf s)

/-- R126 -/
def execMulRR (d xs : Reg) (s : State) : Result :=
  .next (arithResult d (fmul s.draws (s.readReg d) (s.readReg xs)) .rr s)

/-- R127 -/
def execMulRI (d : Reg) (fimm : F64) (s : State) : Result :=
  .next (arithResult d (fmul s.draws (s.readReg d) fimm) .rf s)

/-- R128 -/
def execDivRR (d xs : Reg) (s : State) : Result := divideBy fdiv d (s.readReg xs) .rr s

/-- R129 -/
def execDivRI (d : Reg) (fimm : F64) (s : State) : Result := divideBy fdiv d fimm .rf s

/-- R130 -/
def execModRR (d xs : Reg) (s : State) : Result := divideBy fmod d (s.readReg xs) .rr s

/-- R131 -/
def execModRI (d : Reg) (fimm : F64) (s : State) : Result := divideBy fmod d fimm .rf s

/-! ### Unary arithmetic -/

/-- R132: the sign bit flips, so no NaN is produced. -/
def execNeg (d : Reg) (s : State) : Result := .next (floatResult d (fneg (s.readReg d)) .r s)

/-- R133 -/
def execInc (d : Reg) (s : State) : Result :=
  .next (arithResult d (fadd s.draws (s.readReg d) fOne) .r s)

/-- R134 -/
def execDec (d : Reg) (s : State) : Result :=
  .next (arithResult d (fsub s.draws (s.readReg d) fOne) .r s)

/-! ### Compare -/

/-- R135 -/
def execCmpRR (a b : Reg) (s : State) : Result :=
  .next (compareResult (compareValue s.draws (s.readReg a) (s.readReg b)) .rr s)

/-- R136 -/
def execCmpRI (a : Reg) (fimm : F64) (s : State) : Result :=
  .next (compareResult (compareValue s.draws (s.readReg a) fimm) .rf s)

/-! ### MATH_* -/

/-- R140 -/
def execMathAdd (d xs : Reg) (s : State) : Result :=
  .next (arithResult d (fadd s.draws (s.readReg d) (s.readReg xs)) .rr s)

/-- R141 -/
def execMathSub (d xs : Reg) (s : State) : Result :=
  .next (arithResult d (fsub s.draws (s.readReg d) (s.readReg xs)) .rr s)

/-- R142 -/
def execMathMul (d xs : Reg) (s : State) : Result :=
  .next (arithResult d (fmul s.draws (s.readReg d) (s.readReg xs)) .rr s)

/-- R143 -/
def execMathDiv (d xs : Reg) (s : State) : Result := divideBy fdiv d (s.readReg xs) .rr s

/-- R144 -/
def execMathMod (d xs : Reg) (s : State) : Result := divideBy fmod d (s.readReg xs) .rr s

/-- R145 -/
def execMathSqrt (d xs : Reg) (s : State) : Result :=
  let v := s.readReg xs
  if flt v (fZero false) then takeFault (.domainError s.pc v) s
  else .next (arithResult d (fsqrt s.draws v) .rr s)

/-- R146: LOG_FN is a function of its operand, its NaN included (log 7). -/
def execMathLog (d xs : Reg) (s : State) : Result :=
  let v := s.readReg xs
  if fle v (fZero false) then takeFault (.domainError s.pc v) s
  else .next (floatResult d (logFn v) .rr s)

end Sys2Proof.Machine
end

