-- ==== Sys2Proof/Machine/Scan.lean ====
section
/-! DEFINITION. The scan primitives of strings in Memory (44_string_memory R301). -/

namespace Sys2Proof.Machine

/-- How many bytes stand before the first 0 byte among the `fuel` bytes from an address on; none if there is no
0 byte among them. -/
def scanZero (m : Memory) : Nat → Nat → Option Nat
  | 0, _ => none
  | fuel + 1, p => if m.get p = 0 then some 0 else (scanZero m fuel (p + 1)).map (· + 1)

/-- `strlen_at(a)`: bytes are read in order, and the first that is out of bounds raises the fault (R301). -/
def strlenAt (s : State) (a : Int) : Except FaultRecord Nat :=
  if a < 0 then .error (.outOfBounds (.addr a) 1)
  else
    match scanZero s.mem (s.params.memSize - a.toNat) a.toNat with
    | some k => .ok k
    | none => .error (.outOfBounds (.addr (max a.toNat s.params.memSize : Nat)) 1)

/-- `str_at(a)`: the bytes of the string, without the 0 (R301). -/
def strAt (s : State) (a : Int) : Except FaultRecord (List Byte) := do
  let k ← strlenAt s a
  memRead s a k

/-- `strnlen_at(a, n)`: at most `n` bytes are read, each bounds-checked (R301). -/
def strnlenAt (s : State) (a : Int) (n : Nat) : Except FaultRecord Nat :=
  if n = 0 then .ok 0
  else if a < 0 then .error (.outOfBounds (.addr a) 1)
  else
    match scanZero s.mem (min n (s.params.memSize - a.toNat)) a.toNat with
    | some k => .ok k
    | none =>
      if n ≤ s.params.memSize - a.toNat then .ok n
      else .error (.outOfBounds (.addr (max a.toNat s.params.memSize : Nat)) 1)

/-- `strn_at(a, n)` (R301; log 14). -/
def strnAt (s : State) (a : Int) (n : Nat) : Except FaultRecord (List Byte) := do
  let k ← strnlenAt s a n
  memRead s a k

end Sys2Proof.Machine
end

