-- ==== Sys2Proof/Machine/HostIO.lean ====
section
/-! DEFINITION. The Host I/O family (45_host_io). The answer to an input request is a free value in the range
R340 states (log 5); an output request is appended to the event trace. Every check that can fault comes before
the request (R341). No instruction here writes a flag (R358). -/

namespace Sys2Proof.Machine

/-! ### Shared operations and the open functions -/

/-- R0, R1 and R2, the slots these instructions use by convention (R358). -/
def r0 : Reg := .r 0
def r1 : Reg := .r 1
def r2 : Reg := .r 2

/-- One output request and nothing else (R340). -/
def output (e : HostEvent) (s : State) : Result := .next ((s.emit e).advance .n)

/-- The Host's answer to ReadLine(cap): at most `cap - 1` bytes, none of them 0 (R340; log 5, log 6). -/
def hostLineFor (k cap : Nat) : List Byte := ((Config.hostLine k).filter (fun b => b ≠ 0)).take (cap - 1)

/-- NUM_FORMAT: a non-empty string of bytes 0x20..0x7E (R6; log 7). -/
def numFormat (v : F64) : List Byte :=
  (Config.numFormatHead v :: Config.numFormatTail v).map (fun c => BitVec.ofNat 8 (0x20 + c.val))

/-! ### Keyboard input -/

/-- R342 -/
def execSysGetch (s : State) : Result :=
  .next (((s.writeReg r0 (ofNat (Config.hostChar s.draws).toNat)).advance .n).draw)

/-- R343 -/
def execSysKbhit (s : State) : Result :=
  .next (((s.writeReg r0 (ofNat (Config.hostKey s.draws).toNat)).advance .n).draw)

/-! ### Console output -/

/-- R344 -/
def execSysPrintChar (s : State) : Result := output (.putChar (lowByte (s.readReg r0))) s

/-- R345 -/
def execSysPrintStr (s : State) : Result := complete s do
  let a ← addr (s.readReg r0)
  let t ← strAt s a
  pure ((s.emit (.putStr t)).advance .n)

/-- R346 -/
def execSysNewline (s : State) : Result := output .newline s

/-- R347: R0 is the column, R1 the row. -/
def execSysSetCursor (s : State) : Result := output (.setCursor (u32 (s.readReg r0)) (u32 (s.readReg r1))) s

/-- R348 -/
def execSysGetCursor (s : State) : Result :=
  .next ((((s.writeReg r0 (widen (Config.hostCursorCol s.draws))).writeReg r1
    (widen (Config.hostCursorRow s.draws))).advance .n).draw)

/-- R349 -/
def execSysSetColor (s : State) : Result := output (.setColor (u32 (s.readReg r0))) s

/-- R350 -/
def execSysResetColor (s : State) : Result := output .resetColor s

/-- R351 -/
def execSysPrintNum (s : State) : Result := output (.putNum (s.readReg r0)) s

/-- R352 -/
def execSysPrintHex (s : State) : Result := output (.putHex (u32 (s.readReg r0))) s

/-- R353: no Host request. -/
def execSysNumToStr (s : State) : Result := complete s do
  let v := s.readReg r0
  let a ← addr (s.readReg r1)
  let t ← memWrite s a ((numFormat v).length + 1) (numFormat v ++ [0])
  pure (t.advance .n)

/-- R354: the whole buffer is checked before the request; a capacity of 0 makes no request. -/
def execSysReadLine (s : State) : Result := complete s do
  let a ← addr (s.readReg r0)
  let cap ← count (s.readReg r1)
  if ¬ inBounds s a cap then .error (.outOfBounds (.addr a) cap)
  else if cap = 0 then pure ((s.writeReg r2 (fZero false)).advance .n)
  else
    let line := hostLineFor s.draws cap
    let t ← memWrite s a (line.length + 1) (line ++ [0])
    pure (((t.writeReg r2 (ofNat line.length)).advance .n).draw)

/-- R355 -/
def execSysClearScreen (s : State) : Result := output .clearScreen s

/-! ### Time and identity -/

/-- R356: an event only. -/
def execSysSleep (s : State) : Result := output (.sleep (u32 (s.readReg r0))) s

/-- R357 -/
def execSysVersion (s : State) : Result := .next ((s.writeReg r0 Config.engineVersion).advance .n)

end Sys2Proof.Machine
end

