-- ==== Sys2Proof/Machine/Integer.lean ====
section
/-! DEFINITION. The integer bitwise, shift and rotate family (41_integer_bitwise). -/

namespace Sys2Proof.Machine

/-! ### Shifts and rotates (R171) -/

/-- SHL (R171). -/
def shl (a : Word) (c : Nat) : Word := if c < 32 then BitVec.ofNat 32 (a.toNat * 2 ^ c) else 0

/-- SHR (R171). -/
def shr (a : Word) (c : Nat) : Word := if c < 32 then BitVec.ofNat 32 (a.toNat / 2 ^ c) else 0

/-- SAR on the signed reading, rounding toward minus infinity (R171). -/
def sar (x : Int) (c : Nat) : Int := if c < 32 then x / (2 ^ c : Nat) else if x < 0 then -1 else 0

/-- ROL by the count modulo 32 (R171). -/
def rol (a : Word) (c : Nat) : Word :=
  BitVec.ofNat 32 (a.toNat * 2 ^ (c % 32) % 2 ^ 32 + a.toNat / 2 ^ (32 - c % 32))

/-- ROR by the count modulo 32 (R171). -/
def ror (a : Word) (c : Nat) : Word :=
  BitVec.ofNat 32 (a.toNat / 2 ^ (c % 32) + a.toNat * 2 ^ (32 - c % 32) % 2 ^ 32)

/-! ### Shared operations -/

/-- `x[d] <- f64(res); setIntFlags(res, false)` (R170, R31). -/
def logicResult (d : Reg) (res : Word) (sh : Shape) (s : State) : State :=
  ((s.writeReg d (widen res)).setFlags (intFlags res false)).advance sh

/-- `setIntFlags(res, false)` alone (R179). -/
def testResult (res : Word) (sh : Shape) (s : State) : State :=
  (s.setFlags (intFlags res false)).advance sh

/-- `x[d] <- f64(res); setIntFlags(res, draw(SHIFT_CF))` (R170; log 4). -/
def shiftResult (d : Reg) (res : Word) (sh : Shape) (s : State) : State :=
  (((s.writeReg d (widen res)).setFlags (intFlags res (Config.shiftCarry s.draws))).advance sh).draw

/-- The same for SAR, whose result is widened as a signed value (R185; log 4). -/
def sarResult (d : Reg) (res : Int) (sh : Shape) (s : State) : State :=
  (((s.writeReg d (ofInt res)).setFlags
    (intFlags (BitVec.ofInt 32 res) (Config.shiftCarry s.draws))).advance sh).draw

/-! ### Bitwise operations -/

/-- R172 -/
def execAndRR (d xs : Reg) (s : State) : Result :=
  .next (logicResult d (u32 (s.readReg d) &&& u32 (s.readReg xs)) .rr s)

/-- R173 -/
def execAndRI (d : Reg) (imm : Word) (s : State) : Result :=
  .next (logicResult d (u32 (s.readReg d) &&& imm) .ri s)

/-- R174 -/
def execOrRR (d xs : Reg) (s : State) : Result :=
  .next (logicResult d (u32 (s.readReg d) ||| u32 (s.readReg xs)) .rr s)

/-- R175 -/
def execOrRI (d : Reg) (imm : Word) (s : State) : Result :=
  .next (logicResult d (u32 (s.readReg d) ||| imm) .ri s)

/-- R176 -/
def execXorRR (d xs : Reg) (s : State) : Result :=
  .next (logicResult d (u32 (s.readReg d) ^^^ u32 (s.readReg xs)) .rr s)

/-- R177 -/
def execXorRI (d : Reg) (imm : Word) (s : State) : Result :=
  .next (logicResult d (u32 (s.readReg d) ^^^ imm) .ri s)

/-- R178 -/
def execNot (d : Reg) (s : State) : Result := .next (logicResult d (~~~(u32 (s.readReg d))) .r s)

/-- R179 -/
def execTestRR (a b : Reg) (s : State) : Result :=
  .next (testResult (u32 (s.readReg a) &&& u32 (s.readReg b)) .rr s)

/-- R180 -/
def execTestRI (a : Reg) (imm : Word) (s : State) : Result :=
  .next (testResult (u32 (s.readReg a) &&& imm) .ri s)

/-! ### Shifts -/

/-- R181 -/
def execShlRR (d xs : Reg) (s : State) : Result :=
  .next (shiftResult d (shl (u32 (s.readReg d)) (u32 (s.readReg xs)).toNat) .rr s)

/-- R182 -/
def execShlRI (d : Reg) (imm : Word) (s : State) : Result :=
  .next (shiftResult d (shl (u32 (s.readReg d)) imm.toNat) .ri s)

/-- R183 -/
def execShrRR (d xs : Reg) (s : State) : Result :=
  .next (shiftResult d (shr (u32 (s.readReg d)) (u32 (s.readReg xs)).toNat) .rr s)

/-- R184 -/
def execShrRI (d : Reg) (imm : Word) (s : State) : Result :=
  .next (shiftResult d (shr (u32 (s.readReg d)) imm.toNat) .ri s)

/-- R185 -/
def execSarRR (d xs : Reg) (s : State) : Result :=
  .next (sarResult d (sar (i32 (s.readReg d)) (u32 (s.readReg xs)).toNat) .rr s)

/-- R186 -/
def execSarRI (d : Reg) (imm : Word) (s : State) : Result :=
  .next (sarResult d (sar (i32 (s.readReg d)) imm.toNat) .ri s)

/-! ### Rotates -/

/-- R187 -/
def execRolRR (d xs : Reg) (s : State) : Result :=
  .next (shiftResult d (rol (u32 (s.readReg d)) (u32 (s.readReg xs)).toNat) .rr s)

/-- R188 -/
def execRolRI (d : Reg) (imm : Word) (s : State) : Result :=
  .next (shiftResult d (rol (u32 (s.readReg d)) imm.toNat) .ri s)

/-- R189 -/
def execRorRR (d xs : Reg) (s : State) : Result :=
  .next (shiftResult d (ror (u32 (s.readReg d)) (u32 (s.readReg xs)).toNat) .rr s)

/-- R190 -/
def execRorRI (d : Reg) (imm : Word) (s : State) : Result :=
  .next (shiftResult d (ror (u32 (s.readReg d)) imm.toNat) .ri s)

end Sys2Proof.Machine
end

