-- ==== Sys2Proof/Machine/Strings.lean ====
section
/-! DEFINITION. The string and block-memory family (44_string_memory). No instruction here writes a flag, and
every read sees Memory as it was before the instruction (R300). -/

namespace Sys2Proof.Machine

/-! ### Functions on byte strings -/

/-- The order of two strings of unsigned bytes, a proper prefix first: -1, 0 or 1 (R305). -/
def strOrder : List Byte → List Byte → Int
  | [], [] => 0
  | [], _ :: _ => -1
  | _ :: _, [] => 1
  | x :: xs, y :: ys => if x = y then strOrder xs ys else if x.toNat < y.toNat then -1 else 1

/-- ASCII upper case (R308). -/
def upByte (b : Byte) : Byte := if 0x61 ≤ b.toNat ∧ b.toNat ≤ 0x7A then b - 0x20 else b

/-- ASCII lower case (R309). -/
def downByte (b : Byte) : Byte := if 0x41 ≤ b.toNat ∧ b.toNat ≤ 0x5A then b + 0x20 else b

/-- The least index that holds a byte (R310). -/
def findByte (c : Byte) : List Byte → Option Nat
  | [] => none
  | b :: bs => if b = c then some 0 else (findByte c bs).map (· + 1)

/-- The least index at which a string occurs in another; the empty string occurs at 0 (R311). -/
def findStr (m : List Byte) : List Byte → Option Nat
  | [] => if m = [] then some 0 else none
  | b :: bs => if m.isPrefixOf (b :: bs) then some 0 else (findStr m bs).map (· + 1)

/-- An index as a register value, -1.0 for none (R310, R311). -/
def indexResult : Option Nat → F64
  | some k => ofNat k
  | none => ofInt (-1)

/-! ### Shared operations -/

/-- `x[d] <- v` and the PC past the instruction. -/
def strResult (d : Reg) (v : F64) (sh : Shape) (s : State) : State := (s.writeReg d v).advance sh

/-- `MemWrite(a, n, bs)` and the PC past the instruction. -/
def strWrite (a : Int) (n : Nat) (bs : List Byte) (sh : Shape) (s : State) : Except FaultRecord State := do
  let t ← memWrite s a n bs
  pure (t.advance sh)

/-! ### Length, copy, concatenate, compare -/

/-- R302 -/
def execStrLen (d : Reg) (xs : Addr) (s : State) : Result := complete s do
  let k ← strlenAt s xs
  pure (strResult d (ofNat k) .ra s)

/-- R303 -/
def execStrCpy (d xs : Addr) (s : State) : Result := complete s do
  let t ← strAt s xs
  strWrite d (t.length + 1) (t ++ [0]) .aa s

/-- R304 -/
def execStrCat (d xs : Addr) (s : State) : Result := complete s do
  let k ← strlenAt s d
  let t ← strAt s xs
  strWrite ((d : Int) + k) (t.length + 1) (t ++ [0]) .aa s

/-- R305 -/
def execStrCmp (d : Reg) (s1 s2 : Addr) (s : State) : Result := complete s do
  let t1 ← strAt s s1
  let t2 ← strAt s s2
  pure (strResult d (ofInt (strOrder t1 t2)) .raa s)

/-! ### Bounded copy and concatenate -/

/-- R306 -/
def execStrNcpy (d xs : Addr) (n : Reg) (s : State) : Result := complete s do
  let k ← count (s.readReg n)
  let t ← strnAt s xs k
  strWrite d k (t ++ List.replicate (k - t.length) 0) .aar s

/-- R307 -/
def execStrNcat (d xs : Addr) (n : Reg) (s : State) : Result := complete s do
  let lim ← count (s.readReg n)
  let k ← strlenAt s d
  let t ← strnAt s xs lim
  strWrite ((d : Int) + k) (t.length + 1) (t ++ [0]) .aar s

/-! ### Case conversion -/

/-- R308 -/
def execStrUpper (xs : Addr) (s : State) : Result := complete s do
  let t ← strAt s xs
  strWrite xs t.length (t.map upByte) .a s

/-- R309 -/
def execStrLower (xs : Addr) (s : State) : Result := complete s do
  let t ← strAt s xs
  strWrite xs t.length (t.map downByte) .a s

/-! ### Search -/

/-- R310: searching for 0 finds the terminator. -/
def execStrChr (d : Reg) (xs : Addr) (c : Reg) (s : State) : Result := complete s do
  let b := lowByte (s.readReg c)
  let t ← strAt s xs
  pure (strResult d (if b = 0 then ofNat t.length else indexResult (findByte b t)) .rar s)

/-- R311 -/
def execStrStr (d : Reg) (xs t : Addr) (s : State) : Result := complete s do
  let h ← strAt s xs
  let m ← strAt s t
  pure (strResult d (indexResult (findStr m h)) .raa s)

/-! ### Block operations -/

/-- R312 -/
def execMemCpy (d xs : Addr) (n : Reg) (s : State) : Result := complete s do
  let k ← count (s.readReg n)
  let bs ← memRead s xs k
  strWrite d k bs .aar s

/-- R313 -/
def execMemSet (d : Addr) (v n : Reg) (s : State) : Result := complete s do
  let k ← count (s.readReg n)
  strWrite d k (List.replicate k (lowByte (s.readReg v))) .arr s

/-- R314 -/
def execMemClr (d : Addr) (n : Reg) (s : State) : Result := complete s do
  let k ← count (s.readReg n)
  strWrite d k (List.replicate k 0) .ar s

end Sys2Proof.Machine
end

