-- ==== Sys2Proof/Machine/Dispatch.lean ====
section
/-! DEFINITION. exec: one arm per constructor of Instr, each a direct call of that instruction's meaning. -/

namespace Sys2Proof.Machine

def exec (i : Instr) (s : State) : Host.Outcome State Fault Refusal :=
  match i with
  | .nop => Sys2Proof.Machine.execNop s
  | .hlt => Sys2Proof.Machine.execHlt s
  | .movRR d xs => Sys2Proof.Machine.execMovRR d xs s
  | .movRI d fimm => Sys2Proof.Machine.execMovRI d fimm s
  | .movRM d a => Sys2Proof.Machine.execMovRM d a s
  | .movMR a xs => Sys2Proof.Machine.execMovMR a xs s
  | .movRMI d xs => Sys2Proof.Machine.execMovRMI d xs s
  | .movMRI d xs => Sys2Proof.Machine.execMovMRI d xs s
  | .movbRM d a => Sys2Proof.Machine.execMovbRM d a s
  | .movbMR a xs => Sys2Proof.Machine.execMovbMR a xs s
  | .movbRMI d xs => Sys2Proof.Machine.execMovbRMI d xs s
  | .movbMRI d xs => Sys2Proof.Machine.execMovbMRI d xs s
  | .movzx d xs => Sys2Proof.Machine.execMovzx d xs s
  | .movsx d xs => Sys2Proof.Machine.execMovsx d xs s
  | .lea d a => Sys2Proof.Machine.execLea d a s
  | .push xs => Sys2Proof.Machine.execPush xs s
  | .pop d => Sys2Proof.Machine.execPop d s
  | .addRR d xs => Sys2Proof.Machine.execAddRR d xs s
  | .addRI d fimm => Sys2Proof.Machine.execAddRI d fimm s
  | .subRR d xs => Sys2Proof.Machine.execSubRR d xs s
  | .subRI d fimm => Sys2Proof.Machine.execSubRI d fimm s
  | .mulRR d xs => Sys2Proof.Machine.execMulRR d xs s
  | .mulRI d fimm => Sys2Proof.Machine.execMulRI d fimm s
  | .divRR d xs => Sys2Proof.Machine.execDivRR d xs s
  | .divRI d fimm => Sys2Proof.Machine.execDivRI d fimm s
  | .modRR d xs => Sys2Proof.Machine.execModRR d xs s
  | .modRI d fimm => Sys2Proof.Machine.execModRI d fimm s
  | .neg d => Sys2Proof.Machine.execNeg d s
  | .inc d => Sys2Proof.Machine.execInc d s
  | .dec d => Sys2Proof.Machine.execDec d s
  | .cmpRR a b => Sys2Proof.Machine.execCmpRR a b s
  | .cmpRI a fimm => Sys2Proof.Machine.execCmpRI a fimm s
  | .mathAdd d xs => Sys2Proof.Machine.execMathAdd d xs s
  | .mathSub d xs => Sys2Proof.Machine.execMathSub d xs s
  | .mathMul d xs => Sys2Proof.Machine.execMathMul d xs s
  | .mathDiv d xs => Sys2Proof.Machine.execMathDiv d xs s
  | .mathMod d xs => Sys2Proof.Machine.execMathMod d xs s
  | .mathSqrt d xs => Sys2Proof.Machine.execMathSqrt d xs s
  | .mathLog d xs => Sys2Proof.Machine.execMathLog d xs s
  | .andRR d xs => Sys2Proof.Machine.execAndRR d xs s
  | .andRI d imm => Sys2Proof.Machine.execAndRI d imm s
  | .orRR d xs => Sys2Proof.Machine.execOrRR d xs s
  | .orRI d imm => Sys2Proof.Machine.execOrRI d imm s
  | .xorRR d xs => Sys2Proof.Machine.execXorRR d xs s
  | .xorRI d imm => Sys2Proof.Machine.execXorRI d imm s
  | .not d => Sys2Proof.Machine.execNot d s
  | .testRR a b => Sys2Proof.Machine.execTestRR a b s
  | .testRI a imm => Sys2Proof.Machine.execTestRI a imm s
  | .shlRR d xs => Sys2Proof.Machine.execShlRR d xs s
  | .shlRI d imm => Sys2Proof.Machine.execShlRI d imm s
  | .shrRR d xs => Sys2Proof.Machine.execShrRR d xs s
  | .shrRI d imm => Sys2Proof.Machine.execShrRI d imm s
  | .sarRR d xs => Sys2Proof.Machine.execSarRR d xs s
  | .sarRI d imm => Sys2Proof.Machine.execSarRI d imm s
  | .rolRR d xs => Sys2Proof.Machine.execRolRR d xs s
  | .rolRI d imm => Sys2Proof.Machine.execRolRI d imm s
  | .rorRR d xs => Sys2Proof.Machine.execRorRR d xs s
  | .rorRI d imm => Sys2Proof.Machine.execRorRI d imm s
  | .jmp a => Sys2Proof.Machine.execJmp a s
  | .jz a => Sys2Proof.Machine.execJz a s
  | .jnz a => Sys2Proof.Machine.execJnz a s
  | .jg a => Sys2Proof.Machine.execJg a s
  | .jge a => Sys2Proof.Machine.execJge a s
  | .jl a => Sys2Proof.Machine.execJl a s
  | .jle a => Sys2Proof.Machine.execJle a s
  | .js a => Sys2Proof.Machine.execJs a s
  | .jns a => Sys2Proof.Machine.execJns a s
  | .jc a => Sys2Proof.Machine.execJc a s
  | .jnc a => Sys2Proof.Machine.execJnc a s
  | .jo a => Sys2Proof.Machine.execJo a s
  | .jno a => Sys2Proof.Machine.execJno a s
  | .call a => Sys2Proof.Machine.execCall a s
  | .ret => Sys2Proof.Machine.execRet s
  | .strLen d xs => Sys2Proof.Machine.execStrLen d xs s
  | .strCpy d xs => Sys2Proof.Machine.execStrCpy d xs s
  | .strCat d xs => Sys2Proof.Machine.execStrCat d xs s
  | .strCmp d s1 s2 => Sys2Proof.Machine.execStrCmp d s1 s2 s
  | .strNcpy d xs n => Sys2Proof.Machine.execStrNcpy d xs n s
  | .strNcat d xs n => Sys2Proof.Machine.execStrNcat d xs n s
  | .strUpper xs => Sys2Proof.Machine.execStrUpper xs s
  | .strLower xs => Sys2Proof.Machine.execStrLower xs s
  | .strChr d xs c => Sys2Proof.Machine.execStrChr d xs c s
  | .strStr d xs t => Sys2Proof.Machine.execStrStr d xs t s
  | .memCpy d xs n => Sys2Proof.Machine.execMemCpy d xs n s
  | .memSet d v n => Sys2Proof.Machine.execMemSet d v n s
  | .memClr d n => Sys2Proof.Machine.execMemClr d n s
  | .sysGetch => Sys2Proof.Machine.execSysGetch s
  | .sysKbhit => Sys2Proof.Machine.execSysKbhit s
  | .sysPrintChar => Sys2Proof.Machine.execSysPrintChar s
  | .sysPrintStr => Sys2Proof.Machine.execSysPrintStr s
  | .sysNewline => Sys2Proof.Machine.execSysNewline s
  | .sysSetCursor => Sys2Proof.Machine.execSysSetCursor s
  | .sysGetCursor => Sys2Proof.Machine.execSysGetCursor s
  | .sysSetColor => Sys2Proof.Machine.execSysSetColor s
  | .sysResetColor => Sys2Proof.Machine.execSysResetColor s
  | .sysPrintNum => Sys2Proof.Machine.execSysPrintNum s
  | .sysPrintHex => Sys2Proof.Machine.execSysPrintHex s
  | .sysNumToStr => Sys2Proof.Machine.execSysNumToStr s
  | .sysReadLine => Sys2Proof.Machine.execSysReadLine s
  | .sysClearScreen => Sys2Proof.Machine.execSysClearScreen s
  | .sysSleep => Sys2Proof.Machine.execSysSleep s
  | .sysVersion => Sys2Proof.Machine.execSysVersion s

end Sys2Proof.Machine
end

