-- ==== Sys2Proof/Machine/Fetch.lean ====
section
/-! DEFINITION. Instruction fetch (30_encoding R88), loading a ROM image (70_reset R420), and laying an
instruction's bytes where the next fetch reads them. -/

namespace Sys2Proof.Machine

/-- The bytes a fetch at the PC can see: up to the longest instruction, none past the end of Memory (R88). -/
def fetchWindow (s : State) : List Byte :=
  s.mem.readBytes s.pc (min maxLength (s.params.memSize - s.pc))

/-- The fault record of a rejected fetch (R88). -/
def fetchFault (pc : Nat) : DecodeError → FaultRecord
  | .noByte => .invalidOpcode pc .pcOutOfRange
  | .unknownOpcode op => .invalidOpcode pc (.unknownOpcode op)
  | .truncated length => .outOfBounds (.addr pc) length
  | .badRegister index => .invalidRegister pc index

/-- Fetches and decodes the instruction at the PC, the checks in the order of R88. -/
def fetch (s : State) : Except FaultRecord Instr :=
  match decode (fetchWindow s) with
  | .ok (i, _) => .ok i
  | .error e => .error (fetchFault s.pc e)

/-- Run start of a configuration with a ROM image: refused when it is larger than Memory, else the image is copied to
address 0 of zeroed Memory and everything else is at its reset value (R6, R420; log 9). -/
def State.load (p : Params) (rom : List Byte) : Option State :=
  if p.memSize < rom.length then none
  else some { State.resetWith p with mem := Memory.writeBytes [] 0 rom }

/-- The PC a ten-byte instruction can be fetched at: the present one, or RESET_PC where ten bytes do not fit
before the end of Memory. -/
def fetchPlace (s : State) : Nat :=
  if s.pc + maxLength ≤ s.params.memSize then s.pc else Config.resetPc

/-- The state with a byte string stored where the next fetch reads, cut to the end of Memory, and running. -/
def State.placeCode (s : State) (bs : List Byte) : State :=
  { s with
    pc := fetchPlace s
    mem := s.mem.writeBytes (fetchPlace s) (bs.take (s.params.memSize - fetchPlace s))
    status := .running }

end Sys2Proof.Machine
end

