-- ==== Sys2Proof/Machine/Step.lean ====
section
/-! DEFINITION. One step of the engine (R34, R88) and the placing of an instruction for the next fetch. -/

namespace Sys2Proof.Machine

/-- One step: fetch, decode and execute while the status is Running; a rejected fetch takes its fault (R88,
R384); a stopped engine takes no step (R34; log 8). -/
def step (s : State) : Host.Outcome State Fault Refusal :=
  match s.status with
  | .halted => .fault .engineHalted
  | .faulted f => .fault (.engineFaulted f)
  | .running =>
    match fetch s with
    | .ok i => exec i s
    | .error f => takeFault f s

/-- `s` with the instruction of a table word stored where `step` fetches next (log 9). -/
def State.withFetchWord (s : State) (nbits w : Nat) : State := s.placeCode (tableBytes nbits w)

end Sys2Proof.Machine
end

