-- ==== Sys2Proof/Safety.lean ====
section
/-! DEFINITION. The terms claims about the engine are stated in: what an instruction leaves unchanged, strings
and byte runs in Memory, the rational value of a binary64, and the invariant every step keeps. -/

namespace Sys2Proof

/-- The flag pseudo-slots, to which every write is ignored (R24). -/
def Reg.isFlag : Reg → Bool
  | .r _ => false
  | .sp => false
  | .f _ => false
  | .zf => true
  | .sf => true
  | .cf => true
  | .of => true

/-- The offsets of the `reg` fields of a shape from the opcode byte, in field order (R82). -/
def Shape.regOffsets : Shape → List Nat
  | .n => []
  | .r => [1]
  | .rr => [1, 2]
  | .ri => [1]
  | .rf => [1]
  | .ra => [1]
  | .ar => [5]
  | .a => []
  | .aa => []
  | .raa => [1]
  | .aar => [9]
  | .rar => [1, 6]
  | .arr => [5, 6]

/-- The opcode byte of an instruction as a number (R86). -/
def Instr.opcode (i : Instr) : Nat := ((encode i).headD 0).toNat

namespace Machine

/-! ### Frames -/

/-- Every register slot but the flag slots and those listed reads as before. -/
def SameRegs (s t : State) (ds : List Reg) : Prop :=
  ∀ x, x.isFlag = false → x ∉ ds → t.readReg x = s.readReg x

/-- Every byte of Memory reads as before. -/
def SameMem (s t : State) : Prop := ∀ a, t.mem.get a = s.mem.get a

/-- Every byte of Memory but the `n` from `a` on reads as before. -/
def SameMemOutside (s t : State) (a n : Nat) : Prop :=
  ∀ b, (b < a ∨ a + n ≤ b) → t.mem.get b = s.mem.get b

/-- The bytes from an address on are these. -/
def BytesAt (s : State) (a : Nat) (bs : List Byte) : Prop :=
  ∀ k, ∀ h : k < bs.length, s.mem.get (a + k) = bs[k]

/-- A string and its terminating 0 stand inside Memory at an address (R300(b)). -/
def StringAt (s : State) (a : Nat) (t : List Byte) : Prop :=
  BytesAt s a t ∧ (∀ b ∈ t, b ≠ 0) ∧ s.mem.get (a + t.length) = 0 ∧ a + t.length < s.params.memSize

/-- The string of at most `n` bytes at an address: `n` bytes without a 0 inside Memory, or fewer and then a 0
(R301, `strn_at`). -/
def BoundedStringAt (s : State) (a n : Nat) (t : List Byte) : Prop :=
  BytesAt s a t ∧ (∀ b ∈ t, b ≠ 0) ∧
    ((t.length = n ∧ a + n ≤ s.params.memSize) ∨
      (t.length < n ∧ s.mem.get (a + t.length) = 0 ∧ a + t.length < s.params.memSize))

/-- The run status, the event trace and the parameters of the configuration are unchanged. -/
def SameRun (s t : State) : Prop := t.status = s.status ∧ t.trace = s.trace ∧ t.params = s.params

/-- What an instruction does that writes the value `v` to the slot `d`: a flag slot ignores the write (R24), no
other register changes, the flags become `fl`, the PC `pc`, and Memory, status and trace are unchanged. -/
def RegEffect (s t : State) (d : Reg) (v : F64) (fl : Flags) (pc : Nat) : Prop :=
  (d.isFlag = false → t.readReg d = v) ∧ SameRegs s t [d] ∧ t.flags = fl ∧ t.pc = pc ∧
    SameMem s t ∧ SameRun s t

/-- What an instruction does that stores the bytes `bs` from the address `a` on and changes nothing else but
the PC. -/
def StoreEffect (s t : State) (a : Nat) (bs : List Byte) (pc : Nat) : Prop :=
  BytesAt t a bs ∧ SameMemOutside s t a bs.length ∧ SameRegs s t [] ∧ t.flags = s.flags ∧ t.pc = pc ∧
    SameRun s t

/-- What an instruction does that writes flags and the PC only. -/
def FlagEffect (s t : State) (fl : Flags) (pc : Nat) : Prop :=
  SameRegs s t [] ∧ t.flags = fl ∧ t.pc = pc ∧ SameMem s t ∧ SameRun s t

/-- What an instruction does that makes the output request `e` and changes nothing else but the PC (R340). -/
def OutputEffect (s t : State) (e : HostEvent) (pc : Nat) : Prop :=
  SameRegs s t [] ∧ t.flags = s.flags ∧ t.pc = pc ∧ SameMem s t ∧ t.status = s.status ∧
    t.trace = s.trace ++ [e] ∧ t.params = s.params

/-- The state fault entry leaves: the status alone differs (R384). -/
def faultEntry (s : State) (f : FaultRecord) : State := { s with status := .faulted f }

/-! ### Values -/

/-- The rational value of a finite binary64. -/
def fVal (v : F64) : ℚ := (if fSign v then -1 else 1) * (fMant v : ℚ) * (2 : ℚ) ^ fScale v

/-! ### The invariant -/

/-- The PC a fault record holds, where its kind records one (R380). -/
def FaultRecord.pc? : FaultRecord → Option Nat
  | .invalidOpcode pc _ => some pc
  | .invalidRegister pc _ => some pc
  | .outOfBounds _ _ => none
  | .divideByZero pc _ => some pc
  | .domainError pc _ => some pc
  | .stackOverflow pc _ => some pc
  | .stackUnderflow pc _ => some pc

/-- A request carries values in the range R340 states: a printed string has no 0 byte. -/
def HostEvent.Legal : HostEvent → Prop
  | .putStr s => ∀ b ∈ s, b ≠ 0
  | .putChar _ => True
  | .newline => True
  | .setCursor _ _ => True
  | .setColor _ => True
  | .resetColor => True
  | .putNum _ => True
  | .putHex _ => True
  | .clearScreen => True
  | .sleep _ => True

/-- What holds of every state of a run: the configuration is one R6 admits, Memory is in its canonical form, the PC is
in 0..2^32 (R33), the PC a recorded fault names is the PC (R381), and every request made is legal (R340). -/
structure State.Inv (s : State) : Prop where
  params : s.params.Legal
  memory : s.mem.wf s.params.memSize
  pcRange : s.pc ≤ 2 ^ 32
  faultPc : ∀ f, s.status = .faulted f → ∀ p, f.pc? = some p → p = s.pc
  requests : ∀ e ∈ s.trace, e.Legal

/-- The run has not faulted. -/
def State.Sound (s : State) : Prop := ∀ f, s.status ≠ .faulted f

end Machine
end Sys2Proof
end

