-- ==== Sys2Proof/Certificates/Slice0/Obligations.lean ====
section
/-! DEFINITION. The statements for the provers. Each docstring names the rules of spec/ a statement formalises. -/

open Sys2Proof Sys2Proof.Machine

/-! ### Encoding and fetch (30_encoding) -/

/-- Every well-formed instruction decodes from its own bytes, with whatever follows them left over
(R82, R83, R86). -/
def Obligations.DecodeInvertsEncode : Prop :=
  ∀ (i : Instr) (rest : List Byte), i.WellFormed → decode (encode i ++ rest) = .ok (i, rest)

/-- Bytes that decode are the encoding of the well-formed instruction they decode to and of no other (R90). -/
def Obligations.EncodeInvertsDecode : Prop :=
  ∀ (bs : List Byte) (i : Instr) (rest : List Byte), decode bs = .ok (i, rest) →
    i.WellFormed ∧ bs = encode i ++ rest

/-- Words written out from R82 and R86 decode to the instructions they stand for. -/
def Obligations.SpecWordsDecode : Prop :=
  decodeTableWord 8 0x00 = some .nop ∧
  decodeTableWord 24 0x010030 = some (.addRR (.r 0) (.r 1)) ∧
  decodeTableWord 80 0x40240000000000000111 = some (.movRI (.r 1) 0x4024000000000000#64) ∧
  decodeTableWord 48 0x00000020005A = some (.shlRI (.r 0) 0x20) ∧
  decodeTableWord 48 0x020000100013 = some (.movMR 0x1000 (.r 2)) ∧
  decodeTableWord 40 0x000000407D = some (.call 0x40) ∧
  decodeTableWord 80 0x02000010000000101084 = some (.strNcpy 0x1010 0x1000 (.r 2)) ∧
  decodeTableWord 8 0xAC = some .sysReadLine ∧
  decodeTableWord 24 0x002910 = none

/-- The checks of a fetch, in the order of R88: PC range, opcode, extent, register fields in field order; a
register field is bad from 41 on (R89). When all pass, the decoded instruction is executed. -/
def Obligations.FetchChecksInOrder : Prop :=
  ∀ s : State, s.status = .running →
    (s.params.memSize ≤ s.pc → step s = .next (faultEntry s (.invalidOpcode s.pc .pcOutOfRange))) ∧
    (s.pc < s.params.memSize →
      match formOf (s.mem.get s.pc).toNat with
      | none => step s = .next (faultEntry s (.invalidOpcode s.pc (.unknownOpcode (s.mem.get s.pc))))
      | some form =>
        (s.params.memSize < s.pc + form.shape.length →
          step s = .next (faultEntry s (.outOfBounds (.addr s.pc) form.shape.length))) ∧
        (s.pc + form.shape.length ≤ s.params.memSize →
          (∀ o ∈ form.shape.regOffsets, 41 ≤ (s.mem.get (s.pc + o)).toNat →
            (∀ o' ∈ form.shape.regOffsets, o' < o → (s.mem.get (s.pc + o')).toNat ≤ 40) →
            step s = .next (faultEntry s (.invalidRegister s.pc (s.mem.get (s.pc + o))))) ∧
          ((∀ o ∈ form.shape.regOffsets, (s.mem.get (s.pc + o)).toNat ≤ 40) →
            ∃ i, BytesAt s s.pc (encode i) ∧ (encode i).length = form.shape.length ∧ step s = exec i s)))

/-- The 154 byte values R86 leaves unassigned, at the PC of a running engine, end the run with `InvalidOpcode`
(R87). -/
def Obligations.UnassignedOpcodesFault : Prop :=
  ∀ s : State, s.status = .running → s.pc < s.params.memSize →
    ∀ r ∈ [(0x02, 0x0F), (0x1D, 0x1F), (0x22, 0x2F), (0x3F, 0x3F), (0x47, 0x4F), (0x63, 0x6F), (0x7F, 0x7F),
        (0x8D, 0x9F), (0xB0, 0xFF)],
      r.1 ≤ (s.mem.get s.pc).toNat → (s.mem.get s.pc).toNat ≤ r.2 →
        step s = .next (faultEntry s (.invalidOpcode s.pc (.unknownOpcode (s.mem.get s.pc))))

/-- A step runs the decoded instruction: when bytes of Memory from the PC on decode to `i`, `step` is `exec i`. -/
def Obligations.StepRunsDecodedInstruction : Prop :=
  ∀ (s : State) (n : Nat) (i : Instr) (rest : List Byte), s.status = .running →
    s.pc + n ≤ s.params.memSize → decode (s.mem.readBytes s.pc n) = .ok (i, rest) → step s = exec i s

/-! ### Registers and conversions (00_scope R8, 10_state) -/

/-- Register access: stored slots read what was last written and nothing else, flag slots read as 1.0 or 0.0 and
ignore writes (R8). -/
def Obligations.RegisterReadAndWrite : Prop :=
  ∀ (s : State) (x y : Reg) (v : F64),
    (x.isFlag = true → s.writeReg x v = s) ∧
    (x.isFlag = false → (s.writeReg x v).readReg y = if y = x then v else s.readReg y) ∧
    s.readReg .zf = (if s.flags.zero then 0x3FF0000000000000#64 else 0) ∧
    s.readReg .sf = (if s.flags.sign then 0x3FF0000000000000#64 else 0) ∧
    s.readReg .cf = (if s.flags.carry then 0x3FF0000000000000#64 else 0) ∧
    s.readReg .of = (if s.flags.overflow then 0x3FF0000000000000#64 else 0)

/-- The four readings of a register value as an integer: `u32`, `i32`, `addr` and `count` (R27, R28, R29, R30). -/
def Obligations.RegisterReadings : Prop :=
  ∀ v : F64,
    (isFin v = false →
      u32 v = 0 ∧ addr v = .error (.outOfBounds (.value v) 0) ∧ count v = .error (.outOfBounds (.value v) 0)) ∧
    (isFin v = true →
      ((u32 v).toNat : Int) = ftrunc v % 2 ^ 32 ∧ addr v = .ok (ftrunc v) ∧
      (0 ≤ ftrunc v → count v = .ok (ftrunc v).toNat) ∧
      (ftrunc v < 0 → count v = .error (.outOfBounds (.value v) 0))) ∧
    i32 v = if (u32 v).toNat < 2 ^ 31 then ((u32 v).toNat : Int) else (u32 v).toNat - 2 ^ 32

/-- `trunc` rounds the rational value of a finite binary64 toward zero, and `f64(n)` is the binary64 equal to `n`
for every natural number and every integer of magnitude at most 2^53, with the sign of `n` and +0.0 for 0 (R10). -/
def Obligations.ConversionsKeepTheValue : Prop :=
  (∀ v : F64, isFin v = true → ftrunc v = if 0 ≤ fVal v then ⌊fVal v⌋ else ⌈fVal v⌉) ∧
  (∀ n : Nat, n ≤ 2 ^ 53 → isFin (ofNat n) = true ∧ fVal (ofNat n) = n ∧ fSign (ofNat n) = false) ∧
  (∀ n : Int, n.natAbs ≤ 2 ^ 53 →
    isFin (ofInt n) = true ∧ fVal (ofInt n) = n ∧ fSign (ofInt n) = decide (n < 0))

/-! ### Binary64 arithmetic (R11, R147) -/

/-- Rounding is to nearest, ties to even, with subnormals kept and overflow to infinity from
2^1024 - 2^970 on (R11, R147). -/
def Obligations.RoundingIsNearestTiesToEven : Prop :=
  ∀ (neg : Bool) (num den : Nat), 0 < den →
    let x : ℚ := (num : ℚ) / den
    let r := roundRatio neg num den
    fSign r = neg ∧ isNaN r = false ∧ (isInf r = true ↔ (2 : ℚ) ^ 1024 - 2 ^ 970 ≤ x) ∧
    (isFin r = true → ∀ c : F64, isFin c = true →
      |(|fVal r| - x)| ≤ |(|fVal c| - x)| ∧
      (|(|fVal r| - x)| = |(|fVal c| - x)| → |fVal c| ≠ |fVal r| → fMag r % 2 = 0))

/-- On finite operands, addition, subtraction, multiplication and division round the exact rational result once;
an exact zero sum is +0.0 unless both operands are -0.0 (R11; the signs of zeros follow IEEE 754, log 12). -/
def Obligations.OperationsRoundTheExactResult : Prop :=
  ∀ (k : Nat) (a b : F64), isFin a = true → isFin b = true →
    (fVal a + fVal b ≠ 0 → fadd k a b =
      roundRatio (decide (fVal a + fVal b < 0)) (fVal a + fVal b).num.natAbs (fVal a + fVal b).den) ∧
    (fVal a - fVal b ≠ 0 → fsub k a b =
      roundRatio (decide (fVal a - fVal b < 0)) (fVal a - fVal b).num.natAbs (fVal a - fVal b).den) ∧
    (fVal a + fVal b = 0 → fadd k a b = if fSign a && fSign b then 0x8000000000000000#64 else 0) ∧
    (fVal a - fVal b = 0 → fsub k a b = if fSign a && !fSign b then 0x8000000000000000#64 else 0) ∧
    fmul k a b = roundRatio (fSign a != fSign b) (fVal a * fVal b).num.natAbs (fVal a * fVal b).den ∧
    (fVal b ≠ 0 → fdiv k a b =
      roundRatio (fSign a != fSign b) (fVal a / fVal b).num.natAbs (fVal a / fVal b).den)

/-- `fmod` is the exact truncated remainder with the sign of the dividend (R11, R130). -/
def Obligations.RemainderIsExact : Prop :=
  ∀ (k : Nat) (a b : F64), isFin a = true → isFin b = true → fVal b ≠ 0 →
    isFin (fmod k a b) = true ∧ fSign (fmod k a b) = fSign a ∧
    fVal (fmod k a b) = fVal a - fVal b * (if 0 ≤ fVal a / fVal b then ⌊fVal a / fVal b⌋ else ⌈fVal a / fVal b⌉ : Int)

/-- The square root of a positive finite value is the binary64 nearest to it (R11, R145). -/
def Obligations.SquareRootIsNearest : Prop :=
  ∀ (k : Nat) (v : F64), isFin v = true → 0 < fVal v →
    isFin (fsqrt k v) = true ∧ fSign (fsqrt k v) = false ∧
    ∀ c : F64, isFin c = true →
      |((fVal (fsqrt k v) : ℚ) : ℝ) - Real.sqrt (fVal v)| ≤ |((fVal c : ℚ) : ℝ) - Real.sqrt (fVal v)|

/-- Comparisons are false on a NaN, those of the rational values on finite operands, and put -infinity below and
+infinity above everything else that is no NaN (R11; the order of the infinities follows IEEE 754, log 12). -/
def Obligations.ComparisonsOrderTheValues : Prop :=
  ∀ a b : F64,
    (isNaN a = true ∨ isNaN b = true → flt a b = false ∧ fle a b = false ∧ feq a b = false) ∧
    (isFin a = true → isFin b = true →
      (flt a b = true ↔ fVal a < fVal b) ∧ (fle a b = true ↔ fVal a ≤ fVal b) ∧
      (feq a b = true ↔ fVal a = fVal b)) ∧
    (isInf a = true → isNaN b = false →
      (flt a b = true ↔ fSign a = true ∧ a ≠ b) ∧ (fle a b = true ↔ fSign a = true ∨ a = b) ∧
      (feq a b = true ↔ a = b)) ∧
    (isInf b = true → isNaN a = false →
      (flt a b = true ↔ fSign b = false ∧ a ≠ b) ∧ (fle a b = true ↔ fSign b = false ∨ a = b) ∧
      (feq a b = true ↔ a = b))

/-- A NaN operand gives a NaN, and so do inf - inf, 0 * inf, inf / inf, 0 / 0, fmod of an infinity by anything and of
anything by a zero, and the root of a negative value, whatever NaN is drawn (R130, R147; that these are the invalid
operations follows IEEE 754, log 12; the NaN is free, log 3). -/
def Obligations.InvalidOperationsGiveNaN : Prop :=
  ∀ (k : Nat) (a b : F64),
    (∀ op ∈ [fadd, fsub, fmul, fdiv, fmod], isNaN a = true ∨ isNaN b = true → isNaN (op k a b) = true) ∧
    (isInf a = true → isInf b = true →
      (fSign a = fSign b → isNaN (fsub k a b) = true) ∧ (fSign a ≠ fSign b → isNaN (fadd k a b) = true) ∧
      isNaN (fdiv k a b) = true) ∧
    (isInf a = true → isNaN (fmod k a b) = true) ∧
    (isInf a = true → isFin b = true → fVal b = 0 → isNaN (fmul k a b) = true ∧ isNaN (fmul k b a) = true) ∧
    (isFin a = true → isFin b = true → fVal a = 0 → fVal b = 0 → isNaN (fdiv k a b) = true) ∧
    (isFin b = true → fVal b = 0 → isNaN (fmod k a b) = true) ∧
    (flt a 0 = true → isNaN (fsqrt k a) = true) ∧
    (isNaN a = true → isNaN (fsqrt k a) = true ∧ isNaN (fneg a) = true)

/-! ### Float arithmetic instructions (40_float_arith) -/

/-- The flags of a float-family result, for every value of EPS: zero detection compares the magnitude with EPS, and an
EPS that is no number is above every magnitude (+infinity) or above none (R120). -/
def Obligations.FloatFlagUpdate : Prop :=
  ∀ eps r : F64,
    (isFin r = true → isFin eps = true → floatFlags eps r =
      { zero := decide (|fVal r| < fVal eps), sign := decide (fVal r < 0), carry := false, overflow := false }) ∧
    (isFin r = true → isFin eps = false → floatFlags eps r =
      { zero := decide (eps = 0x7FF0000000000000#64), sign := decide (fVal r < 0),
        carry := false, overflow := false }) ∧
    (isInf r = true → floatFlags eps r =
      { zero := false, sign := fSign r, carry := true, overflow := true }) ∧
    (isNaN r = true → floatFlags eps r =
      { zero := false, sign := false, carry := false, overflow := false })

/-- ADD, SUB, MUL with a register and with an immediate, MATH_ADD, MATH_SUB, MATH_MUL, NEG, INC and DEC: they always
complete, with the result of their operation, its flags, and nothing else changed
(R122 to R127, R132 to R134, R140 to R142). -/
def Obligations.FloatArithmeticInstructions : Prop :=
  ∀ (d x : Reg) (v : F64) (s : State),
    let a := s.readReg d
    let b := s.readReg x
    let k := s.draws
    ∀ p ∈ ([(.addRR d x, fadd k a b, 3), (.addRI d v, fadd k a v, 10), (.subRR d x, fsub k a b, 3),
        (.subRI d v, fsub k a v, 10), (.mulRR d x, fmul k a b, 3), (.mulRI d v, fmul k a v, 10),
        (.mathAdd d x, fadd k a b, 3), (.mathSub d x, fsub k a b, 3), (.mathMul d x, fmul k a b, 3),
        (.neg d, a ^^^ 0x8000000000000000#64, 2), (.inc d, fadd k a 0x3FF0000000000000#64, 2),
        (.dec d, fsub k a 0x3FF0000000000000#64, 2)] : List (Instr × F64 × Nat)),
      ∃ t, exec p.1 s = .next t ∧ RegEffect s t d p.2.1 (floatFlags s.params.eps p.2.1) (s.pc + p.2.2)

/-- DIV, MOD, MATH_DIV and MATH_MOD in every form: a divisor of magnitude below EPS faults and changes nothing but
the status; any other divisor completes (R121, R128 to R131, R143, R144). -/
def Obligations.DivisionAndRemainder : Prop :=
  ∀ (d x : Reg) (v : F64) (s : State),
    ∀ p ∈ ([(.divRR d x, fdiv, s.readReg x, 3), (.divRI d v, fdiv, v, 10), (.modRR d x, fmod, s.readReg x, 3),
        (.modRI d v, fmod, v, 10), (.mathDiv d x, fdiv, s.readReg x, 3), (.mathMod d x, fmod, s.readReg x, 3)] :
        List (Instr × (Nat → F64 → F64 → F64) × F64 × Nat)),
      (flt (fabs p.2.2.1) s.params.eps = true →
        exec p.1 s = .next (faultEntry s (.divideByZero s.pc p.2.2.1))) ∧
      (flt (fabs p.2.2.1) s.params.eps = false →
        ∃ t, exec p.1 s = .next t ∧
          RegEffect s t d (p.2.1 s.draws (s.readReg d) p.2.2.1)
            (floatFlags s.params.eps (p.2.1 s.draws (s.readReg d) p.2.2.1)) (s.pc + p.2.2.2))

/-- CMP sets the flags from 0.0 for equal operands and from their difference otherwise, and writes no register
(R135, R136). -/
def Obligations.CompareInstructions : Prop :=
  ∀ (a b : Reg) (v : F64) (s : State),
    ∀ p ∈ ([(.cmpRR a b, s.readReg b, 3), (.cmpRI a v, v, 10)] : List (Instr × F64 × Nat)),
      ∃ t, exec p.1 s = .next t ∧
        FlagEffect s t
          (floatFlags s.params.eps (if feq (s.readReg a) p.2.1 then 0 else fsub s.draws (s.readReg a) p.2.1))
          (s.pc + p.2.2)

/-- `CMP x x` sets ZF and clears the others for every x that is not a NaN, and clears all four for a NaN; after a
CMP of finite operands "greater" means greater and "less" means less (R135, R278). Where ZF decides, EPS is above 0, as
R6's is (log 1). -/
def Obligations.CompareMeansOrder : Prop :=
  ∀ (a b : Reg) (s t : State), exec (.cmpRR a b) s = .next t →
    (a = b → isNaN (s.readReg a) = false → flt 0 s.params.eps = true →
      t.flags = { zero := true, sign := false, carry := false, overflow := false }) ∧
    (isNaN (s.readReg a) = true ∨ isNaN (s.readReg b) = true →
      t.flags = { zero := false, sign := false, carry := false, overflow := false }) ∧
    (isFin (s.readReg a) = true → isFin (s.readReg b) = true →
      (flt 0 s.params.eps = true → condG t.flags = true → fVal (s.readReg b) < fVal (s.readReg a)) ∧
      (condL t.flags = true → fVal (s.readReg a) < fVal (s.readReg b)))

/-- MATH_SQRT faults on a negative operand and otherwise writes the root, -0.0 and +infinity their own; MATH_LOG
faults on an operand at or below zero and otherwise writes the value of LOG_FN: 0.0 at 1.0, +infinity at +infinity,
some NaN at a NaN, open elsewhere (R145, R146). That LOG_FN is one function of the operand in every state, so that two
logarithms of the same NaN agree, is DEDUCED (log 3). -/
def Obligations.SquareRootAndLogarithm : Prop :=
  (∀ (d x : Reg) (s : State),
    (flt (s.readReg x) 0 = true →
      exec (.mathSqrt d x) s = .next (faultEntry s (.domainError s.pc (s.readReg x)))) ∧
    (flt (s.readReg x) 0 = false →
      ∃ t, exec (.mathSqrt d x) s = .next t ∧
        RegEffect s t d (fsqrt s.draws (s.readReg x))
          (floatFlags s.params.eps (fsqrt s.draws (s.readReg x))) (s.pc + 3))) ∧
  (∀ k, fsqrt k 0x8000000000000000#64 = 0x8000000000000000#64 ∧
    fsqrt k 0x7FF0000000000000#64 = 0x7FF0000000000000#64) ∧
  ∃ logf : F64 → F64,
    logf 0x3FF0000000000000#64 = 0 ∧ logf 0x7FF0000000000000#64 = 0x7FF0000000000000#64 ∧
    (∀ v, isNaN v = true → isNaN (logf v) = true) ∧
    ∀ (d x : Reg) (s : State),
      (fle (s.readReg x) 0 = true →
        exec (.mathLog d x) s = .next (faultEntry s (.domainError s.pc (s.readReg x)))) ∧
      (fle (s.readReg x) 0 = false →
        ∃ t, exec (.mathLog d x) s = .next t ∧
          RegEffect s t d (logf (s.readReg x)) (floatFlags s.params.eps (logf (s.readReg x))) (s.pc + 3))

/-! ### Integer instructions (41_integer_bitwise) -/

/-- AND, OR and XOR in both forms, and NOT: the 32-bit result widened, ZF and SF from it, CF and OF false; TEST in
both forms sets the flags of the conjunction and writes no register (R170, R172 to R180). -/
def Obligations.BitwiseInstructions : Prop :=
  ∀ (d x : Reg) (imm : Word) (s : State),
    let fl : Word → Flags := fun w =>
      { zero := decide (w.toNat = 0), sign := decide (2 ^ 31 ≤ w.toNat), carry := false, overflow := false }
    (∀ p ∈ ([(.andRR d x, u32 (s.readReg d) &&& u32 (s.readReg x), 3), (.andRI d imm, u32 (s.readReg d) &&& imm, 6),
        (.orRR d x, u32 (s.readReg d) ||| u32 (s.readReg x), 3), (.orRI d imm, u32 (s.readReg d) ||| imm, 6),
        (.xorRR d x, u32 (s.readReg d) ^^^ u32 (s.readReg x), 3), (.xorRI d imm, u32 (s.readReg d) ^^^ imm, 6),
        (.not d, 0xFFFFFFFF#32 - u32 (s.readReg d), 2)] : List (Instr × Word × Nat)),
      ∃ t, exec p.1 s = .next t ∧ RegEffect s t d (ofNat p.2.1.toNat) (fl p.2.1) (s.pc + p.2.2)) ∧
    (∀ p ∈ ([(.testRR d x, u32 (s.readReg x), 3), (.testRI d imm, imm, 6)] : List (Instr × Word × Nat)),
      ∃ t, exec p.1 s = .next t ∧ FlagEffect s t (fl (u32 (s.readReg d) &&& p.2.1)) (s.pc + p.2.2))

/-- SHL, SHR, ROL and ROR in both forms, by the formulas of R171 for every count; CF is free and OF false
(R170, R171, R181 to R184, R187 to R190). -/
def Obligations.ShiftAndRotateInstructions : Prop :=
  ∀ (d x : Reg) (imm : Word) (s : State),
    let shlN : Nat → Nat → Nat := fun a c => if c < 32 then a * 2 ^ c % 2 ^ 32 else 0
    let shrN : Nat → Nat → Nat := fun a c => if c < 32 then a / 2 ^ c else 0
    let rolN : Nat → Nat → Nat := fun a c =>
      if c % 32 = 0 then a else a * 2 ^ (c % 32) % 2 ^ 32 + a / 2 ^ (32 - c % 32)
    let rorN : Nat → Nat → Nat := fun a c =>
      if c % 32 = 0 then a else a / 2 ^ (c % 32) + a * 2 ^ (32 - c % 32) % 2 ^ 32
    let cx := (u32 (s.readReg x)).toNat
    ∀ p ∈ ([(.shlRR d x, shlN, cx, 3), (.shlRI d imm, shlN, imm.toNat, 6), (.shrRR d x, shrN, cx, 3),
        (.shrRI d imm, shrN, imm.toNat, 6), (.rolRR d x, rolN, cx, 3), (.rolRI d imm, rolN, imm.toNat, 6),
        (.rorRR d x, rorN, cx, 3), (.rorRI d imm, rorN, imm.toNat, 6)] :
        List (Instr × (Nat → Nat → Nat) × Nat × Nat)),
      let res := p.2.1 (u32 (s.readReg d)).toNat p.2.2.1
      res < 2 ^ 32 ∧
      ∃ (t : State) (cf : Bool), exec p.1 s = .next t ∧
        RegEffect s t d (ofNat res)
          { zero := decide (res = 0), sign := decide (2 ^ 31 ≤ res), carry := cf, overflow := false }
          (s.pc + p.2.2.2)

/-- SAR in both forms: the signed reading divided by a power of two, rounding toward minus infinity, the sign fill
from 32 on; the result is widened as a signed value (R171, R185, R186). -/
def Obligations.ArithmeticShiftInstructions : Prop :=
  ∀ (d x : Reg) (imm : Word) (s : State),
    ∀ p ∈ ([(.sarRR d x, (u32 (s.readReg x)).toNat, 3), (.sarRI d imm, imm.toNat, 6)] : List (Instr × Nat × Nat)),
      let v := i32 (s.readReg d)
      let res : Int := if p.2.1 < 32 then ⌊(v : ℚ) / 2 ^ p.2.1⌋ else if v < 0 then -1 else 0
      res < 2 ^ 31 ∧ -(2 ^ 31) ≤ res ∧
      ∃ (t : State) (cf : Bool), exec p.1 s = .next t ∧
        RegEffect s t d (ofInt res)
          { zero := decide (res = 0), sign := decide (res < 0), carry := cf, overflow := false } (s.pc + p.2.2)

/-! ### Data movement and stack (42_data_movement) -/

/-- MOV between registers and of an immediate, MOVZX, MOVSX and LEA: the value written, no flag and nothing else
(R221, R222, R231, R232, R233). -/
def Obligations.RegisterMoves : Prop :=
  ∀ (d x : Reg) (v : F64) (a : Nat) (s : State),
    ∀ p ∈ ([(.movRR d x, s.readReg x, 3), (.movRI d v, v, 10), (.movzx d x, ofNat (u32 (s.readReg x)).toNat, 3),
        (.movsx d x, ofInt (i32 (s.readReg x)), 3), (.lea d a, ofNat a, 6)] : List (Instr × F64 × Nat)),
      ∃ t, exec p.1 s = .next t ∧ RegEffect s t d p.2.1 s.flags (s.pc + p.2.2)

/-- MOV and MOVB from an absolute address: eight bytes or one, the fault and nothing else where they are not in
Memory (R223, R227). -/
def Obligations.AbsoluteLoads : Prop :=
  ∀ (d : Reg) (a : Nat) (s : State),
    (a + 8 ≤ s.params.memSize →
      ∃ t, exec (.movRM d a) s = .next t ∧
        RegEffect s t d (decodeF64 ((List.range 8).map fun k => s.mem.get (a + k))) s.flags (s.pc + 6)) ∧
    (s.params.memSize < a + 8 → exec (.movRM d a) s = .next (faultEntry s (.outOfBounds (.addr a) 8))) ∧
    (a < s.params.memSize →
      ∃ t, exec (.movbRM d a) s = .next t ∧ RegEffect s t d (ofNat (s.mem.get a).toNat) s.flags (s.pc + 6)) ∧
    (s.params.memSize ≤ a → exec (.movbRM d a) s = .next (faultEntry s (.outOfBounds (.addr a) 1)))

/-- MOV and MOVB from the address in a register (R225, R229). -/
def Obligations.IndirectLoads : Prop :=
  ∀ (d x : Reg) (s : State),
    let v := s.readReg x
    let a := ftrunc v
    (isFin v = false →
      exec (.movRMI d x) s = .next (faultEntry s (.outOfBounds (.value v) 0)) ∧
      exec (.movbRMI d x) s = .next (faultEntry s (.outOfBounds (.value v) 0))) ∧
    (isFin v = true → ¬ (0 ≤ a ∧ a + 8 ≤ s.params.memSize) →
      exec (.movRMI d x) s = .next (faultEntry s (.outOfBounds (.addr a) 8))) ∧
    (isFin v = true → ¬ (0 ≤ a ∧ a + 1 ≤ s.params.memSize) →
      exec (.movbRMI d x) s = .next (faultEntry s (.outOfBounds (.addr a) 1))) ∧
    (isFin v = true → 0 ≤ a → a + 8 ≤ s.params.memSize →
      ∃ t, exec (.movRMI d x) s = .next t ∧
        RegEffect s t d (decodeF64 ((List.range 8).map fun k => s.mem.get (a.toNat + k))) s.flags (s.pc + 3)) ∧
    (isFin v = true → 0 ≤ a → a + 1 ≤ s.params.memSize →
      ∃ t, exec (.movbRMI d x) s = .next t ∧
        RegEffect s t d (ofNat (s.mem.get a.toNat).toNat) s.flags (s.pc + 3))

/-- MOV and MOVB to an absolute address: the bytes stored, every other byte unchanged, all or nothing
(R224, R228, R52). -/
def Obligations.AbsoluteStores : Prop :=
  ∀ (a : Nat) (x : Reg) (s : State),
    ∀ p ∈ ([(.movMR a x, encodeF64 (s.readReg x)),
        (.movbMR a x, [BitVec.ofNat 8 ((u32 (s.readReg x)).toNat % 256)])] : List (Instr × List Byte)),
      (a + p.2.length ≤ s.params.memSize →
        ∃ t, exec p.1 s = .next t ∧ StoreEffect s t a p.2 (s.pc + 6)) ∧
      (s.params.memSize < a + p.2.length →
        exec p.1 s = .next (faultEntry s (.outOfBounds (.addr a) p.2.length)))

/-- MOV and MOVB to the address in a register (R226, R230). -/
def Obligations.IndirectStores : Prop :=
  ∀ (d x : Reg) (s : State),
    let v := s.readReg d
    let a := ftrunc v
    ∀ p ∈ ([(.movMRI d x, encodeF64 (s.readReg x)),
        (.movbMRI d x, [BitVec.ofNat 8 ((u32 (s.readReg x)).toNat % 256)])] : List (Instr × List Byte)),
      (isFin v = false → exec p.1 s = .next (faultEntry s (.outOfBounds (.value v) 0))) ∧
      (isFin v = true → ¬ (0 ≤ a ∧ a + p.2.length ≤ s.params.memSize) →
        exec p.1 s = .next (faultEntry s (.outOfBounds (.addr a) p.2.length))) ∧
      (isFin v = true → 0 ≤ a → a + p.2.length ≤ s.params.memSize →
        ∃ t, exec p.1 s = .next t ∧ StoreEffect s t a.toNat p.2 (s.pc + 3))

/-- Push for PUSH and CALL: overflow, then a value that is no address, then bounds, and otherwise the slot
written at SP - 8 with SP moved there; CALL pushes the address after itself (R238, R240, R276). That the record of a NaN
or infinite SP holds SP - 8.0, for a NaN the NaN that subtraction produces, is DEDUCED (log 13). -/
def Obligations.PushAndCall : Prop :=
  ∀ (x : Reg) (target : Nat) (s : State),
    let nsp := fsub s.draws s.sp 0x4020000000000000#64
    let a := ftrunc nsp
    ∀ p ∈ ([(.push x, s.readReg x, s.pc + 2), (.call target, ofNat (s.pc + 5), target)] :
        List (Instr × F64 × Nat)),
      (flt nsp 0 = true → exec p.1 s = .next (faultEntry s (.stackOverflow s.pc s.sp))) ∧
      (flt nsp 0 = false → isFin nsp = false →
        exec p.1 s = .next (faultEntry s (.outOfBounds (.value nsp) 0))) ∧
      (flt nsp 0 = false → isFin nsp = true → ¬ (0 ≤ a ∧ a + 8 ≤ s.params.memSize) →
        exec p.1 s = .next (faultEntry s (.outOfBounds (.addr a) 8))) ∧
      (flt nsp 0 = false → isFin nsp = true → 0 ≤ a → a + 8 ≤ s.params.memSize →
        ∃ t, exec p.1 s = .next t ∧ BytesAt t a.toNat (encodeF64 p.2.1) ∧ SameMemOutside s t a.toNat 8 ∧
          t.sp = nsp ∧ SameRegs s t [.sp] ∧ t.flags = s.flags ∧ t.pc = p.2.2 ∧ SameRun s t)

/-- POP: underflow, then a value that is no address, then bounds, and otherwise SP moved up by 8 and then the
destination written, so that POP SP leaves the popped value and POP of a flag slot only moves SP (R238, R241). -/
def Obligations.PopInstruction : Prop :=
  ∀ (d : Reg) (s : State),
    let a := ftrunc s.sp
    let v := decodeF64 ((List.range 8).map fun k => s.mem.get (a.toNat + k))
    (fle (ofNat s.params.memSize) s.sp = true →
      exec (.pop d) s = .next (faultEntry s (.stackUnderflow s.pc s.sp))) ∧
    (fle (ofNat s.params.memSize) s.sp = false → isFin s.sp = false →
      exec (.pop d) s = .next (faultEntry s (.outOfBounds (.value s.sp) 0))) ∧
    (fle (ofNat s.params.memSize) s.sp = false → isFin s.sp = true → ¬ (0 ≤ a ∧ a + 8 ≤ s.params.memSize) →
      exec (.pop d) s = .next (faultEntry s (.outOfBounds (.addr a) 8))) ∧
    (fle (ofNat s.params.memSize) s.sp = false → isFin s.sp = true → 0 ≤ a → a + 8 ≤ s.params.memSize →
      ∃ t, exec (.pop d) s = .next t ∧ (d.isFlag = false → t.readReg d = v) ∧
        (d ≠ .sp → t.sp = fadd s.draws s.sp 0x4020000000000000#64) ∧ SameRegs s t [.sp, d] ∧
        t.flags = s.flags ∧ t.pc = s.pc + 2 ∧ SameMem s t ∧ SameRun s t)

/-- RET: the checks of Pop, then the popped value as an address in 0..2^32-1, and control goes there
(R238, R277). -/
def Obligations.ReturnInstruction : Prop :=
  ∀ s : State,
    let a := ftrunc s.sp
    let v := decodeF64 ((List.range 8).map fun k => s.mem.get (a.toNat + k))
    (fle (ofNat s.params.memSize) s.sp = true →
      exec .ret s = .next (faultEntry s (.stackUnderflow s.pc s.sp))) ∧
    (fle (ofNat s.params.memSize) s.sp = false → isFin s.sp = false →
      exec .ret s = .next (faultEntry s (.outOfBounds (.value s.sp) 0))) ∧
    (fle (ofNat s.params.memSize) s.sp = false → isFin s.sp = true → ¬ (0 ≤ a ∧ a + 8 ≤ s.params.memSize) →
      exec .ret s = .next (faultEntry s (.outOfBounds (.addr a) 8))) ∧
    (fle (ofNat s.params.memSize) s.sp = false → isFin s.sp = true → 0 ≤ a → a + 8 ≤ s.params.memSize →
      (isFin v = false ∨ ftrunc v < 0 ∨ 2 ^ 32 ≤ ftrunc v →
        exec .ret s = .next (faultEntry s (.outOfBounds (.value v) 0))) ∧
      (isFin v = true → 0 ≤ ftrunc v → ftrunc v < 2 ^ 32 →
        ∃ t, exec .ret s = .next t ∧ t.sp = fadd s.draws s.sp 0x4020000000000000#64 ∧ SameRegs s t [.sp] ∧
          t.flags = s.flags ∧ (t.pc : Int) = ftrunc v ∧ SameMem s t ∧ SameRun s t))

/-- A PUSH followed by a POP into another slot gives that slot the pushed value and SP its old value, and changes
no byte of Memory outside the slot, whatever finite SP there was room under (R239). -/
def Obligations.PopUndoesPush : Prop :=
  ∀ (x d : Reg) (s : State), s.params.Legal → isFin s.sp = true → 8 ≤ fVal s.sp → fVal s.sp ≤ s.params.memSize →
    d.isFlag = false → d ≠ .sp →
    ∃ t u, exec (.push x) s = .next t ∧ exec (.pop d) t = .next u ∧ u.sp = s.sp ∧
      u.readReg d = s.readReg x ∧ SameRegs s u [d] ∧ u.flags = s.flags ∧
      SameMemOutside s u (ftrunc s.sp - 8).toNat 8 ∧ SameRun s u

/-- A CALL and then a RET that finds SP and the slot as the CALL left them returns to the instruction after the
CALL, with SP as it was (R276). -/
def Obligations.ReturnComesBackAfterCall : Prop :=
  ∀ (target : Nat) (s t u : State), s.params.Legal → isFin s.sp = true → 8 ≤ fVal s.sp →
    fVal s.sp ≤ s.params.memSize → s.pc + 5 < 2 ^ 32 → exec (.call target) s = .next t →
    u.params = t.params → u.sp = t.sp →
    (∀ k < 8, u.mem.get ((ftrunc t.sp).toNat + k) = t.mem.get ((ftrunc t.sp).toNat + k)) →
    ∃ w, exec .ret u = .next w ∧ w.pc = s.pc + 5 ∧ w.sp = s.sp ∧ w.status = u.status

/-! ### Control flow (43_control_flow) -/

/-- NOP, HLT and JMP; after a HLT the engine takes no further step (R261, R262, R263, R34). -/
def Obligations.NopHaltAndJump : Prop :=
  ∀ (a : Nat) (s : State),
    encode .nop = [0x00] ∧ encode .hlt = [0x01] ∧ encode (.jmp a) = 0x70 :: leBytes 4 a ∧
    (∃ t, exec .nop s = .next t ∧ FlagEffect s t s.flags (s.pc + 1)) ∧
    (∃ t, exec .hlt s = .next t ∧ t.status = .halted ∧ t.pc = s.pc + 1 ∧ SameRegs s t [] ∧
      t.flags = s.flags ∧ SameMem s t ∧ t.trace = s.trace ∧ ∀ u, step t ≠ .next u) ∧
    (∃ t, exec (.jmp a) s = .next t ∧ FlagEffect s t s.flags a)

/-- The conditional jumps: the condition table, the target or the next instruction, and nothing else changed;
exactly one of JG, JL and JZ is taken, whatever the flags (R264 to R275, R278). -/
def Obligations.ConditionalJumps : Prop :=
  ∀ (a : Nat) (s : State),
    (∀ p ∈ ([(0x71, .jz a, s.flags.zero), (0x72, .jnz a, !s.flags.zero),
        (0x73, .jg a, !s.flags.zero && !s.flags.sign), (0x74, .jge a, s.flags.zero || !s.flags.sign),
        (0x75, .jl a, s.flags.sign && !s.flags.zero), (0x76, .jle a, s.flags.zero || s.flags.sign),
        (0x77, .js a, s.flags.sign), (0x78, .jns a, !s.flags.sign), (0x79, .jc a, s.flags.carry),
        (0x7A, .jnc a, !s.flags.carry), (0x7B, .jo a, s.flags.overflow), (0x7C, .jno a, !s.flags.overflow)] :
        List (Nat × Instr × Bool)),
      encode p.2.1 = BitVec.ofNat 8 p.1 :: leBytes 4 a ∧
      ∃ t, exec p.2.1 s = .next t ∧ FlagEffect s t s.flags (if p.2.2 then a else s.pc + 5)) ∧
    (∃ i ∈ [.jg a, .jl a, .jz a], ∀ j ∈ [.jg a, .jl a, .jz a], s.pc + 5 ≠ a →
      ∃ t, exec j s = .next t ∧ (t.pc = a ↔ j = i))

/-! ### Strings and blocks (44_string_memory) -/

/-- str.len, str.cmp, str.chr and str.str on terminated strings: the value written and nothing else changed
(R302, R305, R310, R311). -/
def Obligations.StringQueries : Prop :=
  ∀ (d c : Reg) (a b : Nat) (ta tb : List Byte) (s : State), StringAt s a ta → StringAt s b tb →
    let ch : Byte := BitVec.ofNat 8 ((u32 (s.readReg c)).toNat % 256)
    ∀ p ∈ ([(.strLen d a, ofNat ta.length, 6),
        (.strCmp d a b, ofInt (if ta = tb then 0
          else if ta.map BitVec.toNat < tb.map BitVec.toNat then -1 else 1), 10),
        (.strChr d a c, (if ch = 0 then ofNat ta.length
          else match ta.findIdx? (fun x => x = ch) with
            | some k => ofNat k
            | none => ofInt (-1)), 7),
        (.strStr d a b, (match (List.range (ta.length + 1)).find?
            (fun k => (ta.drop k).take tb.length = tb) with
          | some k => ofNat k
          | none => ofInt (-1)), 10)] : List (Instr × F64 × Nat)),
      ∃ t, exec p.1 s = .next t ∧ RegEffect s t d p.2.1 s.flags (s.pc + p.2.2)

/-- str.cpy and str.cat on terminated strings: the source and a 0 at the destination's start or end, read before
anything is written, and a fault that changes nothing where they do not fit (R300, R303, R304). -/
def Obligations.StringCopyAndConcatenate : Prop :=
  ∀ (d a : Nat) (td ta : List Byte) (s : State), StringAt s a ta →
    (d + ta.length + 1 ≤ s.params.memSize →
      ∃ t, exec (.strCpy d a) s = .next t ∧ StoreEffect s t d (ta ++ [0]) (s.pc + 9)) ∧
    (s.params.memSize < d + ta.length + 1 →
      exec (.strCpy d a) s = .next (faultEntry s (.outOfBounds (.addr d) (ta.length + 1)))) ∧
    (StringAt s d td →
      (d + td.length + ta.length + 1 ≤ s.params.memSize →
        ∃ t, exec (.strCat d a) s = .next t ∧ StoreEffect s t (d + td.length) (ta ++ [0]) (s.pc + 9)) ∧
      (s.params.memSize < d + td.length + ta.length + 1 →
        exec (.strCat d a) s =
          .next (faultEntry s (.outOfBounds (.addr (d + td.length : Nat)) (ta.length + 1)))))

/-- str.ncpy writes exactly the counted bytes, padded with zeros; str.ncat appends at most the counted bytes and a
0 (R306, R307). -/
def Obligations.BoundedCopyAndConcatenate : Prop :=
  ∀ (d a : Nat) (n : Reg) (td ta : List Byte) (s : State), isFin (s.readReg n) = true →
    0 ≤ ftrunc (s.readReg n) →
    let k := (ftrunc (s.readReg n)).toNat
    BoundedStringAt s a k ta →
    (d + k ≤ s.params.memSize →
      ∃ t, exec (.strNcpy d a n) s = .next t ∧
        StoreEffect s t d (ta ++ List.replicate (k - ta.length) 0) (s.pc + 10)) ∧
    (s.params.memSize < d + k → exec (.strNcpy d a n) s = .next (faultEntry s (.outOfBounds (.addr d) k))) ∧
    (StringAt s d td →
      (d + td.length + ta.length + 1 ≤ s.params.memSize →
        ∃ t, exec (.strNcat d a n) s = .next t ∧ StoreEffect s t (d + td.length) (ta ++ [0]) (s.pc + 10)) ∧
      (s.params.memSize < d + td.length + ta.length + 1 →
        exec (.strNcat d a n) s =
          .next (faultEntry s (.outOfBounds (.addr (d + td.length : Nat)) (ta.length + 1)))))

/-- str.upper and str.lower convert the ASCII letters of a terminated string in place (R308, R309). -/
def Obligations.CaseConversion : Prop :=
  ∀ (a : Nat) (ta : List Byte) (s : State), StringAt s a ta →
    ∀ p ∈ ([(.strUpper a, fun b : Byte =>
          if 0x61 ≤ b.toNat ∧ b.toNat ≤ 0x7A then BitVec.ofNat 8 (b.toNat - 0x20) else b),
        (.strLower a, fun b : Byte =>
          if 0x41 ≤ b.toNat ∧ b.toNat ≤ 0x5A then BitVec.ofNat 8 (b.toNat + 0x20) else b)] :
        List (Instr × (Byte → Byte))),
      ∃ t, exec p.1 s = .next t ∧ StoreEffect s t a (ta.map p.2) (s.pc + 5)

/-- mem.cpy, mem.set and mem.clr with a good count: the bytes written, every other byte unchanged, the source of a
copy read first, and faults that change nothing (R312, R313, R314). -/
def Obligations.BlockOperations : Prop :=
  ∀ (d a : Nat) (v n : Reg) (s : State), isFin (s.readReg n) = true → 0 ≤ ftrunc (s.readReg n) →
    let k := (ftrunc (s.readReg n)).toNat
    (s.params.memSize < a + k → exec (.memCpy d a n) s = .next (faultEntry s (.outOfBounds (.addr a) k))) ∧
    (a + k ≤ s.params.memSize → s.params.memSize < d + k →
      exec (.memCpy d a n) s = .next (faultEntry s (.outOfBounds (.addr d) k))) ∧
    (s.params.memSize < d + k →
      exec (.memSet d v n) s = .next (faultEntry s (.outOfBounds (.addr d) k)) ∧
      exec (.memClr d n) s = .next (faultEntry s (.outOfBounds (.addr d) k))) ∧
    (a + k ≤ s.params.memSize → d + k ≤ s.params.memSize →
      ∃ t, exec (.memCpy d a n) s = .next t ∧
        StoreEffect s t d ((List.range k).map fun j => s.mem.get (a + j)) (s.pc + 10)) ∧
    (d + k ≤ s.params.memSize →
      (∃ t, exec (.memSet d v n) s = .next t ∧
        StoreEffect s t d (List.replicate k (BitVec.ofNat 8 ((u32 (s.readReg v)).toNat % 256))) (s.pc + 7)) ∧
      (∃ t, exec (.memClr d n) s = .next t ∧ StoreEffect s t d (List.replicate k 0) (s.pc + 6)))

/-- Strings without a 0 byte before the end of Memory, wherever an instruction reads one, and counts that are negative, a
NaN or an infinity, fault the instruction and change nothing. The source of str.ncpy and str.ncat faults where its limit
reaches past the end, and with a count of 0 where its address is past the end (R30, R301, R304, R305, R307, R311). That a
scan from beyond the end faults at its first byte, and that a read of no bytes is bounds-checked, is DEDUCED (log 14). -/
def Obligations.UnterminatedStringsAndBadCountsFault : Prop :=
  (∀ (d c : Reg) (a b : Nat) (s : State), (∀ x, a ≤ x → x < s.params.memSize → s.mem.get x ≠ 0) →
    ∀ i ∈ ([.strLen d a, .strCpy b a, .strCat a b, .strCmp d a b, .strUpper a, .strLower a, .strChr d a c,
        .strStr d a b] : List Instr),
      exec i s = .next (faultEntry s (.outOfBounds (.addr (max a s.params.memSize : Nat)) 1))) ∧
  (∀ (d : Reg) (a b : Nat) (ta : List Byte) (s : State), StringAt s a ta →
    (∀ x, b ≤ x → x < s.params.memSize → s.mem.get x ≠ 0) →
    ∀ i ∈ ([.strCat a b, .strCmp d a b, .strStr d a b] : List Instr),
      exec i s = .next (faultEntry s (.outOfBounds (.addr (max b s.params.memSize : Nat)) 1))) ∧
  (∀ (d a : Nat) (n : Reg) (s : State), isFin (s.readReg n) = true → 0 ≤ ftrunc (s.readReg n) →
    (∀ x, d ≤ x → x < s.params.memSize → s.mem.get x ≠ 0) →
      exec (.strNcat d a n) s = .next (faultEntry s (.outOfBounds (.addr (max d s.params.memSize : Nat)) 1))) ∧
  (∀ (d a : Nat) (n : Reg) (td : List Byte) (s : State), (∀ x, a ≤ x → x < s.params.memSize → s.mem.get x ≠ 0) →
    isFin (s.readReg n) = true → 0 < ftrunc (s.readReg n) →
    s.params.memSize < a + (ftrunc (s.readReg n)).toNat →
      exec (.strNcpy d a n) s =
        .next (faultEntry s (.outOfBounds (.addr (max a s.params.memSize : Nat)) 1)) ∧
      (StringAt s d td →
        exec (.strNcat d a n) s =
          .next (faultEntry s (.outOfBounds (.addr (max a s.params.memSize : Nat)) 1)))) ∧
  (∀ (d a : Nat) (n : Reg) (td : List Byte) (s : State), isFin (s.readReg n) = true → ftrunc (s.readReg n) = 0 →
    s.params.memSize < a →
      exec (.strNcpy d a n) s = .next (faultEntry s (.outOfBounds (.addr a) 0)) ∧
      (StringAt s d td → exec (.strNcat d a n) s = .next (faultEntry s (.outOfBounds (.addr a) 0)))) ∧
  (∀ (d a : Nat) (v n : Reg) (s : State), (isFin (s.readReg n) = false ∨ ftrunc (s.readReg n) < 0) →
    ∀ i ∈ ([.strNcpy d a n, .strNcat d a n, .memCpy d a n, .memSet d v n, .memClr d n] : List Instr),
      exec i s = .next (faultEntry s (.outOfBounds (.value (s.readReg n)) 0)))

/-! ### Host I/O (45_host_io) -/

/-- The output requests: one event with the values R0 and R1 give, and nothing else changed
(R344, R346, R347, R349 to R352, R355, R356). That the requests are a list in State is the model's choice (log 10). -/
def Obligations.OutputRequests : Prop :=
  ∀ s : State,
    let w0 := u32 (s.readReg (.r 0))
    ∀ p ∈ ([(0xA2, .sysPrintChar, .putChar (BitVec.ofNat 8 (w0.toNat % 256))), (0xA4, .sysNewline, .newline),
        (0xA5, .sysSetCursor, .setCursor w0 (u32 (s.readReg (.r 1)))), (0xA7, .sysSetColor, .setColor w0),
        (0xA8, .sysResetColor, .resetColor), (0xA9, .sysPrintNum, .putNum (s.readReg (.r 0))),
        (0xAA, .sysPrintHex, .putHex w0), (0xAD, .sysClearScreen, .clearScreen), (0xAE, .sysSleep, .sleep w0)] :
        List (Nat × Instr × HostEvent)),
      encode p.2.1 = [BitVec.ofNat 8 p.1] ∧
      ∃ t, exec p.2.1 s = .next t ∧ OutputEffect s t p.2.2 (s.pc + 1)

/-- SYS_PRINT_STR prints the string R0 addresses; a value that is no address, a negative address, and a string with
no 0 byte before the end of Memory fault and make no request (R341, R345). That a scan from an address at or past the
end of Memory faults at that address is DEDUCED (log 14); that the requests made are a list in State is the model's
choice (log 10). -/
def Obligations.PrintString : Prop :=
  ∀ (t : List Byte) (s : State),
    let v := s.readReg (.r 0)
    (isFin v = false → exec .sysPrintStr s = .next (faultEntry s (.outOfBounds (.value v) 0))) ∧
    (isFin v = true → ftrunc v < 0 →
      exec .sysPrintStr s = .next (faultEntry s (.outOfBounds (.addr (ftrunc v)) 1))) ∧
    (isFin v = true → 0 ≤ ftrunc v →
      (∀ x, (ftrunc v).toNat ≤ x → x < s.params.memSize → s.mem.get x ≠ 0) →
      exec .sysPrintStr s =
        .next (faultEntry s (.outOfBounds (.addr (max (ftrunc v).toNat s.params.memSize : Nat)) 1))) ∧
    (isFin v = true → 0 ≤ ftrunc v → StringAt s (ftrunc v).toNat t →
      ∃ u, exec .sysPrintStr s = .next u ∧ OutputEffect s u (.putStr t) (s.pc + 1))

/-- SYS_GETCH and SYS_KBHIT write some byte's value to R0, SYS_GET_CURSOR some two 32-bit values to R0 and R1, and
SYS_VERSION one value that is the same for every state; nothing else changes (R342, R343, R348, R357). That the Host
always answers within the step is the model's choice (log 5); the version is a parameter (log 7). -/
def Obligations.InputRequestsAndVersion : Prop :=
  (∀ s : State, ∀ i ∈ ([.sysGetch, .sysKbhit] : List Instr),
    ∃ (t : State) (b : Byte), exec i s = .next t ∧ RegEffect s t (.r 0) (ofNat b.toNat) s.flags (s.pc + 1)) ∧
  (∀ s : State, ∃ (t : State) (c r : Word), exec .sysGetCursor s = .next t ∧
    t.readReg (.r 0) = ofNat c.toNat ∧ t.readReg (.r 1) = ofNat r.toNat ∧ SameRegs s t [.r 0, .r 1] ∧
    t.flags = s.flags ∧ t.pc = s.pc + 1 ∧ SameMem s t ∧ SameRun s t) ∧
  (∃ v : F64, ∀ s : State, ∃ t, exec .sysVersion s = .next t ∧ RegEffect s t (.r 0) v s.flags (s.pc + 1))

/-- SYS_NUM_TO_STR stores the text of R0, a function of it alone, non-empty and printable, and a 0 at the address in
R1, all of it where it fits and otherwise a fault and nothing; it makes no request (R353). -/
def Obligations.NumberToString : Prop :=
  ∃ fmt : F64 → List Byte, (∀ v, fmt v ≠ [] ∧ ∀ b ∈ fmt v, 0x20 ≤ b.toNat ∧ b.toNat ≤ 0x7E) ∧
    ∀ s : State,
      let v := s.readReg (.r 1)
      let a := ftrunc v
      let txt := fmt (s.readReg (.r 0)) ++ [0]
      (isFin v = false → exec .sysNumToStr s = .next (faultEntry s (.outOfBounds (.value v) 0))) ∧
      (isFin v = true →
        if 0 ≤ a ∧ a + txt.length ≤ s.params.memSize then
          ∃ t, exec .sysNumToStr s = .next t ∧ StoreEffect s t a.toNat txt (s.pc + 1)
        else exec .sysNumToStr s = .next (faultEntry s (.outOfBounds (.addr a) txt.length)))

/-- SYS_READ_LINE: the checks before the request, nothing read for a capacity of 0, and otherwise some line of at
most cap - 1 bytes without a 0, stored with its terminator inside the buffer, its length in R2 (R340, R354). That the Host
always answers within the step (log 5) and that the line excludes no byte but 0 (log 6) are the model's choices. -/
def Obligations.ReadLine : Prop :=
  ∀ s : State,
    let v := s.readReg (.r 0)
    let w := s.readReg (.r 1)
    let a := ftrunc v
    let cap := (ftrunc w).toNat
    (isFin v = false → exec .sysReadLine s = .next (faultEntry s (.outOfBounds (.value v) 0))) ∧
    (isFin v = true → (isFin w = false ∨ ftrunc w < 0) →
      exec .sysReadLine s = .next (faultEntry s (.outOfBounds (.value w) 0))) ∧
    (isFin v = true → isFin w = true → 0 ≤ ftrunc w →
      (¬ (0 ≤ a ∧ a + cap ≤ s.params.memSize) →
        exec .sysReadLine s = .next (faultEntry s (.outOfBounds (.addr a) cap))) ∧
      (0 ≤ a → a + cap ≤ s.params.memSize → cap = 0 →
        ∃ t, exec .sysReadLine s = .next t ∧ RegEffect s t (.r 2) 0 s.flags (s.pc + 1)) ∧
      (0 ≤ a → a + cap ≤ s.params.memSize → 0 < cap →
        ∃ (t : State) (line : List Byte), line.length + 1 ≤ cap ∧ (∀ b ∈ line, b ≠ 0) ∧
          exec .sysReadLine s = .next t ∧ BytesAt t a.toNat (line ++ [0]) ∧
          SameMemOutside s t a.toNat (line.length + 1) ∧ t.readReg (.r 2) = ofNat line.length ∧
          SameRegs s t [.r 2] ∧ t.flags = s.flags ∧ t.pc = s.pc + 1 ∧ SameRun s t))

/-! ### Memory (20_memory) -/

/-- The bounds check and the two operations of the memory interface, all or nothing (R9, R51). -/
def Obligations.BoundsCheckedAccess : Prop :=
  ∀ (s : State) (a : Int) (n : Nat) (bs : List Byte), bs.length = n →
    (0 ≤ a ∧ a + n ≤ s.params.memSize →
      memRead s a n = .ok ((List.range n).map fun k => s.mem.get (a.toNat + k)) ∧
      ∃ t, memWrite s a n bs = .ok t ∧ BytesAt t a.toNat bs ∧ SameMemOutside s t a.toNat n ∧
        t = { s with mem := t.mem }) ∧
    (¬ (0 ≤ a ∧ a + n ≤ s.params.memSize) →
      memRead s a n = .error (.outOfBounds (.addr a) n) ∧ memWrite s a n bs = .error (.outOfBounds (.addr a) n))

/-- The image of a binary64: eight bytes, least significant first, and every eight bytes are the image of one
(R53, R54). -/
def Obligations.BinaryImages : Prop :=
  (∀ v : F64, (encodeF64 v).length = 8 ∧ decodeF64 (encodeF64 v) = v ∧
    ∀ k, ∀ h : k < (encodeF64 v).length, (encodeF64 v)[k].toNat = v.toNat / 2 ^ (8 * k) % 256) ∧
  (∀ bs : List Byte, bs.length = 8 → encodeF64 (decodeF64 bs) = bs)

/-- The byte a MOVB stores over the next opcode is the opcode the next step fetches: an unassigned one faults, and one
that completes an instruction with the bytes after it is executed, a HLT for one (R64). -/
def Obligations.StoresAreSeenByTheNextFetch : Prop :=
  ∀ (x : Reg) (s : State), s.status = .running → s.pc + 6 < s.params.memSize →
    let b : Byte := BitVec.ofNat 8 ((u32 (s.readReg x)).toNat % 256)
    ∃ t, exec (.movbMR (s.pc + 6) x) s = .next t ∧
      (formOf b.toNat = none → step t = .next (faultEntry t (.invalidOpcode (s.pc + 6) (.unknownOpcode b)))) ∧
      (∀ (n : Nat) (i : Instr) (rest : List Byte), s.pc + 7 + n ≤ s.params.memSize →
        decode (b :: s.mem.readBytes (s.pc + 7) n) = .ok (i, rest) → step t = exec i t) ∧
      (b = 0x01 → ∃ u, step t = .next u ∧ u.status = .halted ∧ u.pc = s.pc + 7)

/-! ### Whole-machine rules -/

/-- Every instruction is legal in every state: `exec` answers a next state, never a refusal and never a stop. A running
engine always takes a step; a stopped one takes none (R34, R388). That a step always ends rests on a Host that always
answers (log 5), and that a step asked of a stopped engine answers Outcome.fault is the model's choice (log 8). -/
def Obligations.RunningEngineAlwaysSteps : Prop :=
  (∀ (i : Instr) (s : State), ∃ t, exec i s = .next t) ∧
  ∀ s : State,
    (s.status = .halted → step s = .fault .engineHalted) ∧
    (∀ f, s.status = .faulted f → step s = .fault (.engineFaulted f)) ∧
    (s.status = .running → ∃ t, step s = .next t)

/-- Fault entry: a step of a running engine that ends Faulted has changed the status alone, the PC its record
names is the PC, and the engine takes no further step (R381, R384). -/
def Obligations.FaultsChangeTheStatusAlone : Prop :=
  ∀ (s t : State) (f : FaultRecord), step s = .next t → t.status = .faulted f →
    t = faultEntry s f ∧ (∀ p, f.pc? = some p → p = s.pc) ∧ ∀ u, step t ≠ .next u

/-- The only step that ends Halted runs the HLT opcode (R262, R392). -/
def Obligations.OnlyHltHalts : Prop :=
  ∀ s t : State, step s = .next t → t.status = .halted →
    s.mem.get s.pc = 0x01 ∧ s.pc < s.params.memSize ∧ t = { s with pc := s.pc + 1, status := .halted }

/-- An instruction outside the float and integer families leaves all four flags unchanged, and one that R63 lists no
write for changes no byte of Memory (R32, R63). -/
def Obligations.OnlyListedInstructionsWriteFlagsAndMemory : Prop :=
  ∀ (i : Instr) (s t : State), exec i s = .next t →
    (¬ (0x30 ≤ i.opcode ∧ i.opcode ≤ 0x46) → ¬ (0x50 ≤ i.opcode ∧ i.opcode ≤ 0x62) → t.flags = s.flags) ∧
    (i.opcode ∉ [0x13, 0x15, 0x17, 0x19, 0x20, 0x7D, 0x81, 0x82, 0x84, 0x85, 0x86, 0x87, 0x8A, 0x8B, 0x8C, 0xAB,
      0xAC] → SameMem s t)

/-- Outside the control transfers of 0x70..0x7E, an instruction that does not fault moves the PC past its own
encoding (R33, R83). -/
def Obligations.SequentialInstructionsAdvanceByTheirLength : Prop :=
  ∀ (i : Instr) (s t : State), exec i s = .next t → t.Sound →
    ¬ (0x70 ≤ i.opcode ∧ i.opcode ≤ 0x7E) → t.pc = s.pc + (encode i).length

/-- The invariant of a run is kept by every step, and so are the parameters: a configuration R6 admits, canonical Memory,
PC in 0..2^32, the PC a fault names, legal requests (R6, R33, R35, R340, R381). That the parameters stand in State is the
model's choice (log 1). -/
def Obligations.StepKeepsInvariant : Prop :=
  ∀ s t : State, s.Inv → step s = .next t → t.Inv ∧ t.params = s.params

/-- The invariant holds after reset and after every accepted load of every configuration R6 admits; State.reset is the
load of the empty image in the reference configuration (the model's choice, logs 1 and 9). -/
def Obligations.InvariantHoldsAtRunStart : Prop :=
  State.reset.Inv ∧ State.load Params.reference [] = some State.reset ∧
  ∀ (p : Params) (rom : List Byte) (s : State), p.Legal → State.load p rom = some s → s.Inv

/-- Run start, whatever the configuration: an image larger than Memory is refused; any other is at address 0 of zeroed
Memory, with every register, flag, the PC and the status at its reset value (R38, R420). -/
def Obligations.RunStartState : Prop :=
  ∀ (p : Params) (rom : List Byte),
    (p.memSize < rom.length → State.load p rom = none) ∧
    (rom.length ≤ p.memSize →
      ∃ s, State.load p rom = some s ∧ s.params = p ∧ (∀ a, s.mem.get a = rom.getD a 0) ∧
        (∀ n, s.readReg (.r n) = 0) ∧ (∀ n, s.readReg (.f n) = 0) ∧ s.sp = ofNat p.memSize ∧
        s.flags = { zero := false, sign := false, carry := false, overflow := false } ∧
        s.pc = 0 ∧ s.status = .running)

/-! ### Infinities and parameters -/

/-- Addition, subtraction, multiplication, division and remainder with an infinite operand where they are no invalid
operation, and a finite non-zero value over a zero (R11, R128, R130; what these rules leave to IEEE 754 is PRESUMED,
log 12). -/
def Obligations.InfiniteOperands : Prop :=
  ∀ (k : Nat) (a b : F64),
    let inf : Bool → F64 := fun neg => if neg then 0xFFF0000000000000#64 else 0x7FF0000000000000#64
    let zero : Bool → F64 := fun neg => if neg then 0x8000000000000000#64 else 0
    (isInf a = true → isFin b = true →
      fadd k a b = a ∧ fadd k b a = a ∧ fsub k a b = a ∧ fsub k b a = inf (!fSign a) ∧
      fdiv k a b = inf (fSign a != fSign b) ∧ fdiv k b a = zero (fSign b != fSign a) ∧ fmod k b a = b ∧
      (fVal b ≠ 0 →
        fmul k a b = inf (fSign a != fSign b) ∧ fmul k b a = inf (fSign b != fSign a))) ∧
    (isInf a = true → isInf b = true →
      fmul k a b = inf (fSign a != fSign b) ∧ (fSign a = fSign b → fadd k a b = a) ∧
      (fSign a ≠ fSign b → fsub k a b = a)) ∧
    (isFin a = true → isFin b = true → fVal a ≠ 0 → fVal b = 0 → fdiv k a b = inf (fSign a != fSign b))

/-- The parameters at reset are those of the reference configuration: 16 MiB, and for EPS the one pattern no finite
binary64 is nearer to 1/10^9 than (R6). That State.reset takes the reference configuration is the model's choice
(log 1). -/
def Obligations.ReferenceParameters : Prop :=
  State.reset.params.memSize = 16777216 ∧ State.reset.params.eps = 0x3E112E0BE826D695#64 ∧
  isFin State.reset.params.eps = true ∧ State.reset.sp = 0x4170000000000000#64 ∧
  ∀ c : F64, isFin c = true →
    |fVal State.reset.params.eps - 1 / 10 ^ 9| ≤ |fVal c - 1 / 10 ^ 9|
end

