-- ==== Sys2Proof/Laws/Decode.lean ====
section
/-! SUPPORT. Byte order and instruction fields: each field reads back what it was written from, and a field that
was read is the one that would be written (R53, R54, R81). -/

namespace Sys2Proof

/-! ### Byte order -/

@[simp] theorem leBytes_length (n v : Nat) : (leBytes n v).length = n := by
  induction n generalizing v with
  | zero => rfl
  | succ n ih => simp [leBytes, ih]

/-- The number an image stands for is the one it was made from, modulo its width (R53). -/
theorem leNat_leBytes (n v : Nat) : leNat (leBytes n v) = v % 256 ^ n := by
  induction n generalizing v with
  | zero => simp [leBytes, leNat, Nat.mod_one]
  | succ n ih =>
    rw [leBytes, leNat, ih, BitVec.toNat_ofNat, show 256 ^ (n + 1) = 256 * 256 ^ n from pow_succ' 256 n, Nat.mod_mul]

theorem leNat_lt (bs : List Byte) : leNat bs < 256 ^ bs.length := by
  induction bs with
  | nil => simp [leNat]
  | cons b bs ih =>
    have := b.isLt
    rw [leNat, List.length_cons, pow_succ']
    omega

/-- A byte string is the image of the number it stands for (R53). -/
theorem leBytes_leNat (bs : List Byte) : leBytes bs.length (leNat bs) = bs := by
  induction bs with
  | nil => rfl
  | cons b bs ih =>
    have hb := b.isLt
    rw [List.length_cons, leBytes, leNat]
    congr 1
    · apply BitVec.eq_of_toNat_eq
      rw [BitVec.toNat_ofNat]
      omega
    · rw [show (b.toNat + 256 * leNat bs) / 256 = leNat bs by omega, ih]

/-! ### Register fields (R21, R89) -/

theorem Reg.index_lt (x : Reg) : x.index ≤ 40 := by
  cases x <;> simp only [Reg.index] <;> omega

@[simp] theorem Reg.ofIndex_index (x : Reg) : Reg.ofIndex x.index = some x := by
  rcases x with n | _ | n | _ | _ | _ | _
  · simp [Reg.ofIndex, Reg.index]
  · rfl
  · have := n.isLt
    have h1 : ¬ (33 + n.val < 32) := by omega
    have h2 : ¬ (33 + n.val = 32) := by omega
    simp [Reg.ofIndex, Reg.index, h1, h2]
  all_goals rfl

theorem Reg.index_of_ofIndex {k : Nat} {x : Reg} (h : Reg.ofIndex k = some x) : x.index = k := by
  unfold Reg.ofIndex at h
  split at h
  · cases h; rfl
  split at h
  · cases h; simp_all [Reg.index]
  split at h
  · cases h; simp only [Reg.index]; omega
  repeat' (split at h; · cases h; simp_all [Reg.index])
  cases h

theorem Reg.ofIndex_eq_none_iff (k : Nat) : Reg.ofIndex k = none ↔ 40 < k := by
  constructor
  · intro h
    by_contra hk
    interval_cases k <;> simp [Reg.ofIndex] at h
  · intro hk
    have h1 : ¬ k < 32 := by omega
    have h2 : ¬ k - 33 < 4 := by omega
    simp only [Reg.ofIndex, h1, h2, dite_false]
    rw [if_neg (by omega), if_neg (by omega), if_neg (by omega), if_neg (by omega), if_neg (by omega)]

@[simp] theorem takeReg_regField (x : Reg) (rest : List Byte) :
    takeReg (regField x ++ rest) = .ok (x, rest) := by
  have h := x.index_lt
  have : (BitVec.ofNat 8 x.index).toNat = x.index := by
    rw [BitVec.toNat_ofNat]; omega
  simp [regField, takeReg, this]

theorem takeReg_ok {bs rest : List Byte} {x : Reg} (h : takeReg bs = .ok (x, rest)) :
    bs = regField x ++ rest := by
  cases bs with
  | nil => cases h
  | cons b bs =>
    unfold takeReg at h
    dsimp only at h
    split at h
    · next y hy =>
      cases h
      simp [regField, Reg.index_of_ofIndex hy]
    · cases h

theorem takeReg_error {b : Byte} (bs : List Byte) (h : 40 < b.toNat) :
    takeReg (b :: bs) = .error (.badRegister b) := by
  simp [takeReg, (Reg.ofIndex_eq_none_iff _).2 h]

/-! ### Address, immediate and binary64 fields (R81) -/

theorem takeNat_leBytes {n v : Nat} (h : v < 256 ^ n) (rest : List Byte) :
    takeNat n (leBytes n v ++ rest) = .ok (v, rest) := by
  simp [takeNat, leNat_leBytes, Nat.mod_eq_of_lt h]

theorem takeNat_ok {n v : Nat} {bs rest : List Byte} (h : takeNat n bs = .ok (v, rest)) :
    bs = leBytes n v ++ rest ∧ v < 256 ^ n := by
  unfold takeNat at h
  split at h
  · cases h
  · next hl =>
    cases h
    have hl' : (bs.take n).length = n := by simp; omega
    have h1 := leBytes_leNat (bs.take n)
    have h2 := leNat_lt (bs.take n)
    rw [hl'] at h1 h2
    exact ⟨by rw [h1, List.take_append_drop], h2⟩

theorem takeAddr_addrField {a : Addr} (h : a < 2 ^ 32) (rest : List Byte) :
    takeAddr (addrField a ++ rest) = .ok (a, rest) := takeNat_leBytes (by simpa using h) rest

theorem takeAddr_ok {bs rest : List Byte} {a : Addr} (h : takeAddr bs = .ok (a, rest)) :
    bs = addrField a ++ rest ∧ a < 2 ^ 32 := by
  exact ⟨(takeNat_ok h).1, by simpa using (takeNat_ok h).2⟩

@[simp] theorem takeImm_immField (v : Word) (rest : List Byte) :
    takeImm (immField v ++ rest) = .ok (v, rest) := by
  simp only [takeImm, immField, takeNat_leBytes (show v.toNat < 256 ^ 4 by simpa using v.isLt)]
  simp [pure, Except.pure, bind, Except.bind]

theorem takeImm_ok {bs rest : List Byte} {v : Word} (h : takeImm bs = .ok (v, rest)) :
    bs = immField v ++ rest := by
  unfold takeImm at h
  cases h' : takeNat 4 bs with
  | error e => rw [h'] at h; cases h
  | ok p =>
    obtain ⟨n, bs'⟩ := p
    rw [h'] at h
    cases h
    obtain ⟨h1, h2⟩ := takeNat_ok h'
    rw [h1, immField, BitVec.toNat_ofNat, Nat.mod_eq_of_lt (by simpa using h2)]

@[simp] theorem takeF64_encodeF64 (v : F64) (rest : List Byte) :
    takeF64 (encodeF64 v ++ rest) = .ok (v, rest) := by
  simp only [takeF64, encodeF64, takeNat_leBytes (show v.toNat < 256 ^ 8 by simpa using v.isLt)]
  simp [pure, Except.pure, bind, Except.bind]

theorem takeF64_ok {bs rest : List Byte} {v : F64} (h : takeF64 bs = .ok (v, rest)) :
    bs = encodeF64 v ++ rest := by
  unfold takeF64 at h
  cases h' : takeNat 8 bs with
  | error e => rw [h'] at h; cases h
  | ok p =>
    obtain ⟨n, bs'⟩ := p
    rw [h'] at h
    cases h
    obtain ⟨h1, h2⟩ := takeNat_ok h'
    rw [h1, encodeF64, BitVec.toNat_ofNat, Nat.mod_eq_of_lt (by simpa using h2)]

@[simp] theorem encodeF64_length (v : F64) : (encodeF64 v).length = 8 := leBytes_length 8 _

/-! ### Whole instructions (R82, R88) -/

/-- A decoder computation that answers a value: each part answered one. -/
theorem Except.bind_ok_elim {α β : Type} {x : Except DecodeError α} {g : α → Except DecodeError β} {b : β}
    (h : (x >>= g) = .ok b) : ∃ a, x = .ok a ∧ g a = .ok b := by
  cases x with
  | ok a => exact ⟨a, rfl, h⟩
  | error e => cases h

/-- With the opcode assigned and the whole extent there, decoding is reading the fields. -/
theorem decode_eq_parse {op : Byte} {rest : List Byte} {f : Form} (h : formOf op.toNat = some f)
    (hl : f.shape.length ≤ rest.length + 1) : decode (op :: rest) = f.parse rest := by
  unfold decode
  dsimp only
  rw [h]
  dsimp only
  rw [if_neg (by omega)]

/-- Bytes that decode begin with an assigned opcode and hold its whole extent. -/
theorem decode_ok {bs rest : List Byte} {i : Instr} (h : decode bs = .ok (i, rest)) :
    ∃ op fields f, bs = op :: fields ∧ formOf op.toNat = some f ∧ f.shape.length ≤ fields.length + 1 ∧
      f.parse fields = .ok (i, rest) := by
  cases bs with
  | nil => cases h
  | cons op fields =>
    unfold decode at h
    dsimp only at h
    split at h
    · cases h
    · next f hf =>
      split at h
      · cases h
      · next hl => exact ⟨op, fields, f, rfl, hf, by omega, h⟩

/-- The bytes a form reads are the fields of the instruction it makes, in their order (R82). -/
theorem Form.parse_ok {f : Form} {bs rest : List Byte} {i : Instr} (h : f.parse bs = .ok (i, rest)) :
    match f with
    | .n j => i = j ∧ bs = rest
    | .r k => ∃ x, i = k x ∧ bs = regField x ++ rest
    | .rr k => ∃ x y, i = k x y ∧ bs = regField x ++ (regField y ++ rest)
    | .ri k => ∃ x v, i = k x v ∧ bs = regField x ++ (immField v ++ rest)
    | .rf k => ∃ x v, i = k x v ∧ bs = regField x ++ (encodeF64 v ++ rest)
    | .ra k => ∃ x v, i = k x v ∧ v < 2 ^ 32 ∧ bs = regField x ++ (addrField v ++ rest)
    | .ar k => ∃ v x, i = k v x ∧ v < 2 ^ 32 ∧ bs = addrField v ++ (regField x ++ rest)
    | .a k => ∃ v, i = k v ∧ v < 2 ^ 32 ∧ bs = addrField v ++ rest
    | .aa k => ∃ v w, i = k v w ∧ v < 2 ^ 32 ∧ w < 2 ^ 32 ∧ bs = addrField v ++ (addrField w ++ rest)
    | .raa k => ∃ x v w, i = k x v w ∧ v < 2 ^ 32 ∧ w < 2 ^ 32 ∧ bs = regField x ++ (addrField v ++ (addrField w ++ rest))
    | .aar k => ∃ v w x, i = k v w x ∧ v < 2 ^ 32 ∧ w < 2 ^ 32 ∧ bs = addrField v ++ (addrField w ++ (regField x ++ rest))
    | .rar k => ∃ x v y, i = k x v y ∧ v < 2 ^ 32 ∧ bs = regField x ++ (addrField v ++ (regField y ++ rest))
    | .arr k => ∃ v x y, i = k v x y ∧ v < 2 ^ 32 ∧ bs = addrField v ++ (regField x ++ (regField y ++ rest)) := by
  cases f <;> simp only [Form.parse] at h
  case n => cases h; exact ⟨rfl, rfl⟩
  case r =>
    obtain ⟨⟨x, b1⟩, h1, h⟩ := Except.bind_ok_elim h
    cases h
    exact ⟨x, rfl, (takeReg_ok h1)⟩
  case rr =>
    obtain ⟨⟨x, b1⟩, h1, h⟩ := Except.bind_ok_elim h
    obtain ⟨⟨y, b2⟩, h2, h⟩ := Except.bind_ok_elim h
    cases h
    exact ⟨x, y, rfl, ((takeReg_ok h1).trans (congrArg _ (takeReg_ok h2)))⟩
  case ri =>
    obtain ⟨⟨x, b1⟩, h1, h⟩ := Except.bind_ok_elim h
    obtain ⟨⟨y, b2⟩, h2, h⟩ := Except.bind_ok_elim h
    cases h
    exact ⟨x, y, rfl, ((takeReg_ok h1).trans (congrArg _ (takeImm_ok h2)))⟩
  case rf =>
    obtain ⟨⟨x, b1⟩, h1, h⟩ := Except.bind_ok_elim h
    obtain ⟨⟨y, b2⟩, h2, h⟩ := Except.bind_ok_elim h
    cases h
    exact ⟨x, y, rfl, ((takeReg_ok h1).trans (congrArg _ (takeF64_ok h2)))⟩
  case ra =>
    obtain ⟨⟨x, b1⟩, h1, h⟩ := Except.bind_ok_elim h
    obtain ⟨⟨y, b2⟩, h2, h⟩ := Except.bind_ok_elim h
    cases h
    exact ⟨x, y, rfl, (takeAddr_ok h2).2, ((takeReg_ok h1).trans (congrArg _ (takeAddr_ok h2).1))⟩
  case ar =>
    obtain ⟨⟨x, b1⟩, h1, h⟩ := Except.bind_ok_elim h
    obtain ⟨⟨y, b2⟩, h2, h⟩ := Except.bind_ok_elim h
    cases h
    exact ⟨x, y, rfl, (takeAddr_ok h1).2, ((takeAddr_ok h1).1.trans (congrArg _ (takeReg_ok h2)))⟩
  case a =>
    obtain ⟨⟨x, b1⟩, h1, h⟩ := Except.bind_ok_elim h
    cases h
    exact ⟨x, rfl, (takeAddr_ok h1).2, (takeAddr_ok h1).1⟩
  case aa =>
    obtain ⟨⟨x, b1⟩, h1, h⟩ := Except.bind_ok_elim h
    obtain ⟨⟨y, b2⟩, h2, h⟩ := Except.bind_ok_elim h
    cases h
    exact ⟨x, y, rfl, (takeAddr_ok h1).2, (takeAddr_ok h2).2, ((takeAddr_ok h1).1.trans (congrArg _ (takeAddr_ok h2).1))⟩
  case raa =>
    obtain ⟨⟨x, b1⟩, h1, h⟩ := Except.bind_ok_elim h
    obtain ⟨⟨y, b2⟩, h2, h⟩ := Except.bind_ok_elim h
    obtain ⟨⟨z, b3⟩, h3, h⟩ := Except.bind_ok_elim h
    cases h
    exact ⟨x, y, z, rfl, (takeAddr_ok h2).2, (takeAddr_ok h3).2, ((takeReg_ok h1).trans (congrArg _ ((takeAddr_ok h2).1.trans (congrArg _ (takeAddr_ok h3).1))))⟩
  case aar =>
    obtain ⟨⟨x, b1⟩, h1, h⟩ := Except.bind_ok_elim h
    obtain ⟨⟨y, b2⟩, h2, h⟩ := Except.bind_ok_elim h
    obtain ⟨⟨z, b3⟩, h3, h⟩ := Except.bind_ok_elim h
    cases h
    exact ⟨x, y, z, rfl, (takeAddr_ok h1).2, (takeAddr_ok h2).2, ((takeAddr_ok h1).1.trans (congrArg _ ((takeAddr_ok h2).1.trans (congrArg _ (takeReg_ok h3)))))⟩
  case rar =>
    obtain ⟨⟨x, b1⟩, h1, h⟩ := Except.bind_ok_elim h
    obtain ⟨⟨y, b2⟩, h2, h⟩ := Except.bind_ok_elim h
    obtain ⟨⟨z, b3⟩, h3, h⟩ := Except.bind_ok_elim h
    cases h
    exact ⟨x, y, z, rfl, (takeAddr_ok h2).2, ((takeReg_ok h1).trans (congrArg _ ((takeAddr_ok h2).1.trans (congrArg _ (takeReg_ok h3)))))⟩
  case arr =>
    obtain ⟨⟨x, b1⟩, h1, h⟩ := Except.bind_ok_elim h
    obtain ⟨⟨y, b2⟩, h2, h⟩ := Except.bind_ok_elim h
    obtain ⟨⟨z, b3⟩, h3, h⟩ := Except.bind_ok_elim h
    cases h
    exact ⟨x, y, z, rfl, (takeAddr_ok h1).2, ((takeAddr_ok h1).1.trans (congrArg _ ((takeReg_ok h2).trans (congrArg _ (takeReg_ok h3)))))⟩

end Sys2Proof
end

