-- ==== Sys2Proof/Laws/Memory.lean ====
section
/-! SUPPORT. Laws of Memory: reading after writing, the frame of a write, and the canonical form. -/

namespace Sys2Proof.Machine

/-! ### Reading one byte after writing one -/

@[simp] theorem Memory.get_nil (a : Nat) : Memory.get [] a = 0 := rfl

theorem Memory.get_eq_zero_of_notMem {m : Memory} {a : Nat} (h : ∀ c ∈ m, c.1 ≠ a) : m.get a = 0 := by
  induction m with
  | nil => rfl
  | cons c m ih =>
    have hc : c.1 ≠ a := h c (by simp)
    simp [Memory.get, hc, ih (fun d hd => h d (by simp [hd]))]

theorem Memory.get_filter_ne (m : Memory) (a b : Nat) :
    Memory.get (m.filter (fun c => c.1 ≠ a)) b = if b = a then 0 else m.get b := by
  induction m with
  | nil => simp
  | cons c m ih =>
    by_cases hc : c.1 = a
    · by_cases hb : b = a
      · simp_all
      · have : c.1 ≠ b := fun h => hb (h ▸ hc)
        simp_all [Memory.get]
    · by_cases hcb : c.1 = b
      · have : b ≠ a := fun h => hc (hcb.trans h)
        simp [Memory.get, hcb, this]
      · simp only [ne_eq, decide_not] at ih
        simp [Memory.get, hc, hcb, ih]

theorem Memory.get_insertCell (a : Nat) (v : Byte) (m : Memory) (h : ∀ c ∈ m, c.1 ≠ a) (b : Nat) :
    Memory.get (Memory.insertCell a v m) b = if b = a then v else m.get b := by
  induction m with
  | nil => simp [Memory.insertCell, Memory.get, eq_comm]
  | cons c m ih =>
    have hc : c.1 ≠ a := h c (by simp)
    have ih := ih (fun d hd => h d (by simp [hd]))
    unfold Memory.insertCell
    split
    · by_cases hb : b = a
      · simp [Memory.get, hb]
      · simp [Memory.get, hb, Ne.symm hb]
    · by_cases hcb : c.1 = b
      · have : b ≠ a := fun h => hc (hcb.trans h)
        simp [Memory.get, hcb, this]
      · simp [Memory.get, hcb, ih]

/-- Writing one byte changes that byte and no other, in any memory. -/
theorem Memory.get_set (m : Memory) (a : Nat) (v : Byte) (b : Nat) :
    (m.set a v).get b = if b = a then v else m.get b := by
  have hf := Memory.get_filter_ne m a b
  unfold Memory.set
  by_cases hv : v = 0
  · simp only [hv, if_true]; exact hf
  · simp only [hv, if_false]
    rw [Memory.get_insertCell a v _ (by simp), hf]
    split <;> rfl

@[simp] theorem Memory.get_set_same (m : Memory) (a : Nat) (v : Byte) : (m.set a v).get a = v := by
  simp [Memory.get_set]

theorem Memory.get_set_other {m : Memory} {a b : Nat} {v : Byte} (h : b ≠ a) :
    (m.set a v).get b = m.get b := by
  simp [Memory.get_set, h]

/-! ### Byte strings -/

@[simp] theorem Memory.readBytes_length (m : Memory) (a n : Nat) : (m.readBytes a n).length = n := by
  induction n generalizing a with
  | zero => rfl
  | succ n ih => simp [Memory.readBytes, ih]

theorem Memory.getElem_readBytes (m : Memory) (a n k : Nat) (h : k < (m.readBytes a n).length) :
    (m.readBytes a n)[k] = m.get (a + k) := by
  induction n generalizing a k with
  | zero => simp at h
  | succ n ih =>
    cases k with
    | zero => simp [Memory.readBytes]
    | succ k =>
      simp only [Memory.readBytes, List.getElem_cons_succ]
      rw [ih]; congr 1; omega

/-- A byte after a byte string is written: the string's byte inside its extent, the old one outside. -/
theorem Memory.get_writeBytes (m : Memory) (a : Nat) (bs : List Byte) (b : Nat) :
    (m.writeBytes a bs).get b = if h : a ≤ b ∧ b - a < bs.length then bs[b - a]'h.2 else m.get b := by
  induction bs generalizing m a with
  | nil => simp [Memory.writeBytes]
  | cons x bs ih =>
    rw [Memory.writeBytes, ih]
    by_cases hb : b = a
    · subst hb; simp
    · by_cases h1 : a + 1 ≤ b ∧ b - (a + 1) < bs.length
      · have h2 : a ≤ b ∧ b - a < (x :: bs).length := by simp; omega
        have h3 : b - a = (b - (a + 1)) + 1 := by omega
        rw [dif_pos h1, dif_pos h2]
        simp only [h3, List.getElem_cons_succ]
      · have h2 : ¬ (a ≤ b ∧ b - a < (x :: bs).length) := by simp; omega
        simp only [h1, h2, dite_false, Memory.get_set_other hb]

theorem Memory.get_writeBytes_outside {m : Memory} {a b : Nat} {bs : List Byte}
    (h : b < a ∨ a + bs.length ≤ b) : (m.writeBytes a bs).get b = m.get b := by
  rw [Memory.get_writeBytes, dif_neg (by omega)]

theorem Memory.get_writeBytes_inside {m : Memory} {a k : Nat} {bs : List Byte} (h : k < bs.length) :
    (m.writeBytes a bs).get (a + k) = bs[k] := by
  rw [Memory.get_writeBytes, dif_pos (by omega)]
  simp

/-- Reading back what was just written gives it. -/
theorem Memory.readBytes_writeBytes (m : Memory) (a : Nat) (bs : List Byte) :
    (m.writeBytes a bs).readBytes a bs.length = bs := by
  apply List.ext_getElem (by simp)
  intro k h1 h2
  rw [Memory.getElem_readBytes, Memory.get_writeBytes_inside]

/-! ### The canonical form -/

theorem Memory.wf_nil (size : Nat) : Memory.wf [] size := by simp [Memory.wf]

theorem Memory.mem_insertCell {a : Nat} {v : Byte} {m : Memory} {c : Host.Cell} :
    c ∈ Memory.insertCell a v m ↔ c = (a, v) ∨ c ∈ m := by
  induction m with
  | nil => simp [Memory.insertCell]
  | cons d m ih =>
    unfold Memory.insertCell
    split
    · simp
    · simp [ih]; tauto

theorem Memory.pairwise_insertCell {a : Nat} {v : Byte} {m : Memory}
    (h : m.Pairwise (fun c d => c.1 < d.1)) (hne : ∀ c ∈ m, c.1 ≠ a) :
    (Memory.insertCell a v m).Pairwise (fun c d => c.1 < d.1) := by
  induction m with
  | nil => simp [Memory.insertCell]
  | cons d m ih =>
    have hd := hne d (by simp)
    rw [List.pairwise_cons] at h
    unfold Memory.insertCell
    split
    · next hlt =>
      refine List.pairwise_cons.2 ⟨fun c hc => ?_, List.pairwise_cons.2 h⟩
      rcases List.mem_cons.1 hc with rfl | hc
      · exact hlt
      · exact lt_trans hlt (h.1 c hc)
    · next hlt =>
      refine List.pairwise_cons.2 ⟨fun c hc => ?_, ih h.2 fun c hc => hne c (by simp [hc])⟩
      rcases Memory.mem_insertCell.1 hc with rfl | hc
      · exact lt_of_le_of_ne (not_lt.1 hlt) hd
      · exact h.1 c hc

/-- Writing a byte inside Memory keeps the canonical form. -/
theorem Memory.wf_set {m : Memory} {size : Nat} (h : m.wf size) {a : Nat} (ha : a < size) (v : Byte) :
    (m.set a v).wf size := by
  have hp : (m.filter (fun c => c.1 ≠ a)).Pairwise (fun c d => c.1 < d.1) := h.1.filter _
  have hm : ∀ c ∈ m.filter (fun c => c.1 ≠ a), c.2 ≠ 0 ∧ c.1 < size :=
    fun c hc => h.2 c (List.mem_of_mem_filter hc)
  unfold Memory.set
  by_cases hv : v = 0
  · simp only [hv, if_true]; exact ⟨hp, hm⟩
  · simp only [hv, if_false]
    refine ⟨Memory.pairwise_insertCell hp (by simp), fun c hc => ?_⟩
    rcases Memory.mem_insertCell.1 hc with rfl | hc
    · exact ⟨hv, ha⟩
    · exact hm c hc

/-- Writing a byte string inside Memory keeps the canonical form. -/
theorem Memory.wf_writeBytes {m : Memory} {size : Nat} (h : m.wf size) {a : Nat} {bs : List Byte}
    (ha : a + bs.length ≤ size) : (m.writeBytes a bs).wf size := by
  induction bs generalizing m a with
  | nil => exact h
  | cons x bs ih =>
    simp only [List.length_cons] at ha
    exact ih (Memory.wf_set h (by omega) x) (by omega)

end Sys2Proof.Machine
end

