-- ==== Sys2Proof/Laws/State.lean ====
section
/-! SUPPORT. One lemma per field per update of State, so that no later proof unfolds a record update, and what a
register reads as after each update (R8, R24). -/

namespace Sys2Proof.Machine

variable (s : State)

/-! ### setFlags -/

@[simp] theorem State.setFlags_params (f : Flags) : (s.setFlags f).params = s.params := rfl
@[simp] theorem State.setFlags_gpr (f : Flags) : (s.setFlags f).gpr = s.gpr := rfl
@[simp] theorem State.setFlags_sp (f : Flags) : (s.setFlags f).sp = s.sp := rfl
@[simp] theorem State.setFlags_aux (f : Flags) : (s.setFlags f).aux = s.aux := rfl
@[simp] theorem State.setFlags_flags (f : Flags) : (s.setFlags f).flags = f := rfl
@[simp] theorem State.setFlags_pc (f : Flags) : (s.setFlags f).pc = s.pc := rfl
@[simp] theorem State.setFlags_mem (f : Flags) : (s.setFlags f).mem = s.mem := rfl
@[simp] theorem State.setFlags_status (f : Flags) : (s.setFlags f).status = s.status := rfl
@[simp] theorem State.setFlags_trace (f : Flags) : (s.setFlags f).trace = s.trace := rfl
@[simp] theorem State.setFlags_draws (f : Flags) : (s.setFlags f).draws = s.draws := rfl

/-! ### jump -/

@[simp] theorem State.jump_params (p : Nat) : (s.jump p).params = s.params := rfl
@[simp] theorem State.jump_gpr (p : Nat) : (s.jump p).gpr = s.gpr := rfl
@[simp] theorem State.jump_sp (p : Nat) : (s.jump p).sp = s.sp := rfl
@[simp] theorem State.jump_aux (p : Nat) : (s.jump p).aux = s.aux := rfl
@[simp] theorem State.jump_flags (p : Nat) : (s.jump p).flags = s.flags := rfl
@[simp] theorem State.jump_pc (p : Nat) : (s.jump p).pc = p := rfl
@[simp] theorem State.jump_mem (p : Nat) : (s.jump p).mem = s.mem := rfl
@[simp] theorem State.jump_status (p : Nat) : (s.jump p).status = s.status := rfl
@[simp] theorem State.jump_trace (p : Nat) : (s.jump p).trace = s.trace := rfl
@[simp] theorem State.jump_draws (p : Nat) : (s.jump p).draws = s.draws := rfl
@[simp] theorem State.jump_readReg (p : Nat) (x : Reg) : (s.jump p).readReg x = s.readReg x := by cases x <;> rfl

/-! ### advance -/

@[simp] theorem State.advance_params (sh : Shape) : (s.advance sh).params = s.params := rfl
@[simp] theorem State.advance_gpr (sh : Shape) : (s.advance sh).gpr = s.gpr := rfl
@[simp] theorem State.advance_sp (sh : Shape) : (s.advance sh).sp = s.sp := rfl
@[simp] theorem State.advance_aux (sh : Shape) : (s.advance sh).aux = s.aux := rfl
@[simp] theorem State.advance_flags (sh : Shape) : (s.advance sh).flags = s.flags := rfl
@[simp] theorem State.advance_pc (sh : Shape) : (s.advance sh).pc = s.pc + sh.length := rfl
@[simp] theorem State.advance_mem (sh : Shape) : (s.advance sh).mem = s.mem := rfl
@[simp] theorem State.advance_status (sh : Shape) : (s.advance sh).status = s.status := rfl
@[simp] theorem State.advance_trace (sh : Shape) : (s.advance sh).trace = s.trace := rfl
@[simp] theorem State.advance_draws (sh : Shape) : (s.advance sh).draws = s.draws := rfl
@[simp] theorem State.advance_readReg (sh : Shape) (x : Reg) : (s.advance sh).readReg x = s.readReg x := by cases x <;> rfl

/-! ### emit -/

@[simp] theorem State.emit_params (e : HostEvent) : (s.emit e).params = s.params := rfl
@[simp] theorem State.emit_gpr (e : HostEvent) : (s.emit e).gpr = s.gpr := rfl
@[simp] theorem State.emit_sp (e : HostEvent) : (s.emit e).sp = s.sp := rfl
@[simp] theorem State.emit_aux (e : HostEvent) : (s.emit e).aux = s.aux := rfl
@[simp] theorem State.emit_flags (e : HostEvent) : (s.emit e).flags = s.flags := rfl
@[simp] theorem State.emit_pc (e : HostEvent) : (s.emit e).pc = s.pc := rfl
@[simp] theorem State.emit_mem (e : HostEvent) : (s.emit e).mem = s.mem := rfl
@[simp] theorem State.emit_status (e : HostEvent) : (s.emit e).status = s.status := rfl
@[simp] theorem State.emit_trace (e : HostEvent) : (s.emit e).trace = s.trace ++ [e] := rfl
@[simp] theorem State.emit_draws (e : HostEvent) : (s.emit e).draws = s.draws := rfl
@[simp] theorem State.emit_readReg (e : HostEvent) (x : Reg) : (s.emit e).readReg x = s.readReg x := by cases x <;> rfl

/-! ### draw -/

@[simp] theorem State.draw_params : (s.draw).params = s.params := rfl
@[simp] theorem State.draw_gpr : (s.draw).gpr = s.gpr := rfl
@[simp] theorem State.draw_sp : (s.draw).sp = s.sp := rfl
@[simp] theorem State.draw_aux : (s.draw).aux = s.aux := rfl
@[simp] theorem State.draw_flags : (s.draw).flags = s.flags := rfl
@[simp] theorem State.draw_pc : (s.draw).pc = s.pc := rfl
@[simp] theorem State.draw_mem : (s.draw).mem = s.mem := rfl
@[simp] theorem State.draw_status : (s.draw).status = s.status := rfl
@[simp] theorem State.draw_trace : (s.draw).trace = s.trace := rfl
@[simp] theorem State.draw_draws : (s.draw).draws = s.draws + 1 := rfl
@[simp] theorem State.draw_readReg (x : Reg) : (s.draw).readReg x = s.readReg x := by cases x <;> rfl

/-! ### halt -/

@[simp] theorem State.halt_params : (s.halt).params = s.params := rfl
@[simp] theorem State.halt_gpr : (s.halt).gpr = s.gpr := rfl
@[simp] theorem State.halt_sp : (s.halt).sp = s.sp := rfl
@[simp] theorem State.halt_aux : (s.halt).aux = s.aux := rfl
@[simp] theorem State.halt_flags : (s.halt).flags = s.flags := rfl
@[simp] theorem State.halt_pc : (s.halt).pc = s.pc := rfl
@[simp] theorem State.halt_mem : (s.halt).mem = s.mem := rfl
@[simp] theorem State.halt_status : (s.halt).status = .halted := rfl
@[simp] theorem State.halt_trace : (s.halt).trace = s.trace := rfl
@[simp] theorem State.halt_draws : (s.halt).draws = s.draws := rfl
@[simp] theorem State.halt_readReg (x : Reg) : (s.halt).readReg x = s.readReg x := by cases x <;> rfl

/-! ### Records with another Memory, status or PC -/

@[simp] theorem State.readReg_withMem (m : Memory) (x : Reg) : ({ s with mem := m } : State).readReg x = s.readReg x := by
  cases x <;> rfl
@[simp] theorem State.readReg_withStatus (r : RunStatus) (x : Reg) :
    ({ s with status := r } : State).readReg x = s.readReg x := by cases x <;> rfl

/-! ### writeReg: only the register file changes -/

@[simp] theorem State.writeReg_params (d : Reg) (v : F64) : (s.writeReg d v).params = s.params := by cases d <;> rfl
@[simp] theorem State.writeReg_flags (d : Reg) (v : F64) : (s.writeReg d v).flags = s.flags := by cases d <;> rfl
@[simp] theorem State.writeReg_pc (d : Reg) (v : F64) : (s.writeReg d v).pc = s.pc := by cases d <;> rfl
@[simp] theorem State.writeReg_mem (d : Reg) (v : F64) : (s.writeReg d v).mem = s.mem := by cases d <;> rfl
@[simp] theorem State.writeReg_status (d : Reg) (v : F64) : (s.writeReg d v).status = s.status := by cases d <;> rfl
@[simp] theorem State.writeReg_trace (d : Reg) (v : F64) : (s.writeReg d v).trace = s.trace := by cases d <;> rfl
@[simp] theorem State.writeReg_draws (d : Reg) (v : F64) : (s.writeReg d v).draws = s.draws := by cases d <;> rfl

@[simp] theorem State.readReg_sp : s.readReg .sp = s.sp := rfl
@[simp] theorem State.writeReg_sp (v : F64) : s.writeReg .sp v = { s with sp := v } := rfl
@[simp] theorem State.writeReg_zf (v : F64) : s.writeReg .zf v = s := rfl
@[simp] theorem State.writeReg_sf (v : F64) : s.writeReg .sf v = s := rfl
@[simp] theorem State.writeReg_cf (v : F64) : s.writeReg .cf v = s := rfl
@[simp] theorem State.writeReg_of (v : F64) : s.writeReg .of v = s := rfl

end Sys2Proof.Machine
end

