-- ==== Sys2Proof/Laws/Ops.lean ====
section
/-! SUPPORT. What the named operations can do, said once for each: the register file, checked memory access,
completion and fault entry, and the stack primitives. -/

namespace Sys2Proof.Machine

variable {s t u : State}

/-! ### Registers (R8, R24) -/

/-- Reading after writing a slot that stores a value. -/
theorem State.readReg_writeReg (s : State) {d x : Reg} (v : F64) (hd : d.isFlag = false)
    (hx : x.isFlag = false) : (s.writeReg d v).readReg x = if x = d then v else s.readReg x := by
  cases d <;> cases x <;> simp_all [Reg.isFlag, State.writeReg, State.readReg, Vector.getElem_set] <;>
    simp only [Fin.ext_iff, eq_comm]

/-- The slot written reads as the value, where it stores one. -/
theorem State.readReg_writeReg_same (s : State) {d : Reg} (v : F64) (hd : d.isFlag = false) :
    (s.writeReg d v).readReg d = v := by
  simp [State.readReg_writeReg s v hd hd]

/-- A write to a flag slot changes nothing (R24). -/
theorem State.writeReg_flag (s : State) {d : Reg} (v : F64) (hd : d.isFlag = true) : s.writeReg d v = s := by
  cases d <;> simp_all [Reg.isFlag]

/-- Every slot but the one written reads as before. -/
theorem State.readReg_writeReg_other (s : State) {d x : Reg} (v : F64) (h : x ≠ d) :
    (s.writeReg d v).readReg x = s.readReg x := by
  cases d <;> cases x <;> simp_all [State.writeReg, State.readReg, Vector.getElem_set] <;>
    exact fun h' => absurd (Fin.ext h'.symm) h

/-- After the flags are written, every slot but the flag slots reads as before. -/
theorem State.readReg_setFlags (s : State) {x : Reg} (f : Flags) (hx : x.isFlag = false) :
    (s.setFlags f).readReg x = s.readReg x := by
  cases x <;> first | rfl | simp [Reg.isFlag] at hx

/-! ### Frames compose -/

theorem SameRegs.refl (ds : List Reg) : SameRegs s s ds := fun _ _ _ => rfl

theorem SameRegs.trans {ds : List Reg} (h : SameRegs s t ds) (h' : SameRegs t u ds) : SameRegs s u ds :=
  fun x hx hd => (h' x hx hd).trans (h x hx hd)

theorem SameRegs.mono {ds es : List Reg} (h : SameRegs s t ds) (hs : ∀ x ∈ ds, x ∈ es) : SameRegs s t es :=
  fun x hx he => h x hx fun hd => he (hs x hd)

theorem sameRegs_writeReg (s : State) (d : Reg) (v : F64) : SameRegs s (s.writeReg d v) [d] :=
  fun _ _ hd => State.readReg_writeReg_other s v (by simpa using hd)

/-! ### Completion and fault entry (R13, R384) -/

@[simp] theorem complete_ok (s t : State) : complete s (.ok t) = .next t := rfl

@[simp] theorem complete_error (s : State) (f : FaultRecord) : complete s (.error f) = .next (faultEntry s f) := rfl

@[simp] theorem takeFault_eq (f : FaultRecord) (s : State) : takeFault f s = .next (faultEntry s f) := rfl

/-- Completing an instruction always answers a next state. -/
theorem complete_answers (s : State) (r : Except FaultRecord State) : ∃ t, complete s r = .next t := by
  cases r <;> exact ⟨_, rfl⟩

/-- What a completed instruction's next state is: the one its checks passed to, or fault entry. -/
theorem complete_cases {r : Except FaultRecord State} (h : complete s r = .next t) :
    r = .ok t ∨ ∃ f, r = .error f ∧ t = faultEntry s f := by
  cases r with
  | ok v => left; simp only [complete_ok, Host.Outcome.next.injEq] at h; rw [h]
  | error f => right; simp only [complete_error, Host.Outcome.next.injEq] at h; exact ⟨f, rfl, h.symm⟩

/-- A computation of checks that answers a value: each part answered one. -/
theorem bind_ok_iff {α β : Type} {x : Except FaultRecord α} {f : α → Except FaultRecord β} {b : β} :
    (x >>= f) = .ok b ↔ ∃ a, x = .ok a ∧ f a = .ok b := by
  cases x with
  | ok a => exact ⟨fun h => ⟨a, rfl, h⟩, fun ⟨_, h, h'⟩ => by cases h; exact h'⟩
  | error e => exact ⟨(fun h => by cases h), fun ⟨_, h, _⟩ => by cases h⟩

@[simp] theorem bind_ok {α β : Type} (a : α) (f : α → Except FaultRecord β) :
    ((Except.ok a : Except FaultRecord α) >>= f) = f a := rfl

@[simp] theorem bind_error {α β : Type} (e : FaultRecord) (f : α → Except FaultRecord β) :
    ((Except.error e : Except FaultRecord α) >>= f) = .error e := rfl

/-! ### Memory access (R51, R52) -/

/-- The bounds check in the words of R51. -/
theorem inBounds_iff {a : Int} {n : Nat} : inBounds s a n ↔ 0 ≤ a ∧ a + n ≤ s.params.memSize := by
  unfold inBounds
  omega

theorem memRead_of_inBounds {a : Int} {n : Nat} (h : inBounds s a n) :
    memRead s a n = .ok (s.mem.readBytes a.toNat n) := if_pos h

theorem memRead_of_not_inBounds {a : Int} {n : Nat} (h : ¬ inBounds s a n) :
    memRead s a n = .error (.outOfBounds (.addr a) n) := if_neg h

theorem memRead_ok {a : Int} {n : Nat} {bs : List Byte} (h : memRead s a n = .ok bs) :
    inBounds s a n ∧ bs = s.mem.readBytes a.toNat n := by
  unfold memRead at h
  split at h
  · next hb => exact ⟨hb, by cases h; rfl⟩
  · cases h

theorem memWrite_of_inBounds {a : Int} {n : Nat} (bs : List Byte) (h : inBounds s a n) :
    memWrite s a n bs = .ok { s with mem := s.mem.writeBytes a.toNat bs } := if_pos h

theorem memWrite_of_not_inBounds {a : Int} {n : Nat} (bs : List Byte) (h : ¬ inBounds s a n) :
    memWrite s a n bs = .error (.outOfBounds (.addr a) n) := if_neg h

theorem memWrite_ok {a : Int} {n : Nat} {bs : List Byte} (h : memWrite s a n bs = .ok t) :
    inBounds s a n ∧ t = { s with mem := s.mem.writeBytes a.toNat bs } := by
  unfold memWrite at h
  split at h
  · next hb => exact ⟨hb, by cases h; rfl⟩
  · cases h

/-- A write of a byte string of the length it was checked for keeps the canonical form of Memory. -/
theorem memWrite_keeps_wf {a : Int} {n : Nat} {bs : List Byte} (h : memWrite s a n bs = .ok t) (hn : bs.length = n)
    (hw : s.mem.wf s.params.memSize) : t.mem.wf t.params.memSize := by
  obtain ⟨hb, rfl⟩ := memWrite_ok h
  exact Memory.wf_writeBytes hw (by have := hb.2; omega)

/-- Memory after reset is in its canonical form. -/
theorem reset_mem_wf : State.reset.mem.wf State.reset.params.memSize := Memory.wf_nil _

/-- The bytes a write leaves. -/
theorem bytesAt_writeBytes (s : State) (a : Nat) (bs : List Byte) :
    BytesAt { s with mem := s.mem.writeBytes a bs } a bs :=
  fun _ h => Memory.get_writeBytes_inside h

theorem sameMemOutside_writeBytes (s : State) (a : Nat) (bs : List Byte) :
    SameMemOutside s { s with mem := s.mem.writeBytes a bs } a bs.length :=
  fun _ h => Memory.get_writeBytes_outside h

/-- What a run of bytes in Memory reads as. -/
theorem readBytes_of_bytesAt {a : Nat} {bs : List Byte} (h : BytesAt s a bs) :
    s.mem.readBytes a bs.length = bs := by
  apply List.ext_getElem (by simp)
  intro k h1 h2
  rw [Memory.getElem_readBytes, h k h2]

/-! ### Addresses, counts and the stack (R29, R30, R238) -/

theorem addr_ok {v : F64} {a : Int} (h : addr v = .ok a) : isFin v = true ∧ a = ftrunc v := by
  unfold addr at h
  split at h
  · next hv => exact ⟨hv, by cases h; rfl⟩
  · cases h

theorem count_ok {v : F64} {n : Nat} (h : count v = .ok n) :
    isFin v = true ∧ 0 ≤ ftrunc v ∧ n = (ftrunc v).toNat := by
  unfold count at h
  split at h
  · next hv => exact ⟨hv.1, hv.2, by cases h; rfl⟩
  · cases h

/-- Everything a push that is not refused does. -/
theorem push_ok {v : F64} (h : push s v = .ok t) :
    flt (fsub s.draws s.sp fEight) (fZero false) = false ∧ isFin (fsub s.draws s.sp fEight) = true ∧
    inBounds s (ftrunc (fsub s.draws s.sp fEight)) 8 ∧
    t = { s with
      mem := s.mem.writeBytes (ftrunc (fsub s.draws s.sp fEight)).toNat (encodeF64 v)
      sp := fsub s.draws s.sp fEight } := by
  unfold push at h
  generalize fsub s.draws s.sp fEight = nsp at h ⊢
  dsimp only at h
  split at h
  · cases h
  · next hf =>
    obtain ⟨ea, h1, h2⟩ := bind_ok_iff.1 h
    obtain ⟨w, h3, h4⟩ := bind_ok_iff.1 h2
    obtain ⟨hfin, rfl⟩ := addr_ok h1
    obtain ⟨hb, rfl⟩ := memWrite_ok h3
    cases h4
    exact ⟨by simpa using hf, hfin, hb, rfl⟩

/-- Everything a pop that is not refused does. -/
theorem pop_ok {v : F64} (h : pop s = .ok (v, t)) :
    fle (ofNat s.params.memSize) s.sp = false ∧ isFin s.sp = true ∧ inBounds s (ftrunc s.sp) 8 ∧
    v = decodeF64 (s.mem.readBytes (ftrunc s.sp).toNat 8) ∧
    t = { s with sp := fadd s.draws s.sp fEight } := by
  unfold pop at h
  split at h
  · cases h
  · next hf =>
    obtain ⟨ea, h1, h2⟩ := bind_ok_iff.1 h
    obtain ⟨w, h3, h4⟩ := bind_ok_iff.1 h2
    obtain ⟨hfin, rfl⟩ := addr_ok h1
    obtain ⟨bs, h5, h6⟩ := bind_ok_iff.1 h3
    obtain ⟨hb, rfl⟩ := memRead_ok h5
    have hw := Except.ok.inj h6
    have hv := Prod.mk.inj (Except.ok.inj h4)
    exact ⟨by simpa using hf, hfin, hb, by rw [← hv.1, ← hw], hv.2.symm⟩

end Sys2Proof.Machine
end

