-- ==== Sys2Proof/Laws/Effects.lean ====
section
/-! SUPPORT. The effect of each shared operation of the families, said once: what it writes and its frame. The
provers cite these lemmas instead of unfolding an instruction. -/

namespace Sys2Proof.Machine

variable {s t : State}

/-! ### Building an effect -/

/-- A state whose stored slots are those of one register write, with the rest given field by field. -/
theorem RegEffect.of_writeReg {d : Reg} {v : F64} {fl : Flags} {pc : Nat}
    (hreg : ∀ x, x.isFlag = false → t.readReg x = (s.writeReg d v).readReg x) (hfl : t.flags = fl)
    (hpc : t.pc = pc) (hmem : t.mem = s.mem) (hst : t.status = s.status) (htr : t.trace = s.trace)
    (hp : t.params = s.params) : RegEffect s t d v fl pc := by
  refine ⟨fun h => ?_, fun x hx hd => ?_, hfl, hpc, fun a => by rw [hmem], hst, htr, hp⟩
  · rw [hreg d h, State.readReg_writeReg_same s v h]
  · rw [hreg x hx, State.readReg_writeReg_other s v (by simpa using hd)]

/-- A state that differs in flags and PC only. -/
theorem FlagEffect.of_fields {fl : Flags} {pc : Nat} (hreg : ∀ x, x.isFlag = false → t.readReg x = s.readReg x)
    (hfl : t.flags = fl) (hpc : t.pc = pc) (hmem : t.mem = s.mem) (hst : t.status = s.status)
    (htr : t.trace = s.trace) (hp : t.params = s.params) : FlagEffect s t fl pc :=
  ⟨fun x hx _ => hreg x hx, hfl, hpc, fun a => by rw [hmem], hst, htr, hp⟩

/-! ### Float family -/

theorem floatResult_effect (d : Reg) (r : F64) (sh : Shape) (s : State) :
    RegEffect s (floatResult d r sh s) d r (floatFlags s.params.eps r) (s.pc + sh.length) :=
  .of_writeReg (fun x hx => by simp [floatResult, State.readReg_setFlags _ _ hx])
    (by simp [floatResult]) (by simp [floatResult]) (by simp [floatResult]) (by simp [floatResult])
    (by simp [floatResult]) (by simp [floatResult])

theorem arithResult_effect (d : Reg) (r : F64) (sh : Shape) (s : State) :
    RegEffect s (arithResult d r sh s) d r (floatFlags s.params.eps r) (s.pc + sh.length) := by
  have h := floatResult_effect d r sh s
  exact .of_writeReg (fun x hx => by simp [arithResult, floatResult, State.readReg_setFlags _ _ hx])
    h.2.2.1 h.2.2.2.1 (by simp [arithResult, floatResult]) h.2.2.2.2.2.1 h.2.2.2.2.2.2.1 h.2.2.2.2.2.2.2

theorem compareResult_effect (r : F64) (sh : Shape) (s : State) :
    FlagEffect s (compareResult r sh s) (floatFlags s.params.eps r) (s.pc + sh.length) :=
  .of_fields (fun x hx => by simp [compareResult, State.readReg_setFlags _ _ hx]) rfl rfl rfl rfl rfl rfl

/-- A divisor of magnitude below EPS faults (R121). -/
theorem divideBy_near_zero {op : Nat → F64 → F64 → F64} {d : Reg} {b : F64} {sh : Shape}
    (h : flt (fabs b) s.params.eps = true) :
    divideBy op d b sh s = .next (faultEntry s (.divideByZero s.pc b)) := if_pos h

/-- Any other divisor completes (R121). -/
theorem divideBy_completes {op : Nat → F64 → F64 → F64} {d : Reg} {b : F64} {sh : Shape}
    (h : flt (fabs b) s.params.eps = false) :
    divideBy op d b sh s = .next (arithResult d (op s.draws (s.readReg d) b) sh s) := by
  rw [divideBy, if_neg (by simp [h])]

/-! ### Integer family -/

theorem logicResult_effect (d : Reg) (w : Word) (sh : Shape) (s : State) :
    RegEffect s (logicResult d w sh s) d (widen w) (intFlags w false) (s.pc + sh.length) :=
  .of_writeReg (fun x hx => by simp [logicResult, State.readReg_setFlags _ _ hx])
    (by simp [logicResult]) (by simp [logicResult]) (by simp [logicResult]) (by simp [logicResult])
    (by simp [logicResult]) (by simp [logicResult])

theorem testResult_effect (w : Word) (sh : Shape) (s : State) :
    FlagEffect s (testResult w sh s) (intFlags w false) (s.pc + sh.length) :=
  .of_fields (fun x hx => by simp [testResult, State.readReg_setFlags _ _ hx]) rfl rfl rfl rfl rfl rfl

theorem shiftResult_effect (d : Reg) (w : Word) (sh : Shape) (s : State) :
    RegEffect s (shiftResult d w sh s) d (widen w) (intFlags w (Config.shiftCarry s.draws))
      (s.pc + sh.length) :=
  .of_writeReg (fun x hx => by simp [shiftResult, State.readReg_setFlags _ _ hx])
    (by simp [shiftResult]) (by simp [shiftResult]) (by simp [shiftResult]) (by simp [shiftResult])
    (by simp [shiftResult]) (by simp [shiftResult])

theorem sarResult_effect (d : Reg) (r : Int) (sh : Shape) (s : State) :
    RegEffect s (sarResult d r sh s) d (ofInt r) (intFlags (BitVec.ofInt 32 r) (Config.shiftCarry s.draws))
      (s.pc + sh.length) :=
  .of_writeReg (fun x hx => by simp [sarResult, State.readReg_setFlags _ _ hx])
    (by simp [sarResult]) (by simp [sarResult]) (by simp [sarResult]) (by simp [sarResult])
    (by simp [sarResult]) (by simp [sarResult])

/-- The integer flags as facts about the unsigned number (R170). -/
theorem intFlags_eq (w : Word) (cf : Bool) :
    intFlags w cf =
      { zero := decide (w.toNat = 0), sign := decide (2 ^ 31 ≤ w.toNat), carry := cf, overflow := false } := by
  simp only [intFlags, BitVec.msb_eq_decide, Flags.mk.injEq, and_true]
  rw [Bool.eq_iff_iff]
  simp [BitVec.toNat_eq]

/-! ### Moves and string results -/

theorem moveResult_effect (d : Reg) (v : F64) (sh : Shape) (s : State) :
    RegEffect s (moveResult d v sh s) d v s.flags (s.pc + sh.length) :=
  .of_writeReg (fun x _ => by simp [moveResult]) (by simp [moveResult]) (by simp [moveResult])
    (by simp [moveResult]) (by simp [moveResult]) (by simp [moveResult]) (by simp [moveResult])

theorem strResult_effect (d : Reg) (v : F64) (sh : Shape) (s : State) :
    RegEffect s (strResult d v sh s) d v s.flags (s.pc + sh.length) := moveResult_effect d v sh s

/-- A load of eight bytes inside Memory (R223, R225). -/
theorem loadF64_completes {ea : Int} (d : Reg) (sh : Shape) (h : inBounds s ea 8) :
    loadF64 d ea sh s = .ok (moveResult d (decodeF64 (s.mem.readBytes ea.toNat 8)) sh s) := by
  rw [loadF64, rdF64, memRead_of_inBounds h]; rfl

/-- A load of eight bytes not all inside Memory (R51). -/
theorem loadF64_faults {ea : Int} (d : Reg) (sh : Shape) (h : ¬ inBounds s ea 8) :
    loadF64 d ea sh s = .error (.outOfBounds (.addr ea) 8) := by
  rw [loadF64, rdF64, memRead_of_not_inBounds h]; rfl

/-- A load of a byte inside Memory (R227, R229). -/
theorem loadByte_completes {ea : Int} (d : Reg) (sh : Shape) (h : inBounds s ea 1) :
    loadByte d ea sh s = .ok (moveResult d (ofNat (s.mem.get ea.toNat).toNat) sh s) := by
  rw [loadByte, memRead_of_inBounds h]; rfl

/-- A load of a byte outside Memory (R51). -/
theorem loadByte_faults {ea : Int} (d : Reg) (sh : Shape) (h : ¬ inBounds s ea 1) :
    loadByte d ea sh s = .error (.outOfBounds (.addr ea) 1) := by
  rw [loadByte, memRead_of_not_inBounds h]; rfl

/-! ### Stores -/

/-- A state that differs by a run of bytes written and by the PC. -/
theorem storeEffect_writeBytes (s : State) (a : Nat) (bs : List Byte) (sh : Shape) :
    StoreEffect s (State.advance { s with mem := s.mem.writeBytes a bs } sh) a bs (s.pc + sh.length) :=
  ⟨fun _ hk => Memory.get_writeBytes_inside hk, fun _ hb => Memory.get_writeBytes_outside hb,
    fun x _ _ => by simp, rfl, rfl, rfl, rfl, rfl⟩

/-- A byte string whose extent is inside Memory is stored (R51, R52). -/
theorem strWrite_completes {a : Int} {n : Nat} (bs : List Byte) (sh : Shape) (h : inBounds s a n) :
    strWrite a n bs sh s = .ok (State.advance { s with mem := s.mem.writeBytes a.toNat bs } sh) := by
  rw [strWrite, memWrite_of_inBounds bs h]; rfl

/-- A byte string whose extent is not inside Memory faults (R51, R52). -/
theorem strWrite_faults {a : Int} {n : Nat} (bs : List Byte) (sh : Shape) (h : ¬ inBounds s a n) :
    strWrite a n bs sh s = .error (.outOfBounds (.addr a) n) := by
  rw [strWrite, memWrite_of_not_inBounds bs h]; rfl

theorem storeF64_eq_strWrite (a : Int) (v : F64) (sh : Shape) (s : State) :
    storeF64 a v sh s = strWrite a 8 (encodeF64 v) sh s := rfl

theorem storeByte_eq_strWrite (a : Int) (v : F64) (sh : Shape) (s : State) :
    storeByte a v sh s = strWrite a 1 [lowByte v] sh s := rfl

/-! ### Control and requests -/

theorem jump_effect (s : State) (a : Nat) : FlagEffect s (s.jump a) s.flags a :=
  .of_fields (fun x _ => by simp) rfl rfl rfl rfl rfl rfl

/-- A branch goes to its target or past itself and changes nothing else (R260). -/
theorem branch_effect (c : Bool) (a : Addr) (s : State) :
    ∃ u, branch c a s = .next u ∧ FlagEffect s u s.flags (if c then a else s.pc + 5) := by
  cases c
  · exact ⟨_, rfl, jump_effect s _⟩
  · exact ⟨_, rfl, jump_effect s _⟩

/-- An output request is appended to the trace and changes nothing else but the PC (R340). -/
theorem output_effect (e : HostEvent) (s : State) :
    ∃ u, output e s = .next u ∧ OutputEffect s u e (s.pc + 1) :=
  ⟨_, rfl, fun x _ _ => by simp, rfl, rfl, fun _ => rfl, rfl, rfl, rfl⟩

/-! ### Operand readings -/

/-- The low byte as a number (R228). -/
theorem lowByte_eq (v : F64) : lowByte v = BitVec.ofNat 8 ((u32 v).toNat % 256) := by
  apply BitVec.eq_of_toNat_eq
  simp [lowByte]

theorem addr_of_finite {v : F64} (h : isFin v = true) : addr v = .ok (ftrunc v) := if_pos h

theorem addr_of_not_finite {v : F64} (h : isFin v = false) : addr v = .error (.outOfBounds (.value v) 0) :=
  if_neg (by simp [h])

theorem count_of_good {v : F64} (h : isFin v = true) (h0 : 0 ≤ ftrunc v) : count v = .ok (ftrunc v).toNat :=
  if_pos ⟨h, h0⟩

theorem count_of_bad {v : F64} (h : isFin v = false ∨ ftrunc v < 0) :
    count v = .error (.outOfBounds (.value v) 0) := by
  refine if_neg fun hv => ?_
  rcases h with h | h
  · simp [h] at hv
  · omega

/-! ### A branch of the stack primitives each (R238) -/

/-- A push with room: the slot below SP holds the value and SP is that slot's address. -/
theorem push_completes {v nsp : F64} (hn : fsub s.draws s.sp fEight = nsp) (h0 : flt nsp (fZero false) = false)
    (hf : isFin nsp = true) (hb : inBounds s (ftrunc nsp) 8) :
    push s v = .ok { s with mem := s.mem.writeBytes (ftrunc nsp).toNat (encodeF64 v), sp := nsp } := by
  rw [push]
  simp only [hn, h0, Bool.false_eq_true, if_false, addr_of_finite hf, bind_ok, wrF64, memWrite_of_inBounds _ hb]
  rfl

/-- A pop of a slot inside Memory. -/
theorem pop_completes (h0 : fle (ofNat s.params.memSize) s.sp = false) (hf : isFin s.sp = true)
    (hb : inBounds s (ftrunc s.sp) 8) :
    pop s = .ok (decodeF64 (s.mem.readBytes (ftrunc s.sp).toNat 8),
      s.writeReg .sp (fadd s.draws s.sp fEight)) := by
  rw [pop]
  simp only [h0, Bool.false_eq_true, if_false, addr_of_finite hf, bind_ok, rdF64, memRead_of_inBounds hb]
  rfl

end Sys2Proof.Machine
end

