-- ==== Sys2Proof/Laws/Float.lean ====
section
/-! SUPPORT. The fields and classes of binary64 patterns: a pattern is its sign and magnitude, and is finite, an
infinity or a NaN (R11). -/

namespace Sys2Proof.Machine

/-! ### Sign and magnitude -/

theorem fMag_lt (v : F64) : fMag v < 2 ^ 63 := Nat.mod_lt _ (by decide)

theorem ofSignMag_toNat (neg : Bool) {mag : Nat} (h : mag < 2 ^ 63) :
    (ofSignMag neg mag).toNat = (if neg then 2 ^ 63 else 0) + mag := by
  unfold ofSignMag
  rw [BitVec.toNat_ofNat]
  apply Nat.mod_eq_of_lt
  cases neg
  · simp; omega
  · simp; omega

@[simp] theorem fMag_ofSignMag (neg : Bool) {mag : Nat} (h : mag < 2 ^ 63) : fMag (ofSignMag neg mag) = mag := by
  rw [fMag, ofSignMag_toNat neg h]
  cases neg <;> simp <;> omega

@[simp] theorem fSign_ofSignMag (neg : Bool) {mag : Nat} (h : mag < 2 ^ 63) :
    fSign (ofSignMag neg mag) = neg := by
  rw [fSign, BitVec.msb_eq_decide, ofSignMag_toNat neg h]
  cases neg
  · simp; omega
  · simp

/-! ### Classes -/

/-- Every pattern is finite, an infinity or a NaN. -/
theorem class_cases (v : F64) : isFin v = true ∨ isInf v = true ∨ isNaN v = true := by
  simp only [isFin, isInf, isNaN, decide_eq_true_eq, beq_iff_eq]
  omega

theorem not_isNaN_of_isFin {v : F64} (h : isFin v = true) : isNaN v = false := by
  simp only [isFin, isNaN, decide_eq_true_eq, decide_eq_false_iff_not] at *
  omega

theorem not_isInf_of_isFin {v : F64} (h : isFin v = true) : isInf v = false := by
  simp only [isFin, isInf, decide_eq_true_eq, beq_eq_false_iff_ne] at *
  omega

theorem not_isFin_of_isNaN {v : F64} (h : isNaN v = true) : isFin v = false := by
  simp only [isFin, isNaN, decide_eq_true_eq, decide_eq_false_iff_not] at *
  omega

theorem not_isFin_of_isInf {v : F64} (h : isInf v = true) : isFin v = false := by
  simp only [isFin, isInf, beq_iff_eq, decide_eq_false_iff_not] at *
  omega

/-! ### NaNs: a produced NaN is one, whichever it is (R147) -/

theorem isNaN_nanOf (p : F64) : isNaN (nanOf p) = true := by
  unfold nanOf
  split
  · assumption
  · decide

theorem isNaN_producedNaN (k : Nat) : isNaN (producedNaN k) = true := isNaN_nanOf _

/-- Every NaN is a value a free choice can take. -/
theorem nanOf_surjective {v : F64} (h : isNaN v = true) : nanOf v = v := if_pos h

/-- A comparison with a NaN is false (R11). -/
theorem compare_nan {a b : F64} (h : isNaN a = true ∨ isNaN b = true) :
    flt a b = false ∧ fle a b = false ∧ feq a b = false := by
  rcases h with h | h <;> simp [flt, fle, feq, h]

end Sys2Proof.Machine
end

