-- ==== Sys2Proof/Laws/PerInstr.lean ====
section
/-! SUPPORT. Laws of the instructions as syntax, one lemma per constructor of Instr. -/

namespace Sys2Proof.Laws

/-- The encoder writes as many bytes as the shape the opcode map gives the instruction's opcode byte takes
(R83: sizing, emission and decoding agree). -/
def EncodingLength.Statement (i : Instr) : Prop :=
  ∃ f, formOf ((encode i).headD 0).toNat = some f ∧ (encode i).length = f.shape.length

theorem EncodingLength.nop : EncodingLength.Statement (.nop) := ⟨_, rfl, rfl⟩
theorem EncodingLength.hlt : EncodingLength.Statement (.hlt) := ⟨_, rfl, rfl⟩
theorem EncodingLength.movRR (d : Reg) (s : Reg) : EncodingLength.Statement (.movRR d s) := ⟨_, rfl, rfl⟩
theorem EncodingLength.movRI (d : Reg) (fimm : F64) : EncodingLength.Statement (.movRI d fimm) := ⟨_, rfl, rfl⟩
theorem EncodingLength.movRM (d : Reg) (a : Addr) : EncodingLength.Statement (.movRM d a) := ⟨_, rfl, rfl⟩
theorem EncodingLength.movMR (a : Addr) (s : Reg) : EncodingLength.Statement (.movMR a s) := ⟨_, rfl, rfl⟩
theorem EncodingLength.movRMI (d : Reg) (s : Reg) : EncodingLength.Statement (.movRMI d s) := ⟨_, rfl, rfl⟩
theorem EncodingLength.movMRI (d : Reg) (s : Reg) : EncodingLength.Statement (.movMRI d s) := ⟨_, rfl, rfl⟩
theorem EncodingLength.movbRM (d : Reg) (a : Addr) : EncodingLength.Statement (.movbRM d a) := ⟨_, rfl, rfl⟩
theorem EncodingLength.movbMR (a : Addr) (s : Reg) : EncodingLength.Statement (.movbMR a s) := ⟨_, rfl, rfl⟩
theorem EncodingLength.movbRMI (d : Reg) (s : Reg) : EncodingLength.Statement (.movbRMI d s) := ⟨_, rfl, rfl⟩
theorem EncodingLength.movbMRI (d : Reg) (s : Reg) : EncodingLength.Statement (.movbMRI d s) := ⟨_, rfl, rfl⟩
theorem EncodingLength.movzx (d : Reg) (s : Reg) : EncodingLength.Statement (.movzx d s) := ⟨_, rfl, rfl⟩
theorem EncodingLength.movsx (d : Reg) (s : Reg) : EncodingLength.Statement (.movsx d s) := ⟨_, rfl, rfl⟩
theorem EncodingLength.lea (d : Reg) (a : Addr) : EncodingLength.Statement (.lea d a) := ⟨_, rfl, rfl⟩
theorem EncodingLength.push (s : Reg) : EncodingLength.Statement (.push s) := ⟨_, rfl, rfl⟩
theorem EncodingLength.pop (d : Reg) : EncodingLength.Statement (.pop d) := ⟨_, rfl, rfl⟩
theorem EncodingLength.addRR (d : Reg) (s : Reg) : EncodingLength.Statement (.addRR d s) := ⟨_, rfl, rfl⟩
theorem EncodingLength.addRI (d : Reg) (fimm : F64) : EncodingLength.Statement (.addRI d fimm) := ⟨_, rfl, rfl⟩
theorem EncodingLength.subRR (d : Reg) (s : Reg) : EncodingLength.Statement (.subRR d s) := ⟨_, rfl, rfl⟩
theorem EncodingLength.subRI (d : Reg) (fimm : F64) : EncodingLength.Statement (.subRI d fimm) := ⟨_, rfl, rfl⟩
theorem EncodingLength.mulRR (d : Reg) (s : Reg) : EncodingLength.Statement (.mulRR d s) := ⟨_, rfl, rfl⟩
theorem EncodingLength.mulRI (d : Reg) (fimm : F64) : EncodingLength.Statement (.mulRI d fimm) := ⟨_, rfl, rfl⟩
theorem EncodingLength.divRR (d : Reg) (s : Reg) : EncodingLength.Statement (.divRR d s) := ⟨_, rfl, rfl⟩
theorem EncodingLength.divRI (d : Reg) (fimm : F64) : EncodingLength.Statement (.divRI d fimm) := ⟨_, rfl, rfl⟩
theorem EncodingLength.modRR (d : Reg) (s : Reg) : EncodingLength.Statement (.modRR d s) := ⟨_, rfl, rfl⟩
theorem EncodingLength.modRI (d : Reg) (fimm : F64) : EncodingLength.Statement (.modRI d fimm) := ⟨_, rfl, rfl⟩
theorem EncodingLength.neg (d : Reg) : EncodingLength.Statement (.neg d) := ⟨_, rfl, rfl⟩
theorem EncodingLength.inc (d : Reg) : EncodingLength.Statement (.inc d) := ⟨_, rfl, rfl⟩
theorem EncodingLength.dec (d : Reg) : EncodingLength.Statement (.dec d) := ⟨_, rfl, rfl⟩
theorem EncodingLength.cmpRR (a : Reg) (b : Reg) : EncodingLength.Statement (.cmpRR a b) := ⟨_, rfl, rfl⟩
theorem EncodingLength.cmpRI (a : Reg) (fimm : F64) : EncodingLength.Statement (.cmpRI a fimm) := ⟨_, rfl, rfl⟩
theorem EncodingLength.mathAdd (d : Reg) (s : Reg) : EncodingLength.Statement (.mathAdd d s) := ⟨_, rfl, rfl⟩
theorem EncodingLength.mathSub (d : Reg) (s : Reg) : EncodingLength.Statement (.mathSub d s) := ⟨_, rfl, rfl⟩
theorem EncodingLength.mathMul (d : Reg) (s : Reg) : EncodingLength.Statement (.mathMul d s) := ⟨_, rfl, rfl⟩
theorem EncodingLength.mathDiv (d : Reg) (s : Reg) : EncodingLength.Statement (.mathDiv d s) := ⟨_, rfl, rfl⟩
theorem EncodingLength.mathMod (d : Reg) (s : Reg) : EncodingLength.Statement (.mathMod d s) := ⟨_, rfl, rfl⟩
theorem EncodingLength.mathSqrt (d : Reg) (s : Reg) : EncodingLength.Statement (.mathSqrt d s) := ⟨_, rfl, rfl⟩
theorem EncodingLength.mathLog (d : Reg) (s : Reg) : EncodingLength.Statement (.mathLog d s) := ⟨_, rfl, rfl⟩
theorem EncodingLength.andRR (d : Reg) (s : Reg) : EncodingLength.Statement (.andRR d s) := ⟨_, rfl, rfl⟩
theorem EncodingLength.andRI (d : Reg) (imm : Word) : EncodingLength.Statement (.andRI d imm) := ⟨_, rfl, rfl⟩
theorem EncodingLength.orRR (d : Reg) (s : Reg) : EncodingLength.Statement (.orRR d s) := ⟨_, rfl, rfl⟩
theorem EncodingLength.orRI (d : Reg) (imm : Word) : EncodingLength.Statement (.orRI d imm) := ⟨_, rfl, rfl⟩
theorem EncodingLength.xorRR (d : Reg) (s : Reg) : EncodingLength.Statement (.xorRR d s) := ⟨_, rfl, rfl⟩
theorem EncodingLength.xorRI (d : Reg) (imm : Word) : EncodingLength.Statement (.xorRI d imm) := ⟨_, rfl, rfl⟩
theorem EncodingLength.not (d : Reg) : EncodingLength.Statement (.not d) := ⟨_, rfl, rfl⟩
theorem EncodingLength.testRR (a : Reg) (b : Reg) : EncodingLength.Statement (.testRR a b) := ⟨_, rfl, rfl⟩
theorem EncodingLength.testRI (a : Reg) (imm : Word) : EncodingLength.Statement (.testRI a imm) := ⟨_, rfl, rfl⟩
theorem EncodingLength.shlRR (d : Reg) (s : Reg) : EncodingLength.Statement (.shlRR d s) := ⟨_, rfl, rfl⟩
theorem EncodingLength.shlRI (d : Reg) (imm : Word) : EncodingLength.Statement (.shlRI d imm) := ⟨_, rfl, rfl⟩
theorem EncodingLength.shrRR (d : Reg) (s : Reg) : EncodingLength.Statement (.shrRR d s) := ⟨_, rfl, rfl⟩
theorem EncodingLength.shrRI (d : Reg) (imm : Word) : EncodingLength.Statement (.shrRI d imm) := ⟨_, rfl, rfl⟩
theorem EncodingLength.sarRR (d : Reg) (s : Reg) : EncodingLength.Statement (.sarRR d s) := ⟨_, rfl, rfl⟩
theorem EncodingLength.sarRI (d : Reg) (imm : Word) : EncodingLength.Statement (.sarRI d imm) := ⟨_, rfl, rfl⟩
theorem EncodingLength.rolRR (d : Reg) (s : Reg) : EncodingLength.Statement (.rolRR d s) := ⟨_, rfl, rfl⟩
theorem EncodingLength.rolRI (d : Reg) (imm : Word) : EncodingLength.Statement (.rolRI d imm) := ⟨_, rfl, rfl⟩
theorem EncodingLength.rorRR (d : Reg) (s : Reg) : EncodingLength.Statement (.rorRR d s) := ⟨_, rfl, rfl⟩
theorem EncodingLength.rorRI (d : Reg) (imm : Word) : EncodingLength.Statement (.rorRI d imm) := ⟨_, rfl, rfl⟩
theorem EncodingLength.jmp (a : Addr) : EncodingLength.Statement (.jmp a) := ⟨_, rfl, rfl⟩
theorem EncodingLength.jz (a : Addr) : EncodingLength.Statement (.jz a) := ⟨_, rfl, rfl⟩
theorem EncodingLength.jnz (a : Addr) : EncodingLength.Statement (.jnz a) := ⟨_, rfl, rfl⟩
theorem EncodingLength.jg (a : Addr) : EncodingLength.Statement (.jg a) := ⟨_, rfl, rfl⟩
theorem EncodingLength.jge (a : Addr) : EncodingLength.Statement (.jge a) := ⟨_, rfl, rfl⟩
theorem EncodingLength.jl (a : Addr) : EncodingLength.Statement (.jl a) := ⟨_, rfl, rfl⟩
theorem EncodingLength.jle (a : Addr) : EncodingLength.Statement (.jle a) := ⟨_, rfl, rfl⟩
theorem EncodingLength.js (a : Addr) : EncodingLength.Statement (.js a) := ⟨_, rfl, rfl⟩
theorem EncodingLength.jns (a : Addr) : EncodingLength.Statement (.jns a) := ⟨_, rfl, rfl⟩
theorem EncodingLength.jc (a : Addr) : EncodingLength.Statement (.jc a) := ⟨_, rfl, rfl⟩
theorem EncodingLength.jnc (a : Addr) : EncodingLength.Statement (.jnc a) := ⟨_, rfl, rfl⟩
theorem EncodingLength.jo (a : Addr) : EncodingLength.Statement (.jo a) := ⟨_, rfl, rfl⟩
theorem EncodingLength.jno (a : Addr) : EncodingLength.Statement (.jno a) := ⟨_, rfl, rfl⟩
theorem EncodingLength.call (a : Addr) : EncodingLength.Statement (.call a) := ⟨_, rfl, rfl⟩
theorem EncodingLength.ret : EncodingLength.Statement (.ret) := ⟨_, rfl, rfl⟩
theorem EncodingLength.strLen (d : Reg) (s : Addr) : EncodingLength.Statement (.strLen d s) := ⟨_, rfl, rfl⟩
theorem EncodingLength.strCpy (d : Addr) (s : Addr) : EncodingLength.Statement (.strCpy d s) := ⟨_, rfl, rfl⟩
theorem EncodingLength.strCat (d : Addr) (s : Addr) : EncodingLength.Statement (.strCat d s) := ⟨_, rfl, rfl⟩
theorem EncodingLength.strCmp (d : Reg) (s1 : Addr) (s2 : Addr) : EncodingLength.Statement (.strCmp d s1 s2) := ⟨_, rfl, rfl⟩
theorem EncodingLength.strNcpy (d : Addr) (s : Addr) (n : Reg) : EncodingLength.Statement (.strNcpy d s n) := ⟨_, rfl, rfl⟩
theorem EncodingLength.strNcat (d : Addr) (s : Addr) (n : Reg) : EncodingLength.Statement (.strNcat d s n) := ⟨_, rfl, rfl⟩
theorem EncodingLength.strUpper (s : Addr) : EncodingLength.Statement (.strUpper s) := ⟨_, rfl, rfl⟩
theorem EncodingLength.strLower (s : Addr) : EncodingLength.Statement (.strLower s) := ⟨_, rfl, rfl⟩
theorem EncodingLength.strChr (d : Reg) (s : Addr) (c : Reg) : EncodingLength.Statement (.strChr d s c) := ⟨_, rfl, rfl⟩
theorem EncodingLength.strStr (d : Reg) (s : Addr) (t : Addr) : EncodingLength.Statement (.strStr d s t) := ⟨_, rfl, rfl⟩
theorem EncodingLength.memCpy (d : Addr) (s : Addr) (n : Reg) : EncodingLength.Statement (.memCpy d s n) := ⟨_, rfl, rfl⟩
theorem EncodingLength.memSet (d : Addr) (v : Reg) (n : Reg) : EncodingLength.Statement (.memSet d v n) := ⟨_, rfl, rfl⟩
theorem EncodingLength.memClr (d : Addr) (n : Reg) : EncodingLength.Statement (.memClr d n) := ⟨_, rfl, rfl⟩
theorem EncodingLength.sysGetch : EncodingLength.Statement (.sysGetch) := ⟨_, rfl, rfl⟩
theorem EncodingLength.sysKbhit : EncodingLength.Statement (.sysKbhit) := ⟨_, rfl, rfl⟩
theorem EncodingLength.sysPrintChar : EncodingLength.Statement (.sysPrintChar) := ⟨_, rfl, rfl⟩
theorem EncodingLength.sysPrintStr : EncodingLength.Statement (.sysPrintStr) := ⟨_, rfl, rfl⟩
theorem EncodingLength.sysNewline : EncodingLength.Statement (.sysNewline) := ⟨_, rfl, rfl⟩
theorem EncodingLength.sysSetCursor : EncodingLength.Statement (.sysSetCursor) := ⟨_, rfl, rfl⟩
theorem EncodingLength.sysGetCursor : EncodingLength.Statement (.sysGetCursor) := ⟨_, rfl, rfl⟩
theorem EncodingLength.sysSetColor : EncodingLength.Statement (.sysSetColor) := ⟨_, rfl, rfl⟩
theorem EncodingLength.sysResetColor : EncodingLength.Statement (.sysResetColor) := ⟨_, rfl, rfl⟩
theorem EncodingLength.sysPrintNum : EncodingLength.Statement (.sysPrintNum) := ⟨_, rfl, rfl⟩
theorem EncodingLength.sysPrintHex : EncodingLength.Statement (.sysPrintHex) := ⟨_, rfl, rfl⟩
theorem EncodingLength.sysNumToStr : EncodingLength.Statement (.sysNumToStr) := ⟨_, rfl, rfl⟩
theorem EncodingLength.sysReadLine : EncodingLength.Statement (.sysReadLine) := ⟨_, rfl, rfl⟩
theorem EncodingLength.sysClearScreen : EncodingLength.Statement (.sysClearScreen) := ⟨_, rfl, rfl⟩
theorem EncodingLength.sysSleep : EncodingLength.Statement (.sysSleep) := ⟨_, rfl, rfl⟩
theorem EncodingLength.sysVersion : EncodingLength.Statement (.sysVersion) := ⟨_, rfl, rfl⟩

end Sys2Proof.Laws
end

