-- ==== Sys2Proof/Laws/Scan.lean ====
section
/-! SUPPORT. What a scan finds (R301). -/

namespace Sys2Proof.Machine

/-- A scan that finds a 0 byte: every byte before it is not 0. -/
theorem scanZero_some {m : Memory} {fuel p k : Nat} (h : scanZero m fuel p = some k) :
    k < fuel ∧ m.get (p + k) = 0 ∧ ∀ j < k, m.get (p + j) ≠ 0 := by
  induction fuel generalizing p k with
  | zero => simp [scanZero] at h
  | succ fuel ih =>
    unfold scanZero at h
    split at h
    · next h0 => cases h; simpa using h0
    · next h0 =>
      obtain ⟨j, hj, rfl⟩ := Option.map_eq_some_iff.1 h
      obtain ⟨h1, h2, h3⟩ := ih hj
      refine ⟨by omega, by rw [← h2]; congr 1; omega, fun i hi => ?_⟩
      cases i with
      | zero => simpa using h0
      | succ i =>
        have := h3 i (by omega)
        rwa [show p + (i + 1) = p + 1 + i by omega]

/-- A scan that finds none: no byte it read is 0. -/
theorem scanZero_none {m : Memory} {fuel p : Nat} (h : scanZero m fuel p = none) :
    ∀ j < fuel, m.get (p + j) ≠ 0 := by
  induction fuel generalizing p with
  | zero => intro j hj; omega
  | succ fuel ih =>
    unfold scanZero at h
    split at h
    · cases h
    · next h0 =>
      intro j hj
      cases j with
      | zero => simpa using h0
      | succ j =>
        have := ih (Option.map_eq_none_iff.1 h) j (by omega)
        rwa [show p + (j + 1) = p + 1 + j by omega]

/-- A scan whose first 0 byte stands `k` bytes on finds it. -/
theorem scanZero_eq_some {m : Memory} {fuel p k : Nat} (hk : k < fuel) (h0 : m.get (p + k) = 0)
    (hn : ∀ j < k, m.get (p + j) ≠ 0) : scanZero m fuel p = some k := by
  cases h : scanZero m fuel p with
  | none => exact absurd h0 (scanZero_none h k hk)
  | some j =>
    obtain ⟨_, hj, hlt⟩ := scanZero_some h
    rcases Nat.lt_trichotomy j k with hjk | rfl | hjk
    · exact absurd hj (hn j hjk)
    · rfl
    · exact absurd h0 (hlt k hjk)

/-! ### The scan primitives on the strings of Safety.lean -/

theorem StringAt.scanZero {s : State} {a : Nat} {t : List Byte} (h : StringAt s a t) :
    scanZero s.mem (s.params.memSize - a) a = some t.length := by
  obtain ⟨hb, hn, h0, hl⟩ := h
  refine scanZero_eq_some (by omega) h0 fun j hj => ?_
  rw [hb j hj]
  exact hn _ (List.getElem_mem hj)

/-- The length of a terminated string (R301). -/
theorem strlenAt_of_stringAt {s : State} {a : Nat} {t : List Byte} (h : StringAt s a t) :
    strlenAt s a = .ok t.length := by
  rw [strlenAt, if_neg (by omega), Int.toNat_natCast, h.scanZero]

/-- The bytes of a terminated string (R301). -/
theorem strAt_of_stringAt {s : State} {a : Nat} {t : List Byte} (h : StringAt s a t) : strAt s a = .ok t := by
  have hl := h.2.2.2
  rw [strAt, strlenAt_of_stringAt h, bind_ok, memRead_of_inBounds ⟨by omega, by omega⟩, Int.toNat_natCast,
    readBytes_of_bytesAt h.1]

/-- Every length a scan answers is that of a terminated string inside Memory (R301). -/
theorem strlenAt_ok {s : State} {a : Int} {k : Nat} (h : strlenAt s a = .ok k) :
    0 ≤ a ∧ a + k < s.params.memSize ∧ s.mem.get (a.toNat + k) = 0 ∧ ∀ j < k, s.mem.get (a.toNat + j) ≠ 0 := by
  unfold strlenAt at h
  split at h
  · cases h
  · split at h
    · next ha j hj =>
      cases h
      obtain ⟨h1, h2, h3⟩ := scanZero_some hj
      exact ⟨by omega, by omega, h2, h3⟩
    · cases h

/-- The bytes a scan answers, none of them 0 (R301). -/
theorem strAt_ok {s : State} {a : Int} {t : List Byte} (h : strAt s a = .ok t) :
    0 ≤ a ∧ StringAt s a.toNat t := by
  obtain ⟨k, hk, hr⟩ := bind_ok_iff.1 h
  obtain ⟨h0, h1, h2, h3⟩ := strlenAt_ok hk
  obtain ⟨_, rfl⟩ := memRead_ok hr
  refine ⟨h0, fun j hj => by rw [Memory.getElem_readBytes], fun b hb => ?_, by simpa using h2, by simp; omega⟩
  obtain ⟨j, hj, rfl⟩ := List.getElem_of_mem hb
  rw [Memory.getElem_readBytes]
  exact h3 j (by simpa using hj)

/-- A scan with no 0 byte before the end of Memory faults at the first byte outside (R301). -/
theorem strlenAt_unterminated {s : State} {a : Nat} (h : ∀ x, a ≤ x → x < s.params.memSize → s.mem.get x ≠ 0) :
    strlenAt s a = .error (.outOfBounds (.addr (max a s.params.memSize : Nat)) 1) := by
  rw [strlenAt, if_neg (by omega)]
  cases hs : scanZero s.mem (s.params.memSize - (a : Int).toNat) (a : Int).toNat with
  | some k =>
    obtain ⟨h1, h2, _⟩ := scanZero_some hs
    exact absurd h2 (h _ (by omega) (by omega))
  | none => simp

theorem strAt_unterminated {s : State} {a : Nat} (h : ∀ x, a ≤ x → x < s.params.memSize → s.mem.get x ≠ 0) :
    strAt s a = .error (.outOfBounds (.addr (max a s.params.memSize : Nat)) 1) := by
  rw [strAt, strlenAt_unterminated h, bind_error]

/-- The bytes of a string of bounded length (R301). -/
theorem strnAt_of_boundedStringAt {s : State} {a n : Nat} {t : List Byte} (h : BoundedStringAt s a n t) :
    strnAt s a n = .ok t := by
  obtain ⟨hb, hn, hc⟩ := h
  have hne : ∀ j < t.length, s.mem.get (a + j) ≠ 0 := fun j hj => by
    rw [hb j hj]; exact hn _ (List.getElem_mem hj)
  have hlen : strnlenAt s a n = .ok t.length := by
    unfold strnlenAt
    rcases hc with ⟨rfl, hm⟩ | ⟨hlt, h0, hm⟩
    · split
      · next h0 => rw [h0]
      · rw [if_neg (by omega), Int.toNat_natCast]
        cases hs : Machine.scanZero s.mem (min t.length (s.params.memSize - a)) a with
        | some k =>
          obtain ⟨h1, h2, _⟩ := scanZero_some hs
          exact absurd h2 (hne k (by omega))
        | none => dsimp only; rw [if_pos (by omega)]
    · rw [if_neg (by omega), if_neg (by omega), Int.toNat_natCast,
        scanZero_eq_some (k := t.length) (by omega) h0 hne]
  have hm : inBounds s a t.length := by
    rcases hc with ⟨rfl, hm⟩ | ⟨_, _, hm⟩ <;> exact ⟨by omega, by omega⟩
  rw [strnAt, hlen, bind_ok, memRead_of_inBounds hm, Int.toNat_natCast, readBytes_of_bytesAt hb]

end Sys2Proof.Machine
end

