-- ==== Sys2Proof/Laws/Step.lean ====
section
/-! SUPPORT. What one step can do, said once: fetch, then one instruction or the fault of the fetch (R34, R88). -/

namespace Sys2Proof.Machine

variable {s t : State}

/-- A fetch that answers decoded the bytes at the PC (R88). -/
theorem fetch_ok {i : Instr} (h : fetch s = .ok i) : ∃ rest, decode (fetchWindow s) = .ok (i, rest) := by
  unfold fetch at h
  split at h
  · next j rest hd => cases h; exact ⟨rest, hd⟩
  · cases h

/-- A fetch that faults rejected the bytes at the PC, by the decoder's reason (R88). -/
theorem fetch_error {f : FaultRecord} (h : fetch s = .error f) :
    ∃ e, decode (fetchWindow s) = .error e ∧ f = fetchFault s.pc e := by
  unfold fetch at h
  split at h
  · cases h
  · next e hd => cases h; exact ⟨e, hd, rfl⟩

/-- The PC a rejected fetch records is the PC (R381). -/
theorem fetchFault_pc {pc p : Nat} {e : DecodeError} (h : (fetchFault pc e).pc? = some p) : p = pc := by
  cases e <;> simp_all [fetchFault, FaultRecord.pc?]

/-- Everything a step that answers a next state did. -/
theorem step_cases (h : step s = .next t) :
    s.status = .running ∧
      ((∃ i, fetch s = .ok i ∧ exec i s = .next t) ∨ ∃ f, fetch s = .error f ∧ t = faultEntry s f) := by
  unfold step at h
  split at h
  · cases h
  · cases h
  · next hr =>
    refine ⟨hr, ?_⟩
    split at h
    · next i hf => exact .inl ⟨i, hf, h⟩
    · next f hf =>
      rw [takeFault_eq] at h
      cases h
      exact .inr ⟨f, hf, rfl⟩

/-- A step of a running engine whose fetch answers. -/
theorem step_of_fetch {i : Instr} (hr : s.status = .running) (hf : fetch s = .ok i) : step s = exec i s := by
  unfold step
  rw [hr]
  dsimp only
  rw [hf]

/-- A step of a running engine whose fetch faults. -/
theorem step_of_fetch_error {f : FaultRecord} (hr : s.status = .running) (hf : fetch s = .error f) :
    step s = .next (faultEntry s f) := by
  unfold step
  rw [hr]
  dsimp only
  rw [hf]
  rfl

/-- Placing an instruction keeps the canonical form of Memory, whatever its size. -/
theorem placeCode_keeps_wf (s : State) (bs : List Byte) (hw : s.mem.wf s.params.memSize) :
    (s.placeCode bs).mem.wf (s.placeCode bs).params.memSize := by
  refine Memory.wf_writeBytes hw ?_
  have hp : fetchPlace s ≤ s.params.memSize := by
    unfold fetchPlace Config.resetPc
    split <;> omega
  rw [List.length_take]
  omega

end Sys2Proof.Machine
end

