-- ==== Sys2Proof/Tests/Slice0.lean ====
section
/-! SUPPORT. Tests: the well-formedness smoke test, a decoding of every constructor written out from R82 and R86,
one-step tests whose expected values are the vectors of spec/95_test_vectors.md, and for every obligation with
hypotheses a state and operands that meet them. -/

namespace Sys2Proof.Tests

open Sys2Proof Sys2Proof.Machine

-- The kernel decides one theorem after another: side by side, each waits on a thread of its own.
set_option Elab.async false

/-! ### Well-formedness: an address of 2^32 in any address field is refused (R81) -/

/-- Data movement. -/
theorem test_wellFormed_refuses_DataMove :
    ¬ (Instr.movRM (.r 0) 0x100000000).WellFormed ∧
    ¬ (Instr.movMR 0x100000000 (.r 0)).WellFormed ∧
    ¬ (Instr.movbRM (.r 0) 0x100000000).WellFormed ∧
    ¬ (Instr.movbMR 0x100000000 (.r 0)).WellFormed ∧
    ¬ (Instr.lea (.r 0) 0x100000000).WellFormed := by
  decide

/-- Control flow. -/
theorem test_wellFormed_refuses_Control :
    ¬ (Instr.jmp 0x100000000).WellFormed ∧
    ¬ (Instr.jz 0x100000000).WellFormed ∧
    ¬ (Instr.jnz 0x100000000).WellFormed ∧
    ¬ (Instr.jg 0x100000000).WellFormed ∧
    ¬ (Instr.jge 0x100000000).WellFormed ∧
    ¬ (Instr.jl 0x100000000).WellFormed ∧
    ¬ (Instr.jle 0x100000000).WellFormed ∧
    ¬ (Instr.js 0x100000000).WellFormed ∧
    ¬ (Instr.jns 0x100000000).WellFormed ∧
    ¬ (Instr.jc 0x100000000).WellFormed ∧
    ¬ (Instr.jnc 0x100000000).WellFormed ∧
    ¬ (Instr.jo 0x100000000).WellFormed ∧
    ¬ (Instr.jno 0x100000000).WellFormed ∧
    ¬ (Instr.call 0x100000000).WellFormed := by
  decide

/-- Strings and blocks. -/
theorem test_wellFormed_refuses_Strings :
    ¬ (Instr.strLen (.r 0) 0x100000000).WellFormed ∧
    ¬ (Instr.strCpy 0x100000000 0xFFFFFFFF).WellFormed ∧
    ¬ (Instr.strCpy 0xFFFFFFFF 0x100000000).WellFormed ∧
    ¬ (Instr.strCat 0x100000000 0xFFFFFFFF).WellFormed ∧
    ¬ (Instr.strCat 0xFFFFFFFF 0x100000000).WellFormed ∧
    ¬ (Instr.strCmp (.r 0) 0x100000000 0xFFFFFFFF).WellFormed ∧
    ¬ (Instr.strCmp (.r 0) 0xFFFFFFFF 0x100000000).WellFormed ∧
    ¬ (Instr.strNcpy 0x100000000 0xFFFFFFFF (.r 0)).WellFormed ∧
    ¬ (Instr.strNcpy 0xFFFFFFFF 0x100000000 (.r 0)).WellFormed ∧
    ¬ (Instr.strNcat 0x100000000 0xFFFFFFFF (.r 0)).WellFormed ∧
    ¬ (Instr.strNcat 0xFFFFFFFF 0x100000000 (.r 0)).WellFormed ∧
    ¬ (Instr.strUpper 0x100000000).WellFormed ∧
    ¬ (Instr.strLower 0x100000000).WellFormed ∧
    ¬ (Instr.strChr (.r 0) 0x100000000 (.r 0)).WellFormed ∧
    ¬ (Instr.strStr (.r 0) 0x100000000 0xFFFFFFFF).WellFormed ∧
    ¬ (Instr.strStr (.r 0) 0xFFFFFFFF 0x100000000).WellFormed ∧
    ¬ (Instr.memCpy 0x100000000 0xFFFFFFFF (.r 0)).WellFormed ∧
    ¬ (Instr.memCpy 0xFFFFFFFF 0x100000000 (.r 0)).WellFormed ∧
    ¬ (Instr.memSet 0x100000000 (.r 0) (.r 0)).WellFormed ∧
    ¬ (Instr.memClr 0x100000000 (.r 0)).WellFormed := by
  decide

theorem test_wellFormed_accepts : (Instr.jmp 0xFFFFFFFF).WellFormed ∧ (Instr.strCpy 0 0xFFFFFFFF).WellFormed ∧
    Instr.nop.WellFormed := by
  decide

/-! ### Decoding: the bytes of R82 and R86, written out -/

theorem test_decode_Control :
    decode [0x00] = .ok (.nop, []) ∧
    decode [0x01] = .ok (.hlt, []) ∧
    decode [0x70, 0x00, 0x01, 0x00, 0x00] = .ok ((.jmp 0x100), []) ∧
    decode [0x71, 0x78, 0x56, 0x34, 0x12] = .ok ((.jz 0x12345678), []) ∧
    decode [0x72, 0xFF, 0xFF, 0xFF, 0xFF] = .ok ((.jnz 0xFFFFFFFF), []) ∧
    decode [0x73, 0x00, 0x01, 0x00, 0x00] = .ok ((.jg 0x100), []) ∧
    decode [0x74, 0x78, 0x56, 0x34, 0x12] = .ok ((.jge 0x12345678), []) ∧
    decode [0x75, 0xFF, 0xFF, 0xFF, 0xFF] = .ok ((.jl 0xFFFFFFFF), []) ∧
    decode [0x76, 0x00, 0x01, 0x00, 0x00] = .ok ((.jle 0x100), []) ∧
    decode [0x77, 0x78, 0x56, 0x34, 0x12] = .ok ((.js 0x12345678), []) ∧
    decode [0x78, 0xFF, 0xFF, 0xFF, 0xFF] = .ok ((.jns 0xFFFFFFFF), []) ∧
    decode [0x79, 0x00, 0x01, 0x00, 0x00] = .ok ((.jc 0x100), []) ∧
    decode [0x7A, 0x78, 0x56, 0x34, 0x12] = .ok ((.jnc 0x12345678), []) ∧
    decode [0x7B, 0xFF, 0xFF, 0xFF, 0xFF] = .ok ((.jo 0xFFFFFFFF), []) ∧
    decode [0x7C, 0x00, 0x01, 0x00, 0x00] = .ok ((.jno 0x100), []) ∧
    decode [0x7D, 0x78, 0x56, 0x34, 0x12] = .ok ((.call 0x12345678), []) ∧
    decode [0x7E] = .ok (.ret, []) :=
  ⟨rfl, rfl, rfl, rfl, rfl, rfl, rfl, rfl, rfl, rfl, rfl, rfl, rfl, rfl, rfl, rfl, rfl⟩

theorem test_decode_DataMove :
    decode [0x10, 0x20, 0x24] = .ok ((.movRR (.sp) (.f 3)), []) ∧
    decode [0x11, 0x1F, 0x00, 0x00, 0x00, 0x00, 0x00, 0x00, 0x24, 0x40] = .ok ((.movRI (.r 31) 0x4024000000000000#64), []) ∧
    decode [0x12, 0x28, 0x78, 0x56, 0x34, 0x12] = .ok ((.movRM (.of) 0x12345678), []) ∧
    decode [0x13, 0xFF, 0xFF, 0xFF, 0xFF, 0x00] = .ok ((.movMR 0xFFFFFFFF (.r 0)), []) ∧
    decode [0x14, 0x20, 0x24] = .ok ((.movRMI (.sp) (.f 3)), []) ∧
    decode [0x15, 0x1F, 0x25] = .ok ((.movMRI (.r 31) (.zf)), []) ∧
    decode [0x16, 0x28, 0x00, 0x01, 0x00, 0x00] = .ok ((.movbRM (.of) 0x100), []) ∧
    decode [0x17, 0x78, 0x56, 0x34, 0x12, 0x00] = .ok ((.movbMR 0x12345678 (.r 0)), []) ∧
    decode [0x18, 0x20, 0x24] = .ok ((.movbRMI (.sp) (.f 3)), []) ∧
    decode [0x19, 0x1F, 0x25] = .ok ((.movbMRI (.r 31) (.zf)), []) ∧
    decode [0x1A, 0x28, 0x07] = .ok ((.movzx (.of) (.r 7)), []) ∧
    decode [0x1B, 0x21, 0x00] = .ok ((.movsx (.f 0) (.r 0)), []) ∧
    decode [0x1C, 0x20, 0x00, 0x01, 0x00, 0x00] = .ok ((.lea (.sp) 0x100), []) ∧
    decode [0x20, 0x1F] = .ok ((.push (.r 31)), []) ∧
    decode [0x21, 0x25] = .ok ((.pop (.zf)), []) :=
  ⟨rfl, rfl, rfl, rfl, rfl, rfl, rfl, rfl, rfl, rfl, rfl, rfl, rfl, rfl, rfl⟩

theorem test_decode_FloatArith :
    decode [0x30, 0x28, 0x07] = .ok ((.addRR (.of) (.r 7)), []) ∧
    decode [0x31, 0x21, 0x00, 0x00, 0x00, 0x00, 0x00, 0x00, 0x24, 0x40] = .ok ((.addRI (.f 0) 0x4024000000000000#64), []) ∧
    decode [0x32, 0x20, 0x24] = .ok ((.subRR (.sp) (.f 3)), []) ∧
    decode [0x33, 0x1F, 0x00, 0x00, 0x00, 0x00, 0x00, 0x00, 0x24, 0x40] = .ok ((.subRI (.r 31) 0x4024000000000000#64), []) ∧
    decode [0x34, 0x28, 0x07] = .ok ((.mulRR (.of) (.r 7)), []) ∧
    decode [0x35, 0x21, 0x00, 0x00, 0x00, 0x00, 0x00, 0x00, 0x24, 0x40] = .ok ((.mulRI (.f 0) 0x4024000000000000#64), []) ∧
    decode [0x36, 0x20, 0x24] = .ok ((.divRR (.sp) (.f 3)), []) ∧
    decode [0x37, 0x1F, 0x00, 0x00, 0x00, 0x00, 0x00, 0x00, 0x24, 0x40] = .ok ((.divRI (.r 31) 0x4024000000000000#64), []) ∧
    decode [0x38, 0x28, 0x07] = .ok ((.modRR (.of) (.r 7)), []) ∧
    decode [0x39, 0x21, 0x00, 0x00, 0x00, 0x00, 0x00, 0x00, 0x24, 0x40] = .ok ((.modRI (.f 0) 0x4024000000000000#64), []) ∧
    decode [0x3A, 0x20] = .ok ((.neg (.sp)), []) ∧
    decode [0x3B, 0x24] = .ok ((.inc (.f 3)), []) ∧
    decode [0x3C, 0x1F] = .ok ((.dec (.r 31)), []) ∧
    decode [0x3D, 0x25, 0x28] = .ok ((.cmpRR (.zf) (.of)), []) ∧
    decode [0x3E, 0x07, 0x00, 0x00, 0x00, 0x00, 0x00, 0x00, 0x24, 0x40] = .ok ((.cmpRI (.r 7) 0x4024000000000000#64), []) ∧
    decode [0x40, 0x00, 0x20] = .ok ((.mathAdd (.r 0) (.sp)), []) ∧
    decode [0x41, 0x24, 0x1F] = .ok ((.mathSub (.f 3) (.r 31)), []) ∧
    decode [0x42, 0x25, 0x28] = .ok ((.mathMul (.zf) (.of)), []) ∧
    decode [0x43, 0x07, 0x21] = .ok ((.mathDiv (.r 7) (.f 0)), []) ∧
    decode [0x44, 0x00, 0x20] = .ok ((.mathMod (.r 0) (.sp)), []) ∧
    decode [0x45, 0x24, 0x1F] = .ok ((.mathSqrt (.f 3) (.r 31)), []) ∧
    decode [0x46, 0x25, 0x28] = .ok ((.mathLog (.zf) (.of)), []) :=
  ⟨rfl, rfl, rfl, rfl, rfl, rfl, rfl, rfl, rfl, rfl, rfl, rfl, rfl, rfl, rfl, rfl, rfl, rfl, rfl, rfl, rfl, rfl⟩

theorem test_decode_Integer :
    decode [0x50, 0x07, 0x21] = .ok ((.andRR (.r 7) (.f 0)), []) ∧
    decode [0x51, 0x00, 0x01, 0x00, 0x00, 0x80] = .ok ((.andRI (.r 0) 0x80000001#32), []) ∧
    decode [0x52, 0x24, 0x1F] = .ok ((.orRR (.f 3) (.r 31)), []) ∧
    decode [0x53, 0x25, 0x01, 0x00, 0x00, 0x80] = .ok ((.orRI (.zf) 0x80000001#32), []) ∧
    decode [0x54, 0x07, 0x21] = .ok ((.xorRR (.r 7) (.f 0)), []) ∧
    decode [0x55, 0x00, 0x01, 0x00, 0x00, 0x80] = .ok ((.xorRI (.r 0) 0x80000001#32), []) ∧
    decode [0x56, 0x24] = .ok ((.not (.f 3)), []) ∧
    decode [0x57, 0x1F, 0x25] = .ok ((.testRR (.r 31) (.zf)), []) ∧
    decode [0x58, 0x28, 0x01, 0x00, 0x00, 0x80] = .ok ((.testRI (.of) 0x80000001#32), []) ∧
    decode [0x59, 0x21, 0x00] = .ok ((.shlRR (.f 0) (.r 0)), []) ∧
    decode [0x5A, 0x20, 0x01, 0x00, 0x00, 0x80] = .ok ((.shlRI (.sp) 0x80000001#32), []) ∧
    decode [0x5B, 0x1F, 0x25] = .ok ((.shrRR (.r 31) (.zf)), []) ∧
    decode [0x5C, 0x28, 0x01, 0x00, 0x00, 0x80] = .ok ((.shrRI (.of) 0x80000001#32), []) ∧
    decode [0x5D, 0x21, 0x00] = .ok ((.sarRR (.f 0) (.r 0)), []) ∧
    decode [0x5E, 0x20, 0x01, 0x00, 0x00, 0x80] = .ok ((.sarRI (.sp) 0x80000001#32), []) ∧
    decode [0x5F, 0x1F, 0x25] = .ok ((.rolRR (.r 31) (.zf)), []) ∧
    decode [0x60, 0x28, 0x01, 0x00, 0x00, 0x80] = .ok ((.rolRI (.of) 0x80000001#32), []) ∧
    decode [0x61, 0x21, 0x00] = .ok ((.rorRR (.f 0) (.r 0)), []) ∧
    decode [0x62, 0x20, 0x01, 0x00, 0x00, 0x80] = .ok ((.rorRI (.sp) 0x80000001#32), []) :=
  ⟨rfl, rfl, rfl, rfl, rfl, rfl, rfl, rfl, rfl, rfl, rfl, rfl, rfl, rfl, rfl, rfl, rfl, rfl, rfl⟩

theorem test_decode_Strings :
    decode [0x80, 0x20, 0x00, 0x01, 0x00, 0x00] = .ok ((.strLen (.sp) 0x100), []) ∧
    decode [0x81, 0x78, 0x56, 0x34, 0x12, 0xFF, 0xFF, 0xFF, 0xFF] = .ok ((.strCpy 0x12345678 0xFFFFFFFF), []) ∧
    decode [0x82, 0x00, 0x01, 0x00, 0x00, 0x78, 0x56, 0x34, 0x12] = .ok ((.strCat 0x100 0x12345678), []) ∧
    decode [0x83, 0x21, 0x00, 0x01, 0x00, 0x00, 0x78, 0x56, 0x34, 0x12] = .ok ((.strCmp (.f 0) 0x100 0x12345678), []) ∧
    decode [0x84, 0xFF, 0xFF, 0xFF, 0xFF, 0x00, 0x01, 0x00, 0x00, 0x25] = .ok ((.strNcpy 0xFFFFFFFF 0x100 (.zf)), []) ∧
    decode [0x85, 0xFF, 0xFF, 0xFF, 0xFF, 0x00, 0x01, 0x00, 0x00, 0x21] = .ok ((.strNcat 0xFFFFFFFF 0x100 (.f 0)), []) ∧
    decode [0x86, 0xFF, 0xFF, 0xFF, 0xFF] = .ok ((.strUpper 0xFFFFFFFF), []) ∧
    decode [0x87, 0x00, 0x01, 0x00, 0x00] = .ok ((.strLower 0x100), []) ∧
    decode [0x88, 0x24, 0xFF, 0xFF, 0xFF, 0xFF, 0x25] = .ok ((.strChr (.f 3) 0xFFFFFFFF (.zf)), []) ∧
    decode [0x89, 0x28, 0xFF, 0xFF, 0xFF, 0xFF, 0x00, 0x01, 0x00, 0x00] = .ok ((.strStr (.of) 0xFFFFFFFF 0x100), []) ∧
    decode [0x8A, 0x78, 0x56, 0x34, 0x12, 0xFF, 0xFF, 0xFF, 0xFF, 0x24] = .ok ((.memCpy 0x12345678 0xFFFFFFFF (.f 3)), []) ∧
    decode [0x8B, 0x78, 0x56, 0x34, 0x12, 0x25, 0x28] = .ok ((.memSet 0x12345678 (.zf) (.of)), []) ∧
    decode [0x8C, 0x78, 0x56, 0x34, 0x12, 0x21] = .ok ((.memClr 0x12345678 (.f 0)), []) :=
  ⟨rfl, rfl, rfl, rfl, rfl, rfl, rfl, rfl, rfl, rfl, rfl, rfl, rfl⟩

theorem test_decode_HostIO :
    decode [0xA0] = .ok (.sysGetch, []) ∧
    decode [0xA1] = .ok (.sysKbhit, []) ∧
    decode [0xA2] = .ok (.sysPrintChar, []) ∧
    decode [0xA3] = .ok (.sysPrintStr, []) ∧
    decode [0xA4] = .ok (.sysNewline, []) ∧
    decode [0xA5] = .ok (.sysSetCursor, []) ∧
    decode [0xA6] = .ok (.sysGetCursor, []) ∧
    decode [0xA7] = .ok (.sysSetColor, []) ∧
    decode [0xA8] = .ok (.sysResetColor, []) ∧
    decode [0xA9] = .ok (.sysPrintNum, []) ∧
    decode [0xAA] = .ok (.sysPrintHex, []) ∧
    decode [0xAB] = .ok (.sysNumToStr, []) ∧
    decode [0xAC] = .ok (.sysReadLine, []) ∧
    decode [0xAD] = .ok (.sysClearScreen, []) ∧
    decode [0xAE] = .ok (.sysSleep, []) ∧
    decode [0xAF] = .ok (.sysVersion, []) :=
  ⟨rfl, rfl, rfl, rfl, rfl, rfl, rfl, rfl, rfl, rfl, rfl, rfl, rfl, rfl, rfl, rfl⟩

/-- What the decoder refuses, by name (R87, R88, R89). -/
theorem test_decode_refuses :
    decode [] = .error .noByte ∧ decode [0x02] = .error (.unknownOpcode 0x02) ∧
    decode [0xFF, 0x00] = .error (.unknownOpcode 0xFF) ∧ decode [0x30, 0x00] = .error (.truncated 3) ∧
    decode [0x10, 0x00, 0x29] = .error (.badRegister 0x29) ∧
    decode [0x10, 0xFF, 0x29] = .error (.badRegister 0xFF) :=
  ⟨rfl, rfl, rfl, rfl, rfl, rfl⟩

/-! ### One step on the vectors of 95_test_vectors -/

/-- Four flags from the binary digits ZF SF CF OF. -/
def zsco (n : Nat) : Flags where
  zero := n / 8 % 2 == 1
  sign := n / 4 % 2 == 1
  carry := n / 2 % 2 == 1
  overflow := n % 2 == 1

/-- The state of a vector before its step: reset, then registers, flags, PC and runs of bytes. -/
def start (regs : List (Reg × F64)) (flags pc : Nat) (bytes : List (Nat × List Byte)) : State :=
  { regs.foldl (fun s p => s.writeReg p.1 p.2) State.reset with
    flags := zsco flags
    pc := pc
    mem := bytes.foldl (fun m p => m.writeBytes p.1 p.2) [] }

/-- The state after one step, or the state itself where there is none. -/
def after (s : State) : State :=
  match step s with
  | .next t => t
  | .fault _ => s
  | .refused _ => s

/-- Registers and bytes of Memory read as listed and the PC is this. -/
def showsData (s : State) (regs : List (Reg × F64)) (pc : Nat) (bytes : List (Nat × List Byte)) : Bool :=
  regs.all (fun p => s.readReg p.1 == p.2) && s.pc == pc &&
    bytes.all fun p => s.mem.readBytes p.1 p.2.length == p.2

/-- The same, and all four flags are these. -/
def shows (s : State) (regs : List (Reg × F64)) (flags pc : Nat) (bytes : List (Nat × List Byte)) : Bool :=
  showsData s regs pc bytes && s.flags == zsco flags

/-- The same, but for CF, which is free after a shift (R170). -/
def showsShift (s : State) (regs : List (Reg × F64)) (flags pc : Nat) (bytes : List (Nat × List Byte)) : Bool :=
  showsData s regs pc bytes && s.flags.zero == (zsco flags).zero && s.flags.sign == (zsco flags).sign &&
    s.flags.overflow == (zsco flags).overflow

/-! Float arithmetic -/

theorem test_step_addRR_to_mulRI :
    -- V1: ADD R0, R1
    shows (after (start [(.r 0, 0x3FF8000000000000), (.r 1, 0x4002000000000000)] 0b0000 0x100
      [(0x100, [0x30, 0x00, 0x01])]))
      [(.r 0, 0x400E000000000000), (.r 1, 0x4002000000000000)] 0b0000 0x103 [] = true ∧
    -- V4: ADD R0, 0.1
    shows (after (start [(.r 0, 0x3FC999999999999A)] 0b0000 0x100
      [(0x100, [0x31, 0x00, 0x9A, 0x99, 0x99, 0x99, 0x99, 0x99, 0xB9, 0x3F])]))
      [(.r 0, 0x3FD3333333333334)] 0b0000 0x10A [] = true ∧
    -- V5: SUB R0, R1
    shows (after (start [(.r 0, 0x4014000000000000), (.r 1, 0x4014000000000000)] 0b0000 0x100
      [(0x100, [0x32, 0x00, 0x01])]))
      [(.r 0, 0x0), (.r 1, 0x4014000000000000)] 0b1000 0x103 [] = true ∧
    -- V6: SUB R0, 1e-10
    shows (after (start [(.r 0, 0x0)] 0b0000 0x100
      [(0x100, [0x33, 0x00, 0xBB, 0xBD, 0xD7, 0xD9, 0xDF, 0x7C, 0xDB, 0x3D])]))
      [(.r 0, 0xBDDB7CDFD9D7BDBB)] 0b1100 0x10A [] = true ∧
    -- V8: MUL R0, R1
    shows (after (start [(.r 0, 0xC000000000000000), (.r 1, 0x4008000000000000)] 0b0000 0x100
      [(0x100, [0x34, 0x00, 0x01])]))
      [(.r 0, 0xC018000000000000), (.r 1, 0x4008000000000000)] 0b0100 0x103 [] = true ∧
    -- V9: MUL R0, 1e-300
    shows (after (start [(.r 0, 0x1A56E1FC2F8F359)] 0b0000 0x100
      [(0x100, [0x35, 0x00, 0x59, 0xF3, 0xF8, 0xC2, 0x1F, 0x6E, 0xA5, 0x01])]))
      [(.r 0, 0x0)] 0b1000 0x10A [] = true := by
  decide +kernel

theorem test_step_divRR_to_dec :
    -- V10: DIV R0, R1
    shows (after (start [(.r 0, 0x401C000000000000), (.r 1, 0x4000000000000000)] 0b0000 0x100
      [(0x100, [0x36, 0x00, 0x01])]))
      [(.r 0, 0x400C000000000000), (.r 1, 0x4000000000000000)] 0b0000 0x103 [] = true ∧
    -- V15: MOD R0, R1
    shows (after (start [(.r 0, 0xC01C000000000000), (.r 1, 0x4008000000000000)] 0b0000 0x100
      [(0x100, [0x38, 0x00, 0x01])]))
      [(.r 0, 0xBFF0000000000000), (.r 1, 0x4008000000000000)] 0b0100 0x103 [] = true ∧
    -- V17: MOD R0, 2.5
    shows (after (start [(.r 0, 0x401E000000000000)] 0b0000 0x100
      [(0x100, [0x39]), (0x108, [0x04, 0x40])]))
      [(.r 0, 0x0)] 0b1000 0x10A [] = true ∧
    -- V19: NEG R0
    shows (after (start [(.r 0, 0x0)] 0b0000 0x100
      [(0x100, [0x3A])]))
      [(.r 0, 0x8000000000000000)] 0b1000 0x102 [] = true ∧
    -- V21: INC R0
    shows (after (start [(.r 0, 0xBFF0000000000000)] 0b0000 0x100
      [(0x100, [0x3B])]))
      [(.r 0, 0x0)] 0b1000 0x102 [] = true ∧
    -- V22: DEC R0
    shows (after (start [(.r 0, 0x0)] 0b0000 0x100
      [(0x100, [0x3C])]))
      [(.r 0, 0xBFF0000000000000)] 0b0100 0x102 [] = true := by
  decide +kernel

theorem test_step_cmpRR_to_mathMod :
    -- V24: CMP R0, R0
    shows (after (start [(.r 0, 0x400D99999999999A)] 0b0000 0x100
      [(0x100, [0x3D])]))
      [(.r 0, 0x400D99999999999A)] 0b1000 0x103 [] = true ∧
    -- V29: CMP R0, 10.0
    shows (after (start [(.r 0, 0x4008000000000000)] 0b0000 0x100
      [(0x100, [0x3E]), (0x108, [0x24, 0x40])]))
      [(.r 0, 0x4008000000000000)] 0b0100 0x10A [] = true ∧
    -- V30: MATH_ADD R0, R1
    shows (after (start [(.r 0, 0x3FF0000000000000), (.r 1, 0xBFF0000000000000)] 0b0000 0x100
      [(0x100, [0x40, 0x00, 0x01])]))
      [(.r 0, 0x0), (.r 1, 0xBFF0000000000000)] 0b1000 0x103 [] = true ∧
    -- V31: MATH_SUB R0, R1
    shows (after (start [(.r 0, 0x3FF0000000000000), (.r 1, 0x4010000000000000)] 0b0000 0x100
      [(0x100, [0x41, 0x00, 0x01])]))
      [(.r 0, 0xC008000000000000), (.r 1, 0x4010000000000000)] 0b0100 0x103 [] = true ∧
    -- V32: MATH_MUL R0, R1
    shows (after (start [(.r 0, 0x6974E718D7D7625A), (.r 1, 0xE974E718D7D7625A)] 0b0000 0x100
      [(0x100, [0x42, 0x00, 0x01])]))
      [(.r 0, 0xFFF0000000000000), (.r 1, 0xE974E718D7D7625A)] 0b0111 0x103 [] = true ∧
    -- V34: MATH_MOD R0, R1
    shows (after (start [(.r 0, 0x4024000000000000), (.r 1, 0x4010000000000000)] 0b0000 0x100
      [(0x100, [0x44, 0x00, 0x01])]))
      [(.r 0, 0x4000000000000000), (.r 1, 0x4010000000000000)] 0b0000 0x103 [] = true := by
  decide +kernel

theorem test_step_mathSqrt_to_mathLog :
    -- V35: MATH_SQRT R0, R1
    shows (after (start [(.r 1, 0x4000000000000000)] 0b0000 0x100
      [(0x100, [0x45, 0x00, 0x01])]))
      [(.r 0, 0x3FF6A09E667F3BCD), (.r 1, 0x4000000000000000)] 0b0000 0x103 [] = true ∧
    -- V39: MATH_LOG R0, R1
    shows (after (start [(.r 0, 0x4022000000000000), (.r 1, 0x3FF0000000000000)] 0b0000 0x100
      [(0x100, [0x46, 0x00, 0x01])]))
      [(.r 0, 0x0), (.r 1, 0x3FF0000000000000)] 0b1000 0x103 [] = true := by
  decide +kernel

/-! Integer -/

theorem test_step_andRR_to_xorRI :
    -- V40: AND R0, R1
    shows (after (start [(.r 0, 0x40EE1E0000000000), (.r 1, 0x40AFE00000000000)] 0b0000 0x100
      [(0x100, [0x50, 0x00, 0x01])]))
      [(.r 0, 0x406E000000000000), (.r 1, 0x40AFE00000000000)] 0b0000 0x103 [] = true ∧
    -- V41: AND R0, 0xFFFFFFFF
    shows (after (start [(.r 0, 0xBFF0000000000000)] 0b0000 0x100
      [(0x100, [0x51, 0x00, 0xFF, 0xFF, 0xFF, 0xFF])]))
      [(.r 0, 0x41EFFFFFFFE00000)] 0b0100 0x106 [] = true ∧
    -- V44: OR R0, R1
    shows (after (start [(.r 0, 0x3FF0000000000000), (.r 1, 0x4000000000000000)] 0b0000 0x100
      [(0x100, [0x52, 0x00, 0x01])]))
      [(.r 0, 0x4008000000000000), (.r 1, 0x4000000000000000)] 0b0000 0x103 [] = true ∧
    -- V45: OR R0, 0x80000000
    shows (after (start [(.r 0, 0x3FF8000000000000)] 0b0000 0x100
      [(0x100, [0x53]), (0x105, [0x80])]))
      [(.r 0, 0x41E0000000200000)] 0b0100 0x106 [] = true ∧
    -- V46: XOR R0, R0
    shows (after (start [(.r 0, 0x40C81C8000000000)] 0b0000 0x100
      [(0x100, [0x54])]))
      [(.r 0, 0x0)] 0b1000 0x103 [] = true ∧
    -- V47: XOR R0, 0xFFFFFFFF
    shows (after (start [(.r 0, 0x0)] 0b0000 0x100
      [(0x100, [0x55, 0x00, 0xFF, 0xFF, 0xFF, 0xFF])]))
      [(.r 0, 0x41EFFFFFFFE00000)] 0b0100 0x106 [] = true := by
  decide +kernel

theorem test_step_not_to_shrRI :
    -- V48: NOT R0
    shows (after (start [(.r 0, 0x0)] 0b0000 0x100
      [(0x100, [0x56])]))
      [(.r 0, 0x41EFFFFFFFE00000)] 0b0100 0x102 [] = true ∧
    -- V50: TEST R0, R1
    shows (after (start [(.r 0, 0x406E000000000000), (.r 1, 0x402E000000000000)] 0b0000 0x100
      [(0x100, [0x57, 0x00, 0x01])]))
      [(.r 0, 0x406E000000000000), (.r 1, 0x402E000000000000)] 0b1000 0x103 [] = true ∧
    -- V51: TEST R0, 0x80000000
    shows (after (start [(.r 0, 0xBFF0000000000000)] 0b0000 0x100
      [(0x100, [0x58]), (0x105, [0x80])]))
      [(.r 0, 0xBFF0000000000000)] 0b0100 0x106 [] = true ∧
    -- V52: SHL R0, R1
    showsShift (after (start [(.r 0, 0x3FF0000000000000), (.r 1, 0x403F000000000000)] 0b0000 0x100
      [(0x100, [0x59, 0x00, 0x01])]))
      [(.r 0, 0x41E0000000000000), (.r 1, 0x403F000000000000)] 0b0100 0x103 [] = true ∧
    -- V54: SHL R0, 4
    showsShift (after (start [(.r 0, 0x4008000000000000)] 0b0000 0x100
      [(0x100, [0x5A, 0x00, 0x04])]))
      [(.r 0, 0x4048000000000000)] 0b0000 0x106 [] = true ∧
    -- V55: SHR R0, 1
    showsShift (after (start [(.r 0, 0xC000000000000000)] 0b0000 0x100
      [(0x100, [0x5C, 0x00, 0x01])]))
      [(.r 0, 0x41DFFFFFFFC00000)] 0b0000 0x106 [] = true := by
  decide +kernel

theorem test_step_shrRR_to_rorRI :
    -- V56: SHR R0, R1
    showsShift (after (start [(.r 0, 0x406FE00000000000), (.r 1, 0x4059000000000000)] 0b0000 0x100
      [(0x100, [0x5B, 0x00, 0x01])]))
      [(.r 0, 0x0), (.r 1, 0x4059000000000000)] 0b1000 0x103 [] = true ∧
    -- V57: SAR R0, 1
    showsShift (after (start [(.r 0, 0xC020000000000000)] 0b0000 0x100
      [(0x100, [0x5E, 0x00, 0x01])]))
      [(.r 0, 0xC010000000000000)] 0b0100 0x106 [] = true ∧
    -- V59: SAR R0, R1
    showsShift (after (start [(.r 0, 0x4020000000000000), (.r 1, 0x4044000000000000)] 0b0000 0x100
      [(0x100, [0x5D, 0x00, 0x01])]))
      [(.r 0, 0x0), (.r 1, 0x4044000000000000)] 0b1000 0x103 [] = true ∧
    -- V61: ROL R0, 1
    showsShift (after (start [(.r 0, 0x41E0000000200000)] 0b0000 0x100
      [(0x100, [0x60, 0x00, 0x01])]))
      [(.r 0, 0x4008000000000000)] 0b0000 0x106 [] = true ∧
    -- V62: ROL R0, R1
    showsShift (after (start [(.r 0, 0x3FF0000000000000), (.r 1, 0x4040800000000000)] 0b0000 0x100
      [(0x100, [0x5F, 0x00, 0x01])]))
      [(.r 0, 0x4000000000000000), (.r 1, 0x4040800000000000)] 0b0000 0x103 [] = true ∧
    -- V63: ROR R0, 1
    showsShift (after (start [(.r 0, 0x4008000000000000)] 0b0000 0x100
      [(0x100, [0x62, 0x00, 0x01])]))
      [(.r 0, 0x41E0000000200000)] 0b0100 0x106 [] = true := by
  decide +kernel

theorem test_step_rorRR_to_rorRR :
    -- V64: ROR R0, R1
    showsShift (after (start [(.r 0, 0x41B2345678000000), (.r 1, 0x4040000000000000)] 0b0000 0x100
      [(0x100, [0x61, 0x00, 0x01])]))
      [(.r 0, 0x41B2345678000000), (.r 1, 0x4040000000000000)] 0b0000 0x103 [] = true := by
  decide +kernel

/-! Data movement -/

theorem test_step_movRR_to_movMRI :
    -- V65: MOV R3, ZF
    shows (after (start [] 0b1000 0x100
      [(0x100, [0x10, 0x03, 0x25])]))
      [(.r 3, 0x3FF0000000000000)] 0b1000 0x103 [] = true ∧
    -- V66: MOV ZF, 0.0
    shows (after (start [] 0b1000 0x100
      [(0x100, [0x11, 0x25])]))
      [] 0b1000 0x10A [] = true ∧
    -- V68: MOV [0x1000], R2
    shows (after (start [(.r 2, 0x3FF0000000000000)] 0b0000 0x100
      [(0x100, [0x13, 0x00, 0x10, 0x00, 0x00, 0x02])]))
      [(.r 2, 0x3FF0000000000000)] 0b0000 0x106 [(0x1006, [0xF0, 0x3F])] = true ∧
    -- V69: MOV R1, [0x1000]
    shows (after (start [] 0b0000 0x100
      [(0x100, [0x12, 0x01, 0x00, 0x10]), (0x1006, [0x24, 0x40])]))
      [(.r 1, 0x4024000000000000)] 0b0000 0x106 [] = true ∧
    -- V71: MOV R6, [R5]
    shows (after (start [(.r 5, 0x40B000E666666666)] 0b0000 0x100
      [(0x100, [0x14, 0x06, 0x05]), (0x1006, [0x0C, 0x40])]))
      [(.r 5, 0x40B000E666666666), (.r 6, 0x400C000000000000)] 0b0000 0x103 [] = true ∧
    -- V73: MOV [R5], R6
    shows (after (start [(.r 5, 0x40B0000000000000), (.r 6, 0xC000000000000000)] 0b0000 0x100
      [(0x100, [0x15, 0x05, 0x06])]))
      [(.r 5, 0x40B0000000000000), (.r 6, 0xC000000000000000)] 0b0000 0x103 [(0x1007, [0xC0])] = true := by
  decide +kernel

theorem test_step_movbMR_to_lea :
    -- V74: MOVB [0x1000], R0
    shows (after (start [(.r 0, 0xBFF0000000000000)] 0b0000 0x100
      [(0x100, [0x17, 0x00, 0x10])]))
      [(.r 0, 0xBFF0000000000000)] 0b0000 0x106 [(0x1000, [0xFF])] = true ∧
    -- V76: MOVB R0, [0x1000]
    shows (after (start [] 0b0000 0x100
      [(0x100, [0x16, 0x00, 0x00, 0x10]), (0x1000, [0xFF])]))
      [(.r 0, 0x406FE00000000000)] 0b0000 0x106 [] = true ∧
    -- V77: MOVB R2, [R1]
    shows (after (start [(.r 1, 0x40B0000000000000)] 0b0000 0x100
      [(0x100, [0x18, 0x02, 0x01]), (0x1000, [0x7A])]))
      [(.r 1, 0x40B0000000000000), (.r 2, 0x405E800000000000)] 0b0000 0x103 [] = true ∧
    -- V79: MOVZX R0, R1
    shows (after (start [(.r 1, 0xBFF0000000000000)] 0b0000 0x100
      [(0x100, [0x1A, 0x00, 0x01])]))
      [(.r 0, 0x41EFFFFFFFE00000), (.r 1, 0xBFF0000000000000)] 0b0000 0x103 [] = true ∧
    -- V81: MOVSX R0, R1
    shows (after (start [(.r 1, 0x41EFFFFFFFE00000)] 0b0000 0x100
      [(0x100, [0x1B, 0x00, 0x01])]))
      [(.r 0, 0xBFF0000000000000), (.r 1, 0x41EFFFFFFFE00000)] 0b0000 0x103 [] = true ∧
    -- V84: LEA R0, 0x1234
    shows (after (start [(.r 0, 0x0)] 0b0000 0x100
      [(0x100, [0x1C, 0x00, 0x34, 0x12])]))
      [(.r 0, 0x40B2340000000000)] 0b0000 0x106 [] = true := by
  decide +kernel

theorem test_step_push_to_pop :
    -- V86: PUSH R0
    shows (after (start [(.r 0, 0x4014000000000000), (.sp, 0x4170000000000000)] 0b0000 0x100
      [(0x100, [0x20])]))
      [(.r 0, 0x4014000000000000), (.sp, 0x416FFFFF00000000)] 0b0000 0x102 [(0xFFFFFE, [0x14, 0x40])] = true ∧
    -- V91: POP R1
    shows (after (start [(.sp, 0x416FFFFF00000000)] 0b0000 0x100
      [(0x100, [0x21, 0x01]), (0xFFFFFE, [0x14, 0x40])]))
      [(.r 1, 0x4014000000000000), (.sp, 0x4170000000000000)] 0b0000 0x102 [] = true := by
  decide +kernel

/-! Control flow -/

theorem test_step_jmp_to_jl :
    -- V95: JMP 0x40
    shows (after (start [] 0b0000 0x100
      [(0x100, [0x70, 0x40])]))
      [] 0b0000 0x40 [] = true ∧
    -- V96: JZ 0x80
    shows (after (start [] 0b1000 0x100
      [(0x100, [0x71, 0x80])]))
      [] 0b1000 0x80 [] = true ∧
    -- V98: JNZ 0x80
    shows (after (start [] 0b0000 0x100
      [(0x100, [0x72, 0x80])]))
      [] 0b0000 0x80 [] = true ∧
    -- V99: JG 0x80
    shows (after (start [] 0b0000 0x100
      [(0x100, [0x73, 0x80])]))
      [] 0b0000 0x80 [] = true ∧
    -- V101: JGE 0x80
    shows (after (start [] 0b1100 0x100
      [(0x100, [0x74, 0x80])]))
      [] 0b1100 0x80 [] = true ∧
    -- V102: JL 0x80
    shows (after (start [] 0b1100 0x100
      [(0x100, [0x75, 0x80])]))
      [] 0b1100 0x105 [] = true := by
  decide +kernel

theorem test_step_jle_to_jo :
    -- V104: JLE 0x80
    shows (after (start [] 0b0100 0x100
      [(0x100, [0x76, 0x80])]))
      [] 0b0100 0x80 [] = true ∧
    -- V106: JS 0x80
    shows (after (start [] 0b0100 0x100
      [(0x100, [0x77, 0x80])]))
      [] 0b0100 0x80 [] = true ∧
    -- V107: JNS 0x80
    shows (after (start [] 0b0100 0x100
      [(0x100, [0x78, 0x80])]))
      [] 0b0100 0x105 [] = true ∧
    -- V108: JC 0x80
    shows (after (start [] 0b0011 0x100
      [(0x100, [0x79, 0x80])]))
      [] 0b0011 0x80 [] = true ∧
    -- V109: JNC 0x80
    shows (after (start [] 0b0011 0x100
      [(0x100, [0x7A, 0x80])]))
      [] 0b0011 0x105 [] = true ∧
    -- V110: JO 0x80
    shows (after (start [] 0b0011 0x100
      [(0x100, [0x7B, 0x80])]))
      [] 0b0011 0x80 [] = true := by
  decide +kernel

theorem test_step_jno_to_nop :
    -- V111: JNO 0x80
    shows (after (start [] 0b0000 0x100
      [(0x100, [0x7C, 0x80])]))
      [] 0b0000 0x80 [] = true ∧
    -- V112: CALL 0x200
    shows (after (start [(.sp, 0x4170000000000000)] 0b0000 0x100
      [(0x100, [0x7D, 0x00, 0x02])]))
      [(.sp, 0x416FFFFF00000000)] 0b0000 0x200 [(0xFFFFFD, [0x50, 0x70, 0x40])] = true ∧
    -- V113: RET
    shows (after (start [(.sp, 0x416FFFFF00000000)] 0b0000 0x100
      [(0x100, [0x7E]), (0xFFFFFD, [0x50, 0x70, 0x40])]))
      [(.sp, 0x4170000000000000)] 0b0000 0x105 [] = true ∧
    -- V117: HLT
    shows (after (start [] 0b0000 0x100
      [(0x100, [0x01])]))
      [] 0b0000 0x101 [] = true ∧
    -- V118: NOP
    shows (after (start [] 0b0000 0x100
      []))
      [] 0b0000 0x101 [] = true := by
  decide +kernel

/-! Strings and blocks -/

theorem test_step_strLen_to_strNcat :
    -- V119: str.len R0, [0x1000]
    shows (after (start [] 0b0000 0x100
      [(0x100, [0x80, 0x00, 0x00, 0x10]), (0x1000, [0x61, 0x62, 0x63])]))
      [(.r 0, 0x4008000000000000)] 0b0000 0x106 [] = true ∧
    -- V122: str.cpy [0x1010], [0x1000]
    shows (after (start [] 0b0000 0x100
      [(0x100, [0x81, 0x10, 0x10]), (0x106, [0x10]), (0x1000, [0x48, 0x69]), (0x1010, [0x78, 0x78, 0x78, 0x78])]))
      [] 0b0000 0x109 [(0x1010, [0x48, 0x69, 0x00])] = true ∧
    -- V124: str.cat [0x1000], [0x1010]
    shows (after (start [] 0b0000 0x100
      [(0x100, [0x82, 0x00, 0x10, 0x00, 0x00, 0x10, 0x10]), (0x1000, [0x61, 0x62]), (0x1010, [0x63, 0x64])]))
      [] 0b0000 0x109 [(0x1002, [0x63, 0x64])] = true ∧
    -- V126: str.cmp R0, [0x1000], [0x1010]
    shows (after (start [] 0b0000 0x100
      [(0x100, [0x83, 0x00, 0x00, 0x10, 0x00, 0x00, 0x10, 0x10]), (0x1000, [0x61, 0x62, 0x63]), (0x1010, [0x61, 0x62, 0x63])]))
      [(.r 0, 0x0)] 0b0000 0x10A [] = true ∧
    -- V130: str.ncpy [0x1010], [0x1000], R2
    shows (after (start [(.r 2, 0x4008000000000000)] 0b0000 0x100
      [(0x100, [0x84, 0x10, 0x10]), (0x106, [0x10, 0x00, 0x00, 0x02]), (0x1000, [0x68, 0x65, 0x6C, 0x6C, 0x6F]), (0x1010, [0x7A, 0x7A, 0x7A, 0x7A, 0x7A])]))
      [(.r 2, 0x4008000000000000)] 0b0000 0x10A [(0x1010, [0x68, 0x65, 0x6C])] = true ∧
    -- V133: str.ncat [0x1000], [0x1010], R2
    shows (after (start [(.r 2, 0x4000000000000000)] 0b0000 0x100
      [(0x100, [0x85, 0x00, 0x10, 0x00, 0x00, 0x10, 0x10, 0x00, 0x00, 0x02]), (0x1000, [0x61, 0x62]), (0x1010, [0x63, 0x64, 0x65, 0x66])]))
      [(.r 2, 0x4000000000000000)] 0b0000 0x10A [(0x1002, [0x63, 0x64])] = true := by
  decide +kernel

theorem test_step_strUpper_to_memSet :
    -- V135: str.upper [0x1000]
    shows (after (start [] 0b0000 0x100
      [(0x100, [0x86, 0x00, 0x10]), (0x1000, [0x61, 0x42, 0x31, 0x7A, 0xE9])]))
      [] 0b0000 0x105 [(0x1000, [0x41]), (0x1003, [0x5A])] = true ∧
    -- V136: str.lower [0x1000]
    shows (after (start [] 0b0000 0x100
      [(0x100, [0x87, 0x00, 0x10]), (0x1000, [0x48, 0x65, 0x6C, 0x6C, 0x6F, 0x21])]))
      [] 0b0000 0x105 [(0x1000, [0x68])] = true ∧
    -- V137: str.chr R0, [0x1000], R1
    shows (after (start [(.r 1, 0x405B800000000000)] 0b0000 0x100
      [(0x100, [0x88, 0x00, 0x00, 0x10, 0x00, 0x00, 0x01]), (0x1000, [0x62, 0x61, 0x6E, 0x61, 0x6E, 0x61])]))
      [(.r 0, 0x4000000000000000), (.r 1, 0x405B800000000000)] 0b0000 0x107 [] = true ∧
    -- V141: str.str R0, [0x1000], [0x1010]
    shows (after (start [] 0b0000 0x100
      [(0x100, [0x89, 0x00, 0x00, 0x10, 0x00, 0x00, 0x10, 0x10]), (0x1000, [0x62, 0x61, 0x6E, 0x61, 0x6E, 0x61]), (0x1010, [0x6E, 0x61, 0x6E])]))
      [(.r 0, 0x4000000000000000)] 0b0000 0x10A [] = true ∧
    -- V144: mem.cpy [0x1001], [0x1000], R2
    shows (after (start [(.r 2, 0x4010000000000000)] 0b0000 0x100
      [(0x100, [0x8A, 0x01, 0x10]), (0x106, [0x10, 0x00, 0x00, 0x02]), (0x1000, [0x31, 0x32, 0x33, 0x34, 0x35])]))
      [(.r 2, 0x4010000000000000)] 0b0000 0x10A [(0x1001, [0x31, 0x32, 0x33, 0x34])] = true ∧
    -- V147: mem.set [0x1000], R1, R2
    shows (after (start [(.r 1, 0x4050400000000000), (.r 2, 0x4008000000000000)] 0b0000 0x100
      [(0x100, [0x8B, 0x00, 0x10, 0x00, 0x00, 0x01, 0x02])]))
      [(.r 1, 0x4050400000000000), (.r 2, 0x4008000000000000)] 0b0000 0x107 [(0x1000, [0x41, 0x41, 0x41])] = true := by
  decide +kernel

theorem test_step_memClr_to_memClr :
    -- V150: mem.clr [0x1000], R2
    shows (after (start [(.r 2, 0x4000000000000000)] 0b0000 0x100
      [(0x100, [0x8C, 0x00, 0x10, 0x00, 0x00, 0x02]), (0x1000, [0x41, 0x41, 0x41])]))
      [(.r 2, 0x4000000000000000)] 0b0000 0x106 [(0x1000, [0x00, 0x00])] = true := by
  decide +kernel

/-! Host I/O -/

theorem test_step_sysPrintChar_to_sysResetColor :
    -- V154: SYS_PRINT_CHAR
    shows (after (start [(.r 0, 0x4074100000000000)] 0b0000 0x100
      [(0x100, [0xA2])]))
      [(.r 0, 0x4074100000000000)] 0b0000 0x101 [] = true ∧
    -- V155: SYS_PRINT_STR
    shows (after (start [(.r 0, 0x40B0000000000000)] 0b0000 0x100
      [(0x100, [0xA3]), (0x1000, [0x48, 0x69])]))
      [(.r 0, 0x40B0000000000000)] 0b0000 0x101 [] = true ∧
    -- V157: SYS_NEWLINE
    shows (after (start [] 0b0000 0x100
      [(0x100, [0xA4])]))
      [] 0b0000 0x101 [] = true ∧
    -- V158: SYS_SET_CURSOR
    shows (after (start [(.r 0, 0x4024000000000000), (.r 1, 0x4014000000000000)] 0b0000 0x100
      [(0x100, [0xA5])]))
      [(.r 0, 0x4024000000000000), (.r 1, 0x4014000000000000)] 0b0000 0x101 [] = true ∧
    -- V160: SYS_SET_COLOR
    shows (after (start [(.r 0, 0xBFF0000000000000)] 0b0000 0x100
      [(0x100, [0xA7])]))
      [(.r 0, 0xBFF0000000000000)] 0b0000 0x101 [] = true ∧
    -- V161: SYS_RESET_COLOR
    shows (after (start [] 0b0000 0x100
      [(0x100, [0xA8])]))
      [] 0b0000 0x101 [] = true := by
  decide +kernel

theorem test_step_sysPrintNum_to_sysSleep :
    -- V162: SYS_PRINT_NUM
    shows (after (start [(.r 0, 0x4045400000000000)] 0b0000 0x100
      [(0x100, [0xA9])]))
      [(.r 0, 0x4045400000000000)] 0b0000 0x101 [] = true ∧
    -- V163: SYS_PRINT_HEX
    shows (after (start [(.r 0, 0xBFF0000000000000)] 0b0000 0x100
      [(0x100, [0xAA])]))
      [(.r 0, 0xBFF0000000000000)] 0b0000 0x101 [] = true ∧
    -- V166: SYS_READ_LINE
    shows (after (start [(.r 0, 0x40B0000000000000), (.r 1, 0x0), (.r 2, 0x4022000000000000)] 0b0000 0x100
      [(0x100, [0xAC])]))
      [(.r 0, 0x40B0000000000000), (.r 1, 0x0), (.r 2, 0x0)] 0b0000 0x101 [] = true ∧
    -- V168: SYS_CLEAR_SCREEN
    shows (after (start [] 0b0000 0x100
      [(0x100, [0xAD])]))
      [] 0b0000 0x101 [] = true ∧
    -- V169: SYS_SLEEP
    shows (after (start [(.r 0, 0x407F400000000000)] 0b0000 0x100
      [(0x100, [0xAE])]))
      [(.r 0, 0x407F400000000000)] 0b0000 0x101 [] = true := by
  decide +kernel

/-! Faults: the record, and nothing else changed (R384) -/

/-- V11, V36: DIV by 1e-10, MATH_SQRT of -1.0. -/
theorem test_V11_V36_faults :
    let s := start [(.r 0, 0x3FF0000000000000), (.r 1, 0x3DDB7CDFD9D7BDBB)] 0 0x100 [(0x100, [0x36, 0x00, 0x01])]
    let u := start [(.r 1, 0xBFF0000000000000)] 0 0x100 [(0x100, [0x45, 0x00, 0x01])]
    after s = faultEntry s (.divideByZero 0x100 0x3DDB7CDFD9D7BDBB) ∧
      after u = faultEntry u (.domainError 0x100 0xBFF0000000000000) := by
  decide +kernel

/-- V89, V90: PUSH with SP = 4.0, POP of an empty stack. -/
theorem test_V89_V90_faults :
    let s := start [(.sp, 0x4010000000000000)] 0 0x100 [(0x100, [0x20, 0x00])]
    let u := start [] 0 0x100 [(0x100, [0x21, 0x00])]
    after s = faultEntry s (.stackOverflow 0x100 0x4010000000000000) ∧
      after u = faultEntry u (.stackUnderflow 0x100 0x4170000000000000) := by
  decide +kernel

/-- V171, V174, V176, V177, V178: unknown opcode, bad register, extent before register, PC at MEM_SIZE. -/
theorem test_V171_to_V178_faults :
    let s1 := start [] 0 0x100 [(0x100, [0x02])]
    let s2 := start [] 0 0x100 [(0x100, [0x10, 0xFF, 0x00])]
    let s3 := start [] 0 0xFFFFFB [(0xFFFFFB, [0x11, 0x00])]
    let s4 := start [] 0 0xFFFFFB [(0xFFFFFB, [0x11, 0x29])]
    let s5 := start [] 0 0x1000000 []
    after s1 = faultEntry s1 (.invalidOpcode 0x100 (.unknownOpcode 0x02)) ∧
      after s2 = faultEntry s2 (.invalidRegister 0x100 0xFF) ∧
      after s3 = faultEntry s3 (.outOfBounds (.addr 0xFFFFFB) 10) ∧
      after s4 = faultEntry s4 (.outOfBounds (.addr 0xFFFFFB) 10) ∧
      after s5 = faultEntry s5 (.invalidOpcode 0x1000000 .pcOutOfRange) := by
  decide +kernel

/-- V123, V156: str.cpy past the end, SYS_PRINT_STR at +inf. -/
theorem test_V123_V156_faults :
    let s := start [] 0 0x100 [(0x100, [0x81, 0xFE, 0xFF, 0xFF, 0x00, 0x00, 0x10]), (0x1000, [0x61, 0x62])]
    let u := start [(.r 0, 0x7FF0000000000000)] 0 0x100 [(0x100, [0xA3])]
    after s = faultEntry s (.outOfBounds (.addr 0xFFFFFE) 3) ∧
      after u = faultEntry u (.outOfBounds (.value 0x7FF0000000000000) 0) := by
  decide +kernel

/-- The codes of R380. -/
theorem test_fault_codes :
    (FaultRecord.invalidOpcode 0 .pcOutOfRange).code = 1 ∧ (FaultRecord.invalidRegister 0 41).code = 2 ∧
    (FaultRecord.outOfBounds (.addr 0) 0).code = 3 ∧ (FaultRecord.divideByZero 0 0).code = 4 ∧
    (FaultRecord.domainError 0 0).code = 5 ∧ (FaultRecord.stackOverflow 0 0).code = 6 ∧
    (FaultRecord.stackUnderflow 0 0).code = 7 := by
  decide

/-! Requests: V154, V160, V162, V163, V169 and the rest of R340's output requests -/

theorem test_output_requests :
    (after (start [(.r 0, 0x4050400000000000)] 0 0 [(0, [0xA2])])).trace = [.putChar 0x41] ∧
    (after (start [(.r 0, 0x40B0000000000000)] 0 0 [(0, [0xA3]), (0x1000, [0x68, 0x69])])).trace =
      [.putStr [0x68, 0x69]] ∧
    (after (start [] 0 0 [(0, [0xA4])])).trace = [.newline] ∧
    (after (start [(.r 0, 0x4008000000000000), (.r 1, 0x4014000000000000)] 0 0 [(0, [0xA5])])).trace =
      [.setCursor 3 5] ∧
    (after (start [(.r 0, 0xBFF0000000000000)] 0 0 [(0, [0xA7])])).trace = [.setColor 4294967295] ∧
    (after (start [] 0 0 [(0, [0xA8])])).trace = [.resetColor] ∧
    (after (start [(.r 0, 0x4045400000000000)] 0 0 [(0, [0xA9])])).trace = [.putNum 0x4045400000000000] ∧
    (after (start [(.r 0, 0xBFF0000000000000)] 0 0 [(0, [0xAA])])).trace = [.putHex 4294967295] ∧
    (after (start [] 0 0 [(0, [0xAD])])).trace = [.clearScreen] ∧
    (after (start [(.r 0, 0x407F400000000000)] 0 0 [(0, [0xAE])])).trace = [.sleep 500] := by
  decide +kernel

/-- HLT stops the engine (V117, R34). -/
theorem test_halted_engine_takes_no_step :
    step (after (start [] 0 0x100 [(0x100, [0x01])])) = .fault .engineHalted := rfl

/-- A placed word is the first instruction run after reset (log 9). -/
theorem test_withFetchWord :
    (after (State.reset.withFetchWord 80 0x40240000000000000111)).readReg (.r 1) = 0x4024000000000000 := by
  decide +kernel

/-! ### Witnesses: for each obligation with hypotheses, a state and operands that meet them, each clause at a
boundary value -/

/-- Reset with one register written. -/
def withReg (x : Reg) (v : F64) : State := State.reset.writeReg x v

/-- Reset with runs of bytes in Memory. -/
def withBytes (bytes : List (Nat × List Byte)) : State := start [] 0 0 bytes

theorem witness_DecodeInvertsEncode : (Instr.strCmp .of 0 0xFFFFFFFF).WellFormed := by decide

theorem witness_EncodeInvertsDecode : decode [0x01, 0xFF] = .ok (.hlt, [0xFF]) := rfl

theorem witness_FetchChecksInOrder :
    -- PC at MEM_SIZE; an unassigned opcode in the last byte; an extent one byte past the end
    (start [] 0 0x1000000 []).status = .running ∧ State.reset.params.memSize ≤ (start [] 0 0x1000000 []).pc ∧
    ((start [] 0 0xFFFFFF [(0xFFFFFF, [0xFF])]).pc < State.reset.params.memSize ∧
      (formOf ((start [] 0 0xFFFFFF [(0xFFFFFF, [0xFF])]).mem.get 0xFFFFFF).toNat).isNone) ∧
    ((formOf ((start [] 0 0xFFFFFE [(0xFFFFFE, [0x10])]).mem.get 0xFFFFFE).toNat).isSome ∧
      State.reset.params.memSize < 0xFFFFFE + Shape.rr.length) ∧
    -- an extent that ends at the end of Memory, its second register field 41, its first good
    (Shape.rr.regOffsets = [1, 2] ∧ 0xFFFFFD + Shape.rr.length ≤ State.reset.params.memSize ∧
      41 ≤ ((start [] 0 0xFFFFFD [(0xFFFFFD, [0x10, 0x28, 0x29])]).mem.get 0xFFFFFF).toNat ∧
      ((start [] 0 0xFFFFFD [(0xFFFFFD, [0x10, 0x28, 0x29])]).mem.get 0xFFFFFE).toNat ≤ 40) ∧
    -- both good
    ∀ o ∈ Shape.rr.regOffsets, ((withBytes [(0, [0x10, 0x28, 0x28])]).mem.get o).toNat ≤ 40 := by
  decide

theorem witness_UnassignedOpcodesFault :
    let s := start [] 0 0xFFFFFF [(0xFFFFFF, [0x0F])]
    s.status = .running ∧ s.pc < State.reset.params.memSize ∧ 0x02 ≤ (s.mem.get s.pc).toNat ∧
      (s.mem.get s.pc).toNat ≤ 0x0F := by
  decide

theorem witness_StepRunsDecodedInstruction :
    let s := start [] 0 0xFFFFFF [(0xFFFFFF, [0x01])]
    s.status = .running ∧ s.pc + 1 ≤ State.reset.params.memSize ∧ decode (s.mem.readBytes s.pc 1) = .ok (.hlt, []) :=
  ⟨rfl, by decide, rfl⟩

theorem witness_RegisterReadAndWrite : Reg.isFlag .zf = true ∧ Reg.isFlag (.r 31) = false := by decide

theorem witness_RegisterReadings :
    isFin (fInf true) = false ∧ isFin 0x41EFFFFFFFE00000 = true ∧ 0 ≤ ftrunc 0x41EFFFFFFFE00000 ∧
    isFin 0xBFF0000000000000 = true ∧ ftrunc 0xBFF0000000000000 < 0 := by
  decide +kernel

theorem witness_ConversionsKeepTheValue :
    isFin 0x7FEFFFFFFFFFFFFF = true ∧ (2 : Nat) ^ 53 ≤ 2 ^ 53 ∧ (-(2 : Int) ^ 53).natAbs ≤ 2 ^ 53 := by
  decide

theorem witness_RoundingIsNearestTiesToEven :
    0 < 3 ∧ isFin (roundRatio true 1 3) = true ∧ isFin 0x7FEFFFFFFFFFFFFF = true ∧
    isInf (roundRatio false (2 ^ 1024 - 2 ^ 970) 1) = true ∧
    isInf (roundRatio false (2 ^ 1024 - 2 ^ 970 - 1) 1) = false := by
  decide +kernel

theorem witness_OperationsRoundTheExactResult :
    isFin fOne = true ∧ isFin fEight = true ∧ fVal fOne + fVal fEight ≠ 0 ∧ fVal fOne - fVal fEight ≠ 0 ∧
    fVal fOne + fVal (fneg fOne) = 0 ∧ fVal fOne - fVal fOne = 0 ∧ fVal fEight ≠ 0 := by
  decide +kernel

theorem witness_RemainderIsExact : isFin fOne = true ∧ isFin 0x0000000000000001 = true ∧
    fVal 0x0000000000000001 ≠ 0 := by
  decide +kernel

theorem witness_SquareRootIsNearest : isFin 0x0000000000000001 = true ∧ 0 < fVal 0x0000000000000001 := by
  decide +kernel

theorem witness_ComparisonsOrderTheValues :
    isNaN 0x7FF0000000000001 = true ∧ isFin 0x7FEFFFFFFFFFFFFF = true ∧ isFin (fZero true) = true ∧
    isInf 0xFFF0000000000000 = true ∧ isNaN 0xFFF0000000000000 = false := by
  decide

theorem witness_InvalidOperationsGiveNaN :
    isNaN 0xFFFFFFFFFFFFFFFF = true ∧ isInf 0x7FF0000000000000 = true ∧ isInf 0xFFF0000000000000 = true ∧
    fSign 0x7FF0000000000000 ≠ fSign 0xFFF0000000000000 ∧ isFin 0x8000000000000000 = true ∧
    fVal 0x8000000000000000 = 0 ∧ flt 0x8000000000000001 0 = true := by
  decide +kernel

theorem witness_InfiniteOperands :
    isInf 0x7FF0000000000000 = true ∧ isInf 0xFFF0000000000000 = true ∧
    fSign 0x7FF0000000000000 ≠ fSign 0xFFF0000000000000 ∧ isFin 0x0000000000000001 = true ∧
    fVal 0x0000000000000001 ≠ 0 ∧ isFin 0x8000000000000000 = true ∧ fVal 0x8000000000000000 = 0 := by
  decide +kernel

theorem witness_ReferenceParameters : isFin 0x3E112E0BE826D694 = true := by decide

theorem witness_FloatFlagUpdate :
    isFin State.reset.params.eps = true ∧ isFin 0x7FF0000000000000 = false ∧ isInf (fInf true) = true ∧ isNaN 0x7FF0000000000001 = true := by
  decide

theorem witness_DivisionAndRemainder :
    flt (fabs 0xBE112E0BE826D694) State.reset.params.eps = true ∧ flt (fabs 0xBE112E0BE826D695) State.reset.params.eps = false := by
  decide

theorem witness_CompareMeansOrder :
    (∃ t, exec (.cmpRR (.r 0) (.r 0)) State.reset = .next t) ∧ isNaN (State.reset.readReg (.r 0)) = false ∧
    isNaN ((withReg (.r 0) 0x7FF8000000000000).readReg (.r 0)) = true ∧
    isFin (State.reset.readReg (.r 0)) = true ∧ isFin (State.reset.readReg .sp) = true ∧
    flt 0 State.reset.params.eps = true ∧ condG (floatFlags State.reset.params.eps fOne) = true ∧
    condL (floatFlags State.reset.params.eps (fneg fOne)) = true :=
  ⟨⟨_, rfl⟩, by decide +kernel⟩

theorem witness_SquareRootAndLogarithm :
    flt ((withReg (.r 1) 0x8000000000000001).readReg (.r 1)) 0 = true ∧
    flt ((withReg (.r 1) 0x8000000000000000).readReg (.r 1)) 0 = false ∧
    fle ((withReg (.r 1) 0x0000000000000000).readReg (.r 1)) 0 = true ∧
    fle ((withReg (.r 1) 0x0000000000000001).readReg (.r 1)) 0 = false ∧
    isNaN 0x7FF8000000000000 = true := by
  decide

/-- The last address with room and the first without: AbsoluteLoads, AbsoluteStores. -/
theorem witness_AbsoluteLoads_AbsoluteStores :
    0xFFFFF8 + 8 ≤ State.reset.params.memSize ∧ State.reset.params.memSize < 0xFFFFF9 + 8 ∧ 0xFFFFFF < State.reset.params.memSize ∧
    State.reset.params.memSize ≤ 0x1000000 ∧ (encodeF64 0).length = 8 := by
  decide

/-- An infinite, a too large, a negative, a last good and a truncated address: IndirectLoads, IndirectStores. -/
theorem witness_IndirectLoads_IndirectStores :
    isFin (fInf false) = false ∧ isFin 0x416FFFFF20000000 = true ∧ ftrunc 0x416FFFFF20000000 + 8 = 0x1000001 ∧
    ftrunc 0x416FFFFF00000000 + 8 = State.reset.params.memSize ∧ ftrunc 0x4170000000000000 = 0x1000000 ∧
    ftrunc 0x416FFFFFE0000000 = 0xFFFFFF ∧ ftrunc 0xBFF0000000000000 = -1 ∧ ftrunc 0xBFE0000000000000 = 0 := by
  decide +kernel

theorem witness_PushAndCall :
    flt (fsub 0 0x401FFFFFFFFFFFFF 0x4020000000000000) 0 = true ∧
    flt (fsub 0 (fInf false) 0x4020000000000000) 0 = false ∧
    isFin (fsub 0 (fInf false) 0x4020000000000000) = false ∧
    flt (fsub 0 0x4170000010000000 0x4020000000000000) 0 = false ∧
    isFin (fsub 0 0x4170000010000000 0x4020000000000000) = true ∧
    ftrunc (fsub 0 0x4170000010000000 0x4020000000000000) + 8 = 0x1000001 ∧
    flt (fsub 0 0x4020000000000000 0x4020000000000000) 0 = false ∧
    ftrunc (fsub 0 0x4020000000000000 0x4020000000000000) = 0 := by
  decide +kernel

/-- PopInstruction and ReturnInstruction: an empty stack, a NaN, a slot cut by the end of Memory, the top slot, and
popped values at the ends of 0..2^32-1. -/
theorem witness_PopInstruction_ReturnInstruction :
    fle 0x4170000000000000 0x4170000000000000 = true ∧ fle 0x4170000000000000 0x7FF8000000000000 = false ∧
    isFin 0x7FF8000000000000 = false ∧ fle 0x4170000000000000 0x416FFFFF20000000 = false ∧
    ftrunc 0x416FFFFF20000000 + 8 = 0x1000001 ∧ fle 0x4170000000000000 0x416FFFFF00000000 = false ∧
    isFin 0x416FFFFF00000000 = true ∧ ftrunc 0x416FFFFF00000000 + 8 = State.reset.params.memSize ∧
    2 ^ 32 ≤ ftrunc 0x41F0000000000000 ∧ ftrunc 0x41EFFFFFFFE00000 = 2 ^ 32 - 1 ∧
    isFin 0x41EFFFFFFFE00000 = true ∧ ftrunc 0xBFF0000000000000 < 0 := by
  decide +kernel

theorem witness_PopUndoesPush :
    State.reset.params.Legal ∧ isFin State.reset.sp = true ∧ 8 ≤ fVal State.reset.sp ∧
    fVal State.reset.sp ≤ State.reset.params.memSize ∧ 8 ≤ fVal 0x4020000000000000 ∧ Reg.isFlag (.r 0) = false ∧ Reg.r 0 ≠ .sp := by
  unfold Params.Legal
  decide +kernel

theorem witness_ReturnComesBackAfterCall :
    State.reset.params.Legal ∧ isFin State.reset.sp = true ∧ 8 ≤ fVal State.reset.sp ∧ fVal State.reset.sp ≤ State.reset.params.memSize ∧
    State.reset.pc + 5 < 2 ^ 32 ∧ ∃ t, exec (.call 0xFFFFFFFF) State.reset = .next t := by
  refine ⟨⟨by decide, by decide⟩, by decide +kernel, by decide +kernel, by decide +kernel, by decide, ?_⟩
  rw [exec, execCall]
  exact complete_answers _ _

theorem witness_ConditionalJumps : State.reset.pc + 5 ≠ 4 := by decide

/-- Two strings, the second the empty string in the last byte of Memory. -/
theorem witness_StringQueries :
    StringAt (withBytes [(0x1000, [0x61, 0x62])]) 0x1000 [0x61, 0x62] ∧
    StringAt (withBytes [(0x1000, [0x61, 0x62])]) 0xFFFFFF [] := by
  unfold StringAt BytesAt
  decide

theorem witness_StringCopyAndConcatenate :
    StringAt (withBytes [(0xFFFFFC, [0x61, 0x62])]) 0xFFFFFC [0x61, 0x62] ∧
    StringAt (withBytes [(0xFFFFFC, [0x61, 0x62])]) 0xFFFFFD [0x62] ∧
    0xFFFFFD + 2 + 1 ≤ State.reset.params.memSize ∧ State.reset.params.memSize < 0xFFFFFE + 2 + 1 ∧
    0x1000 + 0 + 2 + 1 ≤ State.reset.params.memSize ∧ State.reset.params.memSize < 0xFFFFFD + 1 + 2 + 1 := by
  unfold StringAt BytesAt
  decide

/-- A count of 2 that cuts the string at the end of Memory, and a count of 0 there. -/
theorem witness_BoundedCopyAndConcatenate :
    let s := (withBytes [(0xFFFFFE, [0x61, 0x62])]).writeReg (.r 0) 0x4000000000000000
    isFin (s.readReg (.r 0)) = true ∧ ftrunc (s.readReg (.r 0)) = 2 ∧
    BoundedStringAt s 0xFFFFFE 2 [0x61, 0x62] ∧ BoundedStringAt s 0x1000000 0 [] ∧ StringAt s 0x1000 [] ∧
    0xFFFFFE + 2 ≤ State.reset.params.memSize ∧ State.reset.params.memSize < 0xFFFFFF + 2 := by
  unfold BoundedStringAt StringAt BytesAt
  decide +kernel

theorem witness_CaseConversion :
    StringAt (withBytes [(0x1000, [0x60, 0x61, 0x7A, 0x7B, 0x40, 0x41, 0x5A, 0x5B])]) 0x1000
      [0x60, 0x61, 0x7A, 0x7B, 0x40, 0x41, 0x5A, 0x5B] := by
  unfold StringAt BytesAt
  decide

theorem witness_UnterminatedStringsAndBadCountsFault :
    (∀ x, 0xFFFFFF ≤ x → x < State.reset.params.memSize → (withBytes [(0xFFFFFF, [0x61])]).mem.get x ≠ 0) ∧
    StringAt (withBytes [(0xFFFFFF, [0x61])]) 0x1000 [] ∧
    isFin (State.reset.readReg (.r 0)) = true ∧ ftrunc (State.reset.readReg (.r 0)) = 0 ∧
    State.reset.params.memSize < 0x1000001 ∧
    isFin ((withReg (.r 0) 0x4000000000000000).readReg (.r 0)) = true ∧
    State.reset.params.memSize < 0xFFFFFF + (ftrunc ((withReg (.r 0) 0x4000000000000000).readReg (.r 0))).toNat ∧
    isFin ((withReg (.r 0) (fInf false)).readReg (.r 0)) = false ∧
    ftrunc ((withReg (.r 0) 0xBFF0000000000000).readReg (.r 0)) < 0 := by
  refine ⟨fun x h h' => ?_, ?_, by decide +kernel⟩
  case refine_2 => unfold StringAt BytesAt; decide
  have : x = 0xFFFFFF := by change x < 16777216 at h'; omega
  subst this
  decide

theorem witness_BlockOperations :
    let s := withReg (.r 0) 0x4000000000000000
    isFin (s.readReg (.r 0)) = true ∧ ftrunc (s.readReg (.r 0)) = 2 ∧ 0xFFFFFE + 2 ≤ State.reset.params.memSize ∧
    State.reset.params.memSize < 0xFFFFFF + 2 := by
  decide +kernel

theorem witness_PrintString :
    isFin (fInf true) = false ∧ ftrunc 0xBFF0000000000000 < 0 ∧
    (∀ x, (ftrunc 0x4170000000000000).toNat ≤ x → x < State.reset.params.memSize →
      (withReg (.r 0) 0x4170000000000000).mem.get x ≠ 0) ∧
    StringAt (withReg (.r 0) 0x416FFFFFE0000000) (ftrunc 0x416FFFFFE0000000).toNat [] := by
  have hm : (ftrunc 0x4170000000000000).toNat = State.reset.params.memSize := by decide +kernel
  refine ⟨by decide, by decide +kernel, fun x h h' => by omega, ?_⟩
  unfold StringAt BytesAt
  decide +kernel

theorem witness_NumberToString :
    isFin (State.reset.readReg (.r 1)) = true ∧ isFin ((withReg (.r 1) (fInf false)).readReg (.r 1)) = false := by
  decide

theorem witness_ReadLine :
    isFin (fInf true) = false ∧ ftrunc 0xBFF0000000000000 < 0 ∧ ftrunc 0x4170000000000000 + 0 ≤ State.reset.params.memSize ∧
    ¬ (ftrunc 0x4170000000000000 + 1 ≤ State.reset.params.memSize) ∧ ftrunc 0x416FFFFFE0000000 + 1 ≤ State.reset.params.memSize ∧
    0 ≤ ftrunc 0x416FFFFFE0000000 ∧ 0 < (ftrunc fOne).toNat := by
  decide +kernel

theorem witness_BoundsCheckedAccess :
    ([] : List Byte).length = 0 ∧ (0 ≤ (0x1000000 : Int) ∧ (0x1000000 : Int) + (0 : Nat) ≤ State.reset.params.memSize) ∧
    ¬ (0 ≤ (0x1000000 : Int) ∧ (0x1000000 : Int) + (1 : Nat) ≤ State.reset.params.memSize) ∧
    ¬ (0 ≤ (-1 : Int) ∧ (-1 : Int) + (0 : Nat) ≤ State.reset.params.memSize) := by
  decide

theorem witness_BinaryImages : [0x01, 0, 0, 0, 0, 0, 0xF0, 0x7F].length = 8 := rfl

/-- Stored over the last byte of Memory: an unassigned opcode, a NOP, and a HLT. -/
theorem witness_StoresAreSeenByTheNextFetch :
    let s := start [(.r 0, 0x3FF0000000000000)] 0 0xFFFFF9 []
    s.status = .running ∧ s.pc + 6 < s.params.memSize ∧ (formOf (0x02 : Byte).toNat).isNone ∧
      s.pc + 7 + 0 ≤ s.params.memSize ∧ decode ((0x00 : Byte) :: s.mem.readBytes (s.pc + 7) 0) = .ok (.nop, []) ∧
      (u32 (s.readReg (.r 0))).toNat % 256 = 1 :=
  ⟨rfl, by decide, by decide, by decide, rfl, by decide +kernel⟩

theorem witness_FaultsChangeTheStatusAlone :
    ∃ t, step (withBytes [(0, [0x02])]) = .next t ∧
      t.status = .faulted (.invalidOpcode 0 (.unknownOpcode 0x02)) := ⟨_, rfl, rfl⟩

theorem witness_RunningEngineAlwaysSteps :
    ({ State.reset with status := .halted } : State).status = .halted ∧ State.reset.status = .running ∧
    (faultEntry State.reset (.divideByZero 0 0)).status = .faulted (.divideByZero 0 0) := ⟨rfl, rfl, rfl⟩

theorem witness_OnlyHltHalts : ∃ t, step (withBytes [(0, [0x01])]) = .next t ∧ t.status = .halted := ⟨_, rfl, rfl⟩

theorem witness_OnlyListedInstructionsWriteFlagsAndMemory :
    (∃ t, exec (.movRR (.r 0) .zf) State.reset = .next t) ∧
    ¬ (0x30 ≤ (Instr.movRR (.r 0) .zf).opcode ∧ (Instr.movRR (.r 0) .zf).opcode ≤ 0x46) ∧
    ¬ (0x50 ≤ (Instr.movRR (.r 0) .zf).opcode ∧ (Instr.movRR (.r 0) .zf).opcode ≤ 0x62) ∧
    (Instr.movRR (.r 0) .zf).opcode ∉ [0x13, 0x20] := ⟨⟨_, rfl⟩, by decide⟩

theorem witness_SequentialInstructionsAdvanceByTheirLength :
    (∃ t, exec .hlt State.reset = .next t ∧ t.Sound) ∧
    ¬ (0x70 ≤ Instr.hlt.opcode ∧ Instr.hlt.opcode ≤ 0x7E) :=
  ⟨⟨_, rfl, fun _ h => by cases h⟩, by decide⟩

theorem witness_StepKeepsInvariant : State.reset.Inv ∧ ∃ t, step State.reset = .next t := by
  refine ⟨⟨⟨by decide, by decide⟩, Memory.wf_nil _, by decide, fun f h => ?_, fun e h => ?_⟩, ⟨_, rfl⟩⟩
  · cases h
  · cases h

/-- The smallest and the largest Memory R6 admits. -/
theorem witness_InvariantHoldsAtRunStart :
    Params.Legal { memSize := 1, eps := 0 } ∧ Params.Legal { memSize := 2 ^ 32, eps := fInf false } ∧
    ∃ s, State.load { memSize := 1, eps := 0 } [0x01] = some s :=
  ⟨⟨by decide, by decide⟩, ⟨by decide, by decide⟩, _, rfl⟩

theorem witness_RunStartState :
    Params.reference.memSize < (List.replicate 0x1000001 (0 : Byte)).length ∧
    (List.replicate 0x1000000 (0 : Byte)).length ≤ Params.reference.memSize := by
  rw [List.length_replicate, List.length_replicate]
  decide


/-! ### Another configuration: a Memory of 4 bytes, EPS 0.5 (R6) -/

/-- An instruction cut by the end of a small Memory faults at its fetch (R88). -/
theorem test_small_memory_fetch :
    (State.load { memSize := 4, eps := 0x3FE0000000000000 } [0x00, 0x70, 0x00, 0x00]).map
        (fun s => step (s.jump 1)) =
      (State.load { memSize := 4, eps := 0x3FE0000000000000 } [0x00, 0x70, 0x00, 0x00]).map
        (fun s => .next (faultEntry (s.jump 1) (.outOfBounds (.addr 1) 5))) := rfl

/-- 0.25 counts as zero under an EPS of 0.5 and not under R6's (R120). -/
theorem test_eps_of_configuration :
    (floatFlags 0x3FE0000000000000 0x3FD0000000000000).zero = true ∧
      (floatFlags Params.reference.eps 0x3FD0000000000000).zero = false := by decide

/-- The smallest Memory holds a program: HLT placed in its one byte halts. -/
theorem test_one_byte_memory :
    (match step ((State.resetWith { memSize := 1, eps := 0 }).withFetchWord 8 0x01) with
      | .next t => t.status = .halted ∧ t.mem = [(0, 0x01)]
      | _ => False) := ⟨rfl, rfl⟩
end Sys2Proof.Tests
end

/-! PROOFS. Registers (00_scope R8, 10_state R24). -/

namespace Sys2Proof.Machine

/-- The two values of a flag slot as bit patterns: the pattern of 1.0, and the all-zero pattern of 0.0 (R8). -/
theorem ofBool_eq_ite (b : Bool) : ofBool b = if b then 0x3FF0000000000000#64 else 0 := by
  cases b with
  | false => exact (by decide : fZero false = 0)
  | true => rfl

/-- A read after a write to a stored slot, for every slot read: a flag slot is never the slot written. -/
theorem State.readReg_writeReg_stored (s : State) {x : Reg} (y : Reg) (v : F64) (hx : x.isFlag = false) :
    (s.writeReg x v).readReg y = if y = x then v else s.readReg y := by
  split
  case isTrue h => rw [h, State.readReg_writeReg_same s v hx]
  case isFalse h => exact State.readReg_writeReg_other s v h

/-- Settles O7: the write clauses are the register laws, and each flag slot reads as `ofBool` of its flag. -/
theorem registerReadAndWrite : Obligations.RegisterReadAndWrite := by
  intro s x y v
  exact ⟨State.writeReg_flag s v, State.readReg_writeReg_stored s y v, ofBool_eq_ite s.flags.zero,
    ofBool_eq_ite s.flags.sign, ofBool_eq_ite s.flags.carry, ofBool_eq_ite s.flags.overflow⟩

end Sys2Proof.Machine

/-! PROOFS. Integer readings of a register value (10_state R27 to R30). -/

namespace Sys2Proof.Machine

/-- A NaN or an infinity reads as 0 (R27). -/
theorem u32_of_not_finite {v : F64} (h : isFin v = false) : u32 v = 0 := by
  simp [u32, h]

/-- The word of a finite value is its truncation modulo 2^32, in 0..2^32-1 for a negative truncation too (R27). -/
theorem u32_toNat_of_finite {v : F64} (h : isFin v = true) : ((u32 v).toNat : Int) = ftrunc v % 2 ^ 32 := by
  have hmod : 0 ≤ ftrunc v % 2 ^ 32 := Int.emod_nonneg _ (by decide)
  calc ((u32 v).toNat : Int)
      = ((ftrunc v % 2 ^ 32).toNat : Int) := by simp [u32, h, BitVec.toNat_ofInt]
    _ = ftrunc v % 2 ^ 32 := Int.toNat_of_nonneg hmod

/-- The two's complement reading by the value of the word: from 2^31 on it lies 2^32 lower (R28). -/
theorem i32_eq_ite (v : F64) :
    i32 v = if (u32 v).toNat < 2 ^ 31 then ((u32 v).toNat : Int) else (u32 v).toNat - 2 ^ 32 := by
  rw [i32, BitVec.toInt_eq_toNat_cond]
  split <;> split <;> omega

/-- Settles O8: each reading by its lemma for the class of the value, finite or not. -/
theorem registerReadings : Obligations.RegisterReadings := by
  intro v
  refine ⟨fun hnot => ?notFinite, fun hfin => ?finite, i32_eq_ite v⟩
  case notFinite => exact ⟨u32_of_not_finite hnot, addr_of_not_finite hnot, count_of_bad (.inl hnot)⟩
  case finite =>
    exact ⟨u32_toNat_of_finite hfin, addr_of_finite hfin, count_of_good hfin, fun hneg => count_of_bad (.inr hneg)⟩

end Sys2Proof.Machine

/-! PROOFS. Run start (10_state R38, 70_reset R420). -/

namespace Sys2Proof.Machine

/-- The pattern of +0.0 is the all-zero one. -/
theorem fZero_false : fZero false = 0 := by decide

/-- A byte string written at address 0 of zeroed Memory: its bytes, and 0 past its end (R420). -/
theorem Memory.get_writeBytes_nil_zero (bs : List Byte) (a : Nat) :
    (Memory.writeBytes [] 0 bs).get a = bs.getD a 0 := by
  by_cases ha : a < bs.length
  case pos =>
    have hread := Memory.get_writeBytes_inside (m := []) (a := 0) ha
    rw [Nat.zero_add] at hread
    rw [hread, List.getD_eq_getElem _ _ ha]
  case neg =>
    have hend : bs.length ≤ a := Nat.le_of_not_lt ha
    rw [Memory.get_writeBytes_outside (by omega), Memory.get_nil, List.getD_eq_default _ _ hend]

/-- Every register R0..R31 is +0.0 after reset (R38). -/
theorem State.readReg_r_resetWith (p : Params) (n : Fin 32) : (State.resetWith p).readReg (.r n) = 0 := by
  simp [State.readReg, State.resetWith, fZero_false]

/-- Every register F0..F3 is +0.0 after reset (R38). -/
theorem State.readReg_f_resetWith (p : Params) (n : Fin 4) : (State.resetWith p).readReg (.f n) = 0 := by
  simp [State.readReg, State.resetWith, fZero_false]

/-- An image larger than Memory is refused (R420). -/
theorem State.load_eq_none {p : Params} {rom : List Byte} (h : p.memSize < rom.length) : State.load p rom = none :=
  if_pos h

/-- An image that fits is written to address 0 of the reset state, which is otherwise unchanged (R420). -/
theorem State.load_eq_some {p : Params} {rom : List Byte} (h : rom.length ≤ p.memSize) :
    State.load p rom = some { State.resetWith p with mem := Memory.writeBytes [] 0 rom } :=
  if_neg (Nat.not_lt.2 h)

/-- Settles O58: the loaded state differs from the reset state in Memory alone, and Memory reads as the image. -/
theorem runStartState : Obligations.RunStartState := by
  intro p rom
  refine ⟨State.load_eq_none, fun hfit => ⟨_, State.load_eq_some hfit, ?_⟩⟩
  exact ⟨rfl, Memory.get_writeBytes_nil_zero rom,
    fun n => (State.readReg_withMem _ _ _).trans (State.readReg_r_resetWith p n),
    fun n => (State.readReg_withMem _ _ _).trans (State.readReg_f_resetWith p n), rfl, rfl, rfl, rfl⟩

end Sys2Proof.Machine

/-! PROOFS. The bounds check of a Memory access (20_memory R51). -/

namespace Sys2Proof.Machine

/-- A byte string read from Memory, listed address by address (R9). -/
theorem Memory.readBytes_eq_map_range (m : Memory) (a n : Nat) :
    m.readBytes a n = (List.range n).map fun k => m.get (a + k) := by
  apply List.ext_getElem (by simp)
  intro k hread _
  rw [Memory.getElem_readBytes m a n k hread, List.getElem_map, List.getElem_range]

/-- Settles O48: a case for each answer of the bounds check, the byte laws of Memory giving what an access inside it
reads or changes. -/
theorem boundsCheckedAccess : Obligations.BoundsCheckedAccess := by
  rintro s a _ bs rfl
  rw [← inBounds_iff]
  refine ⟨fun hin => ⟨?read, _, memWrite_of_inBounds bs hin, ?write⟩, fun hout => ?fault⟩
  case read => rw [memRead_of_inBounds hin, Memory.readBytes_eq_map_range]
  case write => exact ⟨bytesAt_writeBytes s a.toNat bs, sameMemOutside_writeBytes s a.toNat bs, rfl⟩
  case fault => exact ⟨memRead_of_not_inBounds hout, memWrite_of_not_inBounds bs hout⟩

end Sys2Proof.Machine

/-! PROOFS. The decoder's answer on a whole extent: which register field it rejects, and the instruction whose
encoding it read (30_encoding R82, R86, R88, R89). -/

namespace Sys2Proof

/-! ### A field reader's answer, by the offsets of its register fields -/

/-- The reader `p` of the bytes `n` up to `m` of an instruction, whose register fields stand at the offsets `offs`:
on any bytes `w` that reach to `m` it answers a value and leaves the bytes from `m` on when every register field is
good, and rejects the first bad one in field order otherwise (R88, R89). -/
structure ReadsFields {α : Type} (p : List Byte → Except DecodeError (α × List Byte)) (n m : Nat)
    (offs : List Nat) : Prop where
  le : n ≤ m
  within : ∀ o ∈ offs, n ≤ o ∧ o < m
  answers : ∀ w : List Byte, m ≤ w.length → (∀ o ∈ offs, (w.getD o 0).toNat ≤ 40) →
    ∃ v, p (w.drop n) = .ok (v, w.drop m)
  rejects : ∀ w : List Byte, m ≤ w.length → ∀ o ∈ offs, 41 ≤ (w.getD o 0).toNat →
    (∀ o' ∈ offs, o' < o → (w.getD o' 0).toNat ≤ 40) → p (w.drop n) = .error (.badRegister (w.getD o 0))

namespace ReadsFields

variable {α β : Type}

/-- A reader with no register field rejects nothing. -/
theorem of_answers {p : List Byte → Except DecodeError (α × List Byte)} {n m : Nat} (hle : n ≤ m)
    (h : ∀ w : List Byte, m ≤ w.length → ∃ v, p (w.drop n) = .ok (v, w.drop m)) : ReadsFields p n m [] where
  le := hle
  within := by simp
  answers w hw _ := h w hw
  rejects := by simp

theorem pure (v : α) (n : Nat) : ReadsFields (fun bs => .ok (v, bs)) n n [] :=
  of_answers le_rfl fun _ _ => ⟨v, rfl⟩

/-- Zero bytes are good register fields, so a reader has a value to answer. -/
theorem nonempty {p : List Byte → Except DecodeError (α × List Byte)} {n m : Nat} {offs : List Nat}
    (hp : ReadsFields p n m offs) : Nonempty α := by
  obtain ⟨v, -⟩ := hp.answers (List.replicate m 0) (by simp) (by simp)
  exact ⟨v⟩

/-- Readers in sequence read the register fields of the one and then those of the other. -/
theorem bind {p : List Byte → Except DecodeError (α × List Byte)}
    {q : α → List Byte → Except DecodeError (β × List Byte)} {n m l : Nat} {offs offs' : List Nat}
    (hp : ReadsFields p n m offs) (hq : ∀ v, ReadsFields (q v) m l offs') :
    ReadsFields (fun bs => p bs >>= fun r => q r.1 r.2) n l (offs ++ offs') := by
  obtain ⟨v₀⟩ := hp.nonempty
  have hle := hp.le
  have hle' := (hq v₀).le
  have hwithin := hp.within
  have hwithin' := (hq v₀).within
  refine ⟨hle.trans hle', fun o ho => ?within, fun w hw hgood => ?answers, fun w hw o ho hbad hfirst => ?rejects⟩
  case within =>
    rcases List.mem_append.1 ho with ho | ho
    · exact ⟨(hwithin o ho).1, (hwithin o ho).2.trans_le hle'⟩
    · exact ⟨hle.trans (hwithin' o ho).1, (hwithin' o ho).2⟩
  case answers =>
    obtain ⟨hgood, hgood'⟩ := List.forall_mem_append.1 hgood
    obtain ⟨v, hv⟩ := hp.answers w (hle'.trans hw) hgood
    rw [hv]
    exact (hq v).answers w hw hgood'
  case rejects =>
    obtain ⟨hfirst, hfirst'⟩ := List.forall_mem_append.1 hfirst
    rcases List.mem_append.1 ho with ho | ho
    · rw [hp.rejects w (hle'.trans hw) o ho hbad hfirst]
      rfl
    · have hgood : ∀ o' ∈ offs, (w.getD o' 0).toNat ≤ 40 := fun o' ho' =>
        hfirst o' ho' ((hwithin o' ho').2.trans_le (hwithin' o ho).1)
      obtain ⟨v, hv⟩ := hp.answers w (hle'.trans hw) hgood
      rw [hv]
      exact (hq v).rejects w hw o ho hbad hfirst'

end ReadsFields

/-- A `reg` field holding 0..40 is read (R89). -/
theorem takeReg_cons_of_le {b : Byte} (bs : List Byte) (h : b.toNat ≤ 40) :
    ∃ x, takeReg (b :: bs) = .ok (x, bs) := by
  cases hx : Reg.ofIndex b.toNat with
  | none => exact absurd ((Reg.ofIndex_eq_none_iff _).1 hx) (by omega)
  | some x => exact ⟨x, by simp [takeReg, hx]⟩

/-- A `reg` field is one byte, read when it holds 0..40 and rejected otherwise. -/
theorem takeReg_readsFields (n : Nat) : ReadsFields takeReg n (n + 1) [n] := by
  have hcons : ∀ w : List Byte, n + 1 ≤ w.length → w.drop n = w.getD n 0 :: w.drop (n + 1) := fun w hw => by
    rw [List.getD_eq_getElem _ _ hw, List.drop_eq_getElem_cons hw]
  refine ⟨by omega, by simp, fun w hw hgood => ?answers, fun w hw o ho hbad _ => ?rejects⟩
  case answers =>
    rw [hcons w hw]
    exact takeReg_cons_of_le _ (hgood n (by simp))
  case rejects =>
    obtain rfl := List.mem_singleton.1 ho
    rw [hcons w hw]
    exact takeReg_error _ hbad

theorem takeNat_drop {k n : Nat} {w : List Byte} (h : n + k ≤ w.length) :
    takeNat k (w.drop n) = .ok (leNat ((w.drop n).take k), w.drop (n + k)) := by
  rw [takeNat, if_neg (by rw [List.length_drop]; omega), List.drop_drop]

theorem takeAddr_readsFields (n : Nat) : ReadsFields takeAddr n (n + 4) [] :=
  .of_answers (by omega) fun _ hw => ⟨_, takeNat_drop hw⟩

theorem takeImm_readsFields (n : Nat) : ReadsFields takeImm n (n + 4) [] :=
  .of_answers (by omega) fun _ hw => ⟨_, by rw [takeImm, takeNat_drop hw]; rfl⟩

theorem takeF64_readsFields (n : Nat) : ReadsFields takeF64 n (n + 8) [] :=
  .of_answers (by omega) fun _ hw => ⟨_, by rw [takeF64, takeNat_drop hw]; rfl⟩

/-- Each form reads from the byte after the opcode to the end of its shape's extent, with its register fields where
`Shape.regOffsets` puts them (R82). -/
theorem Form.parse_readsFields (f : Form) : ReadsFields f.parse 1 f.shape.length f.shape.regOffsets := by
  cases f with
  | n i => exact .pure i 1
  | r k => exact (takeReg_readsFields 1).bind fun x => .pure (k x) 2
  | rr k => exact (takeReg_readsFields 1).bind fun x => (takeReg_readsFields 2).bind fun y => .pure (k x y) 3
  | ri k => exact (takeReg_readsFields 1).bind fun x => (takeImm_readsFields 2).bind fun v => .pure (k x v) 6
  | rf k => exact (takeReg_readsFields 1).bind fun x => (takeF64_readsFields 2).bind fun v => .pure (k x v) 10
  | ra k => exact (takeReg_readsFields 1).bind fun x => (takeAddr_readsFields 2).bind fun p => .pure (k x p) 6
  | ar k => exact (takeAddr_readsFields 1).bind fun p => (takeReg_readsFields 5).bind fun x => .pure (k p x) 6
  | a k => exact (takeAddr_readsFields 1).bind fun p => .pure (k p) 5
  | aa k => exact (takeAddr_readsFields 1).bind fun p => (takeAddr_readsFields 5).bind fun q => .pure (k p q) 9
  | raa k =>
    exact (takeReg_readsFields 1).bind fun x => (takeAddr_readsFields 2).bind fun p =>
      (takeAddr_readsFields 6).bind fun q => .pure (k x p q) 10
  | aar k =>
    exact (takeAddr_readsFields 1).bind fun p => (takeAddr_readsFields 5).bind fun q =>
      (takeReg_readsFields 9).bind fun x => .pure (k p q x) 10
  | rar k =>
    exact (takeReg_readsFields 1).bind fun x => (takeAddr_readsFields 2).bind fun p =>
      (takeReg_readsFields 6).bind fun y => .pure (k x p y) 7
  | arr k =>
    exact (takeAddr_readsFields 1).bind fun p => (takeReg_readsFields 5).bind fun x =>
      (takeReg_readsFields 6).bind fun y => .pure (k p x y) 7

/-! ### The bytes of the instruction a form makes -/

/-- The encoder writes the instructions of a form as the opcode byte `op` and then the form's fields (R80, R82). -/
def Form.EncodedWith (op : Byte) : Form → Prop
  | .n i => encode i = [op]
  | .r k => ∀ x, encode (k x) = [op] ++ regField x
  | .rr k => ∀ x y, encode (k x y) = [op] ++ regField x ++ regField y
  | .ri k => ∀ x v, encode (k x v) = [op] ++ regField x ++ immField v
  | .rf k => ∀ x v, encode (k x v) = [op] ++ regField x ++ encodeF64 v
  | .ra k => ∀ x p, encode (k x p) = [op] ++ regField x ++ addrField p
  | .ar k => ∀ p x, encode (k p x) = [op] ++ addrField p ++ regField x
  | .a k => ∀ p, encode (k p) = [op] ++ addrField p
  | .aa k => ∀ p q, encode (k p q) = [op] ++ addrField p ++ addrField q
  | .raa k => ∀ x p q, encode (k x p q) = [op] ++ regField x ++ addrField p ++ addrField q
  | .aar k => ∀ p q x, encode (k p q x) = [op] ++ addrField p ++ addrField q ++ regField x
  | .rar k => ∀ x p y, encode (k x p y) = [op] ++ regField x ++ addrField p ++ regField y
  | .arr k => ∀ p x y, encode (k p x y) = [op] ++ addrField p ++ regField x ++ regField y

/-- The opcode map and the encoder agree on every assigned opcode byte (R86). -/
theorem formOf_encodedWith {n : Nat} {f : Form} (h : formOf n = some f) : f.EncodedWith (BitVec.ofNat 8 n) := by
  unfold formOf at h
  split at h <;> cases h
  all_goals
    simp only [Form.EncodedWith]
    intros
    rfl

@[simp] theorem regField_length (x : Reg) : (regField x).length = 1 := rfl

@[simp] theorem addrField_length (a : Addr) : (addrField a).length = 4 := leBytes_length 4 _

@[simp] theorem immField_length (v : Word) : (immField v).length = 4 := leBytes_length 4 _

/-- What a form reads after its opcode byte is the rest of the encoding of the instruction it makes, which is as long
as its shape says. -/
theorem Form.parse_encode {f : Form} {op : Byte} {bs rest : List Byte} {i : Instr} (he : f.EncodedWith op)
    (h : f.parse bs = .ok (i, rest)) :
    op :: bs = encode i ++ rest ∧ (encode i).length = f.shape.length := by
  have hfields := Form.parse_ok h
  cases f <;> simp only [Form.EncodedWith] at he
  case' n => obtain ⟨rfl, rfl⟩ := hfields
  case' r => obtain ⟨x, rfl, rfl⟩ := hfields
  case' rr => obtain ⟨x, y, rfl, rfl⟩ := hfields
  case' ri => obtain ⟨x, v, rfl, rfl⟩ := hfields
  case' rf => obtain ⟨x, v, rfl, rfl⟩ := hfields
  case' ra => obtain ⟨x, p, rfl, -, rfl⟩ := hfields
  case' ar => obtain ⟨p, x, rfl, -, rfl⟩ := hfields
  case' a => obtain ⟨p, rfl, -, rfl⟩ := hfields
  case' aa => obtain ⟨p, q, rfl, -, -, rfl⟩ := hfields
  case' raa => obtain ⟨x, p, q, rfl, -, -, rfl⟩ := hfields
  case' aar => obtain ⟨p, q, x, rfl, -, -, rfl⟩ := hfields
  case' rar => obtain ⟨x, p, y, rfl, -, rfl⟩ := hfields
  case' arr => obtain ⟨p, x, y, rfl, -, rfl⟩ := hfields
  all_goals simp [he, Form.shape, Shape.length]

/-! ### The decoder's checks in their order (R88) -/

/-- No instruction is longer than `maxLength` (R82). -/
theorem Shape.length_le_maxLength (sh : Shape) : sh.length ≤ maxLength := by
  cases sh <;> decide

theorem decode_unknownOpcode {op : Byte} (rest : List Byte) (h : formOf op.toNat = none) :
    decode (op :: rest) = .error (.unknownOpcode op) := by
  simp [decode, h]

theorem decode_truncated {op : Byte} {rest : List Byte} {f : Form} (h : formOf op.toNat = some f)
    (hl : (op :: rest).length < f.shape.length) : decode (op :: rest) = .error (.truncated f.shape.length) := by
  rw [List.length_cons] at hl
  simp [decode, h, hl]

/-- With the extent there, the first register field that is 41 or more is rejected (R89). -/
theorem decode_badRegister {op : Byte} {rest : List Byte} {f : Form} (h : formOf op.toNat = some f)
    (hl : f.shape.length ≤ (op :: rest).length) {o : Nat} (ho : o ∈ f.shape.regOffsets)
    (hbad : 41 ≤ ((op :: rest).getD o 0).toNat)
    (hfirst : ∀ o' ∈ f.shape.regOffsets, o' < o → ((op :: rest).getD o' 0).toNat ≤ 40) :
    decode (op :: rest) = .error (.badRegister ((op :: rest).getD o 0)) := by
  rw [decode_eq_parse h hl]
  exact f.parse_readsFields.rejects _ hl o ho hbad hfirst

/-- With the extent there and every register field good, the bytes are an instruction's encoding and the decoder
answers that instruction. -/
theorem decode_answers {op : Byte} {rest : List Byte} {f : Form} (h : formOf op.toNat = some f)
    (hl : f.shape.length ≤ (op :: rest).length)
    (hgood : ∀ o ∈ f.shape.regOffsets, ((op :: rest).getD o 0).toNat ≤ 40) :
    ∃ i left, decode (op :: rest) = .ok (i, left) ∧ op :: rest = encode i ++ left ∧
      (encode i).length = f.shape.length := by
  obtain ⟨i, hi⟩ := f.parse_readsFields.answers _ hl hgood
  have he := formOf_encodedWith h
  rw [BitVec.ofNat_toNat, BitVec.setWidth_eq] at he
  exact ⟨i, _, (decode_eq_parse h hl).trans hi, Form.parse_encode he hi⟩

/-! ### The unassigned opcode bytes (R87) -/

/-- The ranges of byte values that are no opcode, each with its two ends (R87). -/
def unassignedRanges : List (Nat × Nat) :=
  [(0x02, 0x0F), (0x1D, 0x1F), (0x22, 0x2F), (0x3F, 0x3F), (0x47, 0x4F), (0x63, 0x6F), (0x7F, 0x7F),
    (0x8D, 0x9F), (0xB0, 0xFF)]

/-- The opcode map has no form for a value of an unassigned range. -/
theorem formOf_eq_none_of_unassigned {n : Nat} {r : Nat × Nat} (hr : r ∈ unassignedRanges) (hlo : r.1 ≤ n)
    (hhi : n ≤ r.2) : formOf n = none := by
  have hall : ∀ r ∈ unassignedRanges, ∀ d < r.2 + 1 - r.1, (formOf (r.1 + d)).isNone := by decide
  have hn := hall r hr (n - r.1) (by omega)
  rwa [Nat.add_sub_cancel' hlo, Option.isNone_iff_eq_none] at hn

end Sys2Proof

/-! PROOFS. The checks of a fetch in their order, on the bytes of Memory (30_encoding R87, R88, R89). -/

namespace Sys2Proof.Machine

variable {s : State}

/-! ### What a fetch sees -/

@[simp] theorem fetchWindow_length (s : State) :
    (fetchWindow s).length = min maxLength (s.params.memSize - s.pc) := Memory.readBytes_length _ _ _

theorem fetchWindow_getElem {k : Nat} (h : k < (fetchWindow s).length) : (fetchWindow s)[k] = s.mem.get (s.pc + k) :=
  Memory.getElem_readBytes _ _ _ _ h

/-- A fetch past the end of Memory sees no byte. -/
theorem fetchWindow_eq_nil (h : s.params.memSize ≤ s.pc) : fetchWindow s = [] := by
  rw [← List.length_eq_zero_iff, fetchWindow_length, Nat.sub_eq_zero_of_le h, Nat.min_zero]

/-- A fetch inside Memory sees the byte at the PC first. -/
theorem fetchWindow_eq_cons (h : s.pc < s.params.memSize) :
    ∃ rest, fetchWindow s = s.mem.get s.pc :: rest := by
  have hlen : 0 < (fetchWindow s).length := by rw [fetchWindow_length, maxLength]; omega
  obtain ⟨b, rest, hw⟩ := List.exists_cons_of_length_pos hlen
  have hb := fetchWindow_getElem hlen
  simp only [hw, List.getElem_cons_zero, Nat.add_zero] at hb
  exact ⟨rest, by rw [hw, hb]⟩

/-- A fetch sees the whole extent of a shape exactly when it ends inside Memory. -/
theorem length_le_fetchWindow_iff (hpc : s.pc < s.params.memSize) (sh : Shape) :
    sh.length ≤ (fetchWindow s).length ↔ s.pc + sh.length ≤ s.params.memSize := by
  have := Shape.length_le_maxLength sh
  rw [fetchWindow_length]
  omega

/-- The byte a fetch sees in a register field is the byte of Memory at the field's offset from the PC. -/
theorem fetchWindow_regField {f : Form} (hpc : s.pc < s.params.memSize)
    (hext : s.pc + f.shape.length ≤ s.params.memSize) :
    ∀ o ∈ f.shape.regOffsets, (fetchWindow s).getD o 0 = s.mem.get (s.pc + o) := by
  intro o ho
  have hlen : o < (fetchWindow s).length :=
    (f.parse_readsFields.within o ho).2.trans_le ((length_le_fetchWindow_iff hpc f.shape).2 hext)
  rw [List.getD_eq_getElem _ _ hlen, fetchWindow_getElem hlen]

/-- Bytes a fetch sees first stand in Memory at the PC. -/
theorem bytesAt_of_fetchWindow {bs rest : List Byte} (h : fetchWindow s = bs ++ rest) : BytesAt s s.pc bs := by
  intro k hk
  have hlen : k < (fetchWindow s).length := by rw [h, List.length_append]; omega
  rw [← fetchWindow_getElem hlen, List.getElem_of_eq h hlen, List.getElem_append_left hk]

/-! ### Each outcome of a fetch, as a step (R88) -/

theorem fetch_of_decode_error {e : DecodeError} (h : decode (fetchWindow s) = .error e) :
    fetch s = .error (fetchFault s.pc e) := by
  simp [fetch, h]

theorem fetch_of_decode_ok {i : Instr} {rest : List Byte} (h : decode (fetchWindow s) = .ok (i, rest)) :
    fetch s = .ok i := by
  simp [fetch, h]

theorem step_of_decode_error {e : DecodeError} (hr : s.status = .running)
    (h : decode (fetchWindow s) = .error e) : step s = .next (faultEntry s (fetchFault s.pc e)) :=
  step_of_fetch_error hr (fetch_of_decode_error h)

theorem step_pcOutOfRange (hr : s.status = .running) (hpc : s.params.memSize ≤ s.pc) :
    step s = .next (faultEntry s (.invalidOpcode s.pc .pcOutOfRange)) :=
  step_of_decode_error (e := .noByte) hr (by rw [fetchWindow_eq_nil hpc]; rfl)

theorem step_unknownOpcode (hr : s.status = .running) (hpc : s.pc < s.params.memSize)
    (hop : formOf (s.mem.get s.pc).toNat = none) :
    step s = .next (faultEntry s (.invalidOpcode s.pc (.unknownOpcode (s.mem.get s.pc)))) := by
  obtain ⟨rest, hw⟩ := fetchWindow_eq_cons hpc
  exact step_of_decode_error hr (hw ▸ decode_unknownOpcode rest hop)

section Assigned

/-! The opcode byte at the PC is assigned. -/

variable {f : Form} (hr : s.status = .running) (hpc : s.pc < s.params.memSize)
  (hop : formOf (s.mem.get s.pc).toNat = some f)

include hr hpc hop

theorem step_truncated (hext : s.params.memSize < s.pc + f.shape.length) :
    step s = .next (faultEntry s (.outOfBounds (.addr s.pc) f.shape.length)) := by
  have hshort : (fetchWindow s).length < f.shape.length := by
    rw [← not_le, length_le_fetchWindow_iff hpc]
    omega
  obtain ⟨rest, hw⟩ := fetchWindow_eq_cons hpc
  rw [hw] at hshort
  exact step_of_decode_error hr (hw ▸ decode_truncated hop hshort)

variable (hext : s.pc + f.shape.length ≤ s.params.memSize)

include hext

theorem step_badRegister {o : Nat} (ho : o ∈ f.shape.regOffsets) (hbad : 41 ≤ (s.mem.get (s.pc + o)).toNat)
    (hfirst : ∀ o' ∈ f.shape.regOffsets, o' < o → (s.mem.get (s.pc + o')).toNat ≤ 40) :
    step s = .next (faultEntry s (.invalidRegister s.pc (s.mem.get (s.pc + o)))) := by
  have hlen := (length_le_fetchWindow_iff hpc f.shape).2 hext
  have hbyte := fetchWindow_regField hpc hext
  obtain ⟨rest, hw⟩ := fetchWindow_eq_cons hpc
  rw [hw] at hlen hbyte
  have hfirst' : ∀ o' ∈ f.shape.regOffsets, o' < o → ((s.mem.get s.pc :: rest).getD o' 0).toNat ≤ 40 :=
    fun o' ho' hlt => by rw [hbyte o' ho']; exact hfirst o' ho' hlt
  rw [← hbyte o ho] at hbad ⊢
  refine step_of_decode_error (e := .badRegister _) hr ?_
  rw [hw]
  exact decode_badRegister hop hlen ho hbad hfirst'

theorem step_executes (hgood : ∀ o ∈ f.shape.regOffsets, (s.mem.get (s.pc + o)).toNat ≤ 40) :
    ∃ i, BytesAt s s.pc (encode i) ∧ (encode i).length = f.shape.length ∧ step s = exec i s := by
  have hlen := (length_le_fetchWindow_iff hpc f.shape).2 hext
  have hgood' : ∀ o ∈ f.shape.regOffsets, ((fetchWindow s).getD o 0).toNat ≤ 40 := fun o ho => by
    rw [fetchWindow_regField hpc hext o ho]
    exact hgood o ho
  obtain ⟨rest, hw⟩ := fetchWindow_eq_cons hpc
  rw [hw] at hlen hgood'
  obtain ⟨i, left, hdecode, hbytes, hsize⟩ := decode_answers hop hlen hgood'
  rw [← hw] at hdecode hbytes
  exact ⟨i, bytesAt_of_fetchWindow hbytes, hsize, step_of_fetch hr (fetch_of_decode_ok hdecode)⟩

end Assigned

/-- Settles O4, by a case for each check of a fetch. -/
theorem fetchChecksInOrder : Obligations.FetchChecksInOrder := by
  intro s hr
  refine ⟨step_pcOutOfRange hr, fun hpc => ?inside⟩
  case inside =>
    cases hop : formOf (s.mem.get s.pc).toNat with
    | none => exact step_unknownOpcode hr hpc hop
    | some f =>
      exact ⟨step_truncated hr hpc hop, fun hext =>
        ⟨fun o ho => step_badRegister hr hpc hop hext ho, step_executes hr hpc hop hext⟩⟩

/-- Settles O5: the opcode map has no form for a value of the nine ranges, so the fetch faults at its second check. -/
theorem unassignedOpcodesFault : Obligations.UnassignedOpcodesFault := by
  intro s hr hpc r hrange hlo hhi
  exact step_unknownOpcode hr hpc (formOf_eq_none_of_unassigned hrange hlo hhi)

end Sys2Proof.Machine

/-! PROOFS. The order of binary64 patterns is the order of their rational values (00_scope R11). -/

namespace Sys2Proof.Machine

/-- The value of a magnitude pattern in units of 2^-1074, the smallest subnormal. -/
def magUnits (m : Nat) : Nat :=
  if m / 2 ^ 52 = 0 then m else (2 ^ 52 + m % 2 ^ 52) * 2 ^ (m / 2 ^ 52 - 1)

/-- Counted from the smallest subnormal, the value of a magnitude is its significand scaled by its exponent. -/
theorem magUnits_fMag (v : F64) : (fMant v : ℚ) * 2 ^ fScale v = magUnits (fMag v) * 2 ^ (-1074 : Int) := by
  unfold fMant fScale magUnits
  split
  case isTrue => rfl
  case isFalse h =>
    have hscale : ((fMag v / 2 ^ 52 : Nat) : Int) - 1075 = ((fMag v / 2 ^ 52 - 1 : Nat) : Int) + -1074 := by omega
    rw [hscale, zpow_add₀ two_ne_zero, zpow_natCast, Nat.cast_mul, Nat.cast_pow, Nat.cast_ofNat, mul_assoc]

/-- The next magnitude is worth more, where the exponent grows by one too. -/
theorem magUnits_lt_succ (m : Nat) : magUnits m < magUnits (m + 1) := by
  have hpos : 0 < 2 ^ (m / 2 ^ 52 - 1) := Nat.two_pow_pos _
  rcases Nat.lt_or_ge (m % 2 ^ 52 + 1) (2 ^ 52) with hsame | hcarry
  case inl =>
    have hexp : (m + 1) / 2 ^ 52 = m / 2 ^ 52 := by omega
    have hfrac : (m + 1) % 2 ^ 52 = m % 2 ^ 52 + 1 := by omega
    unfold magUnits
    rw [hexp, hfrac]
    split
    case isTrue => exact Nat.lt_succ_self m
    case isFalse => exact Nat.mul_lt_mul_of_pos_right (by omega) hpos
  case inr =>
    have hexp : (m + 1) / 2 ^ 52 = m / 2 ^ 52 + 1 := by omega
    have hfrac : (m + 1) % 2 ^ 52 = 0 := by omega
    unfold magUnits
    rw [hexp, hfrac, if_neg (Nat.succ_ne_zero _), Nat.add_sub_cancel]
    split
    case isTrue hsub =>
      rw [hsub]
      omega
    case isFalse hnorm =>
      obtain ⟨e, he⟩ := Nat.exists_eq_succ_of_ne_zero hnorm
      have hdouble : 2 ^ (m / 2 ^ 52) = 2 * 2 ^ (m / 2 ^ 52 - 1) := by
        rw [he, Nat.succ_sub_one, Nat.pow_succ, Nat.mul_comm]
      calc (2 ^ 52 + m % 2 ^ 52) * 2 ^ (m / 2 ^ 52 - 1)
          < ((2 ^ 52 + 0) * 2) * 2 ^ (m / 2 ^ 52 - 1) := Nat.mul_lt_mul_of_pos_right (by omega) hpos
        _ = (2 ^ 52 + 0) * 2 ^ (m / 2 ^ 52) := by rw [hdouble, Nat.mul_assoc]

theorem magUnits_strictMono : StrictMono magUnits := strictMono_nat_of_lt_succ magUnits_lt_succ

/-- The value of a key in units of 2^-1074. -/
def keyUnits (k : Int) : Int := k.sign * magUnits k.natAbs

theorem keyUnits_natCast (n : Nat) : keyUnits n = magUnits n := by
  cases n with
  | zero => rfl
  | succ n => exact one_mul (magUnits (n + 1) : Int)

theorem keyUnits_neg (k : Int) : keyUnits (-k) = -keyUnits k := by simp [keyUnits]

theorem keyUnits_strictMono : StrictMono keyUnits := by
  refine strictMono_of_odd_strictMonoOn_nonneg keyUnits_neg fun a ha b hb hab => ?_
  obtain ⟨m, rfl⟩ := Int.eq_ofNat_of_zero_le ha
  obtain ⟨n, rfl⟩ := Int.eq_ofNat_of_zero_le hb
  rw [keyUnits_natCast, keyUnits_natCast]
  exact_mod_cast magUnits_strictMono (Int.ofNat_lt.1 hab)

/-- The value of a pattern depends on its key alone: both zeros have key 0 and value 0. -/
theorem fVal_eq_keyUnits (v : F64) : fVal v = keyUnits (fKey v) * 2 ^ (-1074 : Int) := by
  have hsign : ((keyUnits (fKey v) : Int) : ℚ) = (if fSign v then -1 else 1) * magUnits (fMag v) := by
    rw [fKey]
    split <;> simp [keyUnits_neg, keyUnits_natCast]
  rw [fVal, mul_assoc, magUnits_fMag, hsign, mul_assoc]

/-- The key orders patterns as their rational values do (R11). -/
theorem fVal_lt_iff (a b : F64) : fVal a < fVal b ↔ fKey a < fKey b := by
  rw [fVal_eq_keyUnits, fVal_eq_keyUnits, mul_lt_mul_iff_left₀ (by positivity), Int.cast_lt, keyUnits_strictMono.lt_iff_lt]

theorem flt_of_isFin {a b : F64} (ha : isFin a = true) (hb : isFin b = true) : flt a b = decide (fVal a < fVal b) := by
  simp [flt, not_isNaN_of_isFin ha, not_isNaN_of_isFin hb, fVal_lt_iff]

end Sys2Proof.Machine

/-! PROOFS. The flags of a float-family result (40_float_arith R120). -/

namespace Sys2Proof.Machine

@[simp] theorem fSign_fabs (v : F64) : fSign (fabs v) = false := fSign_ofSignMag false (fMag_lt v)

@[simp] theorem fMag_fabs (v : F64) : fMag (fabs v) = fMag v := fMag_ofSignMag false (fMag_lt v)

@[simp] theorem isNaN_fabs (v : F64) : isNaN (fabs v) = isNaN v := by simp [isNaN]

@[simp] theorem isFin_fabs (v : F64) : isFin (fabs v) = isFin v := by simp [isFin]

@[simp] theorem fKey_fabs (v : F64) : fKey (fabs v) = fMag v := by simp [fKey]

@[simp] theorem fKey_fZero (neg : Bool) : fKey (fZero neg) = 0 := by cases neg <;> decide

@[simp] theorem isFin_fZero (neg : Bool) : isFin (fZero neg) = true := by cases neg <;> decide

@[simp] theorem fVal_fZero (neg : Bool) : fVal (fZero neg) = 0 := by
  rw [fVal_eq_keyUnits, fKey_fZero]
  simp [keyUnits]

/-- `fabs` is the magnitude of the rational value (R11). -/
theorem fVal_fabs (v : F64) : fVal (fabs v) = |fVal v| := by
  have hsign : |if fSign v then (-1 : ℚ) else 1| = 1 := by split <;> simp
  have hpow : (0 : ℚ) < 2 ^ fScale v := by positivity
  rw [fVal, fVal, abs_mul, abs_mul, hsign, Nat.abs_cast, abs_of_pos hpow]
  simp [fMant, fScale]

/-- A pattern is its sign and magnitude. -/
theorem ofSignMag_fSign_fMag (v : F64) : ofSignMag (fSign v) (fMag v) = v := by
  apply BitVec.eq_of_toNat_eq
  rw [ofSignMag_toNat _ (fMag_lt v), fSign, BitVec.msb_eq_decide, fMag]
  simp only [decide_eq_true_eq]
  have hlt := v.isLt
  split <;> omega

theorem isInf_iff (v : F64) : isInf v = true ↔ fMag v = infMag := beq_iff_eq

theorem eq_posInf_iff (v : F64) : v = 0x7FF0000000000000#64 ↔ isInf v = true ∧ fSign v = false := by
  constructor
  · rintro rfl
    decide
  · rintro ⟨hinf, hpos⟩
    rw [← ofSignMag_fSign_fMag v, hpos, (isInf_iff v).1 hinf]
    decide

theorem not_isInf_of_isNaN {v : F64} (h : isNaN v = true) : isInf v = false := by
  simp only [isNaN, isInf, decide_eq_true_eq, beq_eq_false_iff_ne] at *
  omega

theorem not_isNaN_of_isInf {v : F64} (h : isInf v = true) : isNaN v = false := by
  simp only [isNaN, isInf, beq_iff_eq, decide_eq_false_iff_not] at *
  omega

/-- Of the values of EPS that are not finite, +infinity alone lies above a finite magnitude. -/
theorem flt_fabs_of_isFin_of_not_isFin {r eps : F64} (hr : isFin r = true) (heps : isFin eps = false) :
    flt (fabs r) eps = decide (eps = 0x7FF0000000000000#64) := by
  have hmag : fMag r < infMag := of_decide_eq_true hr
  rcases class_cases eps with hfin | hinf | hnan
  case inl => simp [hfin] at heps
  case inr.inl =>
    have hkey : fMag r < fKey eps ↔ fSign eps = false := by
      rw [fKey, (isInf_iff eps).1 hinf]
      cases fSign eps
      · simpa using hmag
      · simp
    simp [flt, not_isNaN_of_isFin hr, not_isNaN_of_isInf hinf, eq_posInf_iff, hinf, hkey]
  case inr.inr =>
    rw [(compare_nan (.inr hnan)).1]
    simp [eq_posInf_iff, not_isInf_of_isNaN hnan]

/-- No value of EPS lies above an infinite magnitude. -/
theorem flt_fabs_of_isInf {r : F64} (eps : F64) (hr : isInf r = true) : flt (fabs r) eps = false := by
  cases hnan : isNaN eps with
  | true => exact (compare_nan (.inr hnan)).1
  | false =>
    have hmag : fMag eps ≤ infMag := Nat.le_of_not_lt (of_decide_eq_false hnan)
    have hkey : fKey eps ≤ fMag r := by
      rw [fKey, (isInf_iff r).1 hr]
      split <;> omega
    simp [flt, hkey]

/-- An infinity is below 0.0 exactly when its sign says so. -/
theorem flt_fZero_of_isInf {r : F64} (hr : isInf r = true) : flt r (fZero false) = fSign r := by
  have hkey : fKey r < 0 ↔ fSign r = true := by
    rw [fKey, (isInf_iff r).1 hr]
    cases fSign r <;> simp [infMag]
  simp [flt, not_isNaN_of_isInf hr, not_isNaN_of_isFin (isFin_fZero false), hkey]

/-- SF of a finite result is the sign of its value (R120). -/
theorem flt_fZero_of_isFin {r : F64} (hr : isFin r = true) : flt r (fZero false) = decide (fVal r < 0) := by
  rw [flt_of_isFin hr (isFin_fZero false), fVal_fZero]

/-- Settles O16, by the class of the result and, where it is finite, of EPS. -/
theorem floatFlagUpdate : Obligations.FloatFlagUpdate := by
  intro eps r
  refine ⟨fun hr heps => ?finiteEps, fun hr heps => ?otherEps, fun hr => ?infinite, fun hr => ?nan⟩
  case finiteEps =>
    have hzero : flt (fabs r) eps = decide (|fVal r| < fVal eps) := by
      rw [flt_of_isFin ((isFin_fabs r).trans hr) heps, fVal_fabs]
    rw [floatFlags, hzero, flt_fZero_of_isFin hr, not_isInf_of_isFin hr]
  case otherEps =>
    rw [floatFlags, flt_fabs_of_isFin_of_not_isFin hr heps, flt_fZero_of_isFin hr, not_isInf_of_isFin hr]
  case infinite => rw [floatFlags, flt_fabs_of_isInf eps hr, flt_fZero_of_isInf hr, hr]
  case nan =>
    have hzero : flt (fabs r) eps = false := (compare_nan (.inl ((isNaN_fabs r).trans hr))).1
    rw [floatFlags, hzero, (compare_nan (.inl hr)).1, not_isInf_of_isNaN hr]

end Sys2Proof.Machine

/-! PROOFS. The conditional jumps (43_control_flow R264 to R275, R278). -/

namespace Sys2Proof.Machine

/-- The one of JG, JL and JZ the flags take: JZ while ZF is set, otherwise JL or JG by SF (R278). -/
def orderJump (a : Addr) (f : Flags) : Instr :=
  match f.zero, f.sign with
  | true, _ => .jz a
  | false, true => .jl a
  | false, false => .jg a

theorem orderJump_mem (a : Addr) (f : Flags) : orderJump a f ∈ [.jg a, .jl a, .jz a] := by
  unfold orderJump
  split <;> simp

theorem condG_iff_orderJump (a : Addr) (f : Flags) : condG f = true ↔ .jg a = orderJump a f := by
  unfold condG orderJump
  split <;> simp [*]

theorem condL_iff_orderJump (a : Addr) (f : Flags) : condL f = true ↔ .jl a = orderJump a f := by
  unfold condL orderJump
  split <;> simp [*]

theorem condZ_iff_orderJump (a : Addr) (f : Flags) : condZ f = true ↔ .jz a = orderJump a f := by
  unfold condZ orderJump
  split <;> simp [*]

/-- Where the target is not the next instruction, the PC shows whether the branch was taken. -/
theorem branch_pc_eq_target_iff {c : Bool} {a : Addr} {s : State} (hne : s.pc + 5 ≠ a) :
    ∃ t, branch c a s = .next t ∧ (t.pc = a ↔ c = true) := by
  obtain ⟨t, hnext, _, _, hpc, _, _⟩ := branch_effect c a s
  refine ⟨t, hnext, ?_⟩
  rw [hpc]
  cases c with
  | true => simp
  | false => simpa using hne

/-- An instruction that branches under the condition for `i` to be the jump the flags take goes to its target
exactly when it is that jump. -/
theorem pc_eq_target_iff_orderJump {i : Instr} {c : Bool} {a : Addr} {s : State} (hexec : exec i s = branch c a s)
    (hcond : c = true ↔ i = orderJump a s.flags) (hne : s.pc + 5 ≠ a) :
    ∃ t, exec i s = .next t ∧ (t.pc = a ↔ i = orderJump a s.flags) := by
  rw [hexec, ← hcond]
  exact branch_pc_eq_target_iff hne

/-- Settles O36: each jump is a branch under its row of the condition table, and of JG, JL and JZ the one taken is
`orderJump`. -/
theorem conditionalJumps : Obligations.ConditionalJumps := by
  intro a s
  refine ⟨?table, orderJump a s.flags, orderJump_mem a s.flags, ?partition⟩
  case table =>
    simp only [List.forall_mem_cons]
    exact ⟨⟨rfl, branch_effect (condZ s.flags) a s⟩, ⟨rfl, branch_effect (condNZ s.flags) a s⟩,
      ⟨rfl, branch_effect (condG s.flags) a s⟩, ⟨rfl, branch_effect (condGE s.flags) a s⟩,
      ⟨rfl, branch_effect (condL s.flags) a s⟩, ⟨rfl, branch_effect (condLE s.flags) a s⟩,
      ⟨rfl, branch_effect (condS s.flags) a s⟩, ⟨rfl, branch_effect (condNS s.flags) a s⟩,
      ⟨rfl, branch_effect (condC s.flags) a s⟩, ⟨rfl, branch_effect (condNC s.flags) a s⟩,
      ⟨rfl, branch_effect (condO s.flags) a s⟩, ⟨rfl, branch_effect (condNO s.flags) a s⟩, List.forall_mem_nil _⟩
  case partition =>
    simp only [List.forall_mem_cons]
    exact ⟨pc_eq_target_iff_orderJump rfl (condG_iff_orderJump a s.flags),
      pc_eq_target_iff_orderJump rfl (condL_iff_orderJump a s.flags),
      pc_eq_target_iff_orderJump rfl (condZ_iff_orderJump a s.flags), List.forall_mem_nil _⟩

end Sys2Proof.Machine

/-! PROOFS. Fault entry (60_exceptions R381, R384): an instruction's checks come before its writes, so its next
state either keeps the run status or is fault entry alone. -/

namespace Sys2Proof.Machine

variable {s t : State} {pc : Nat}

/-! ### Checks: a value, or a fault that names the PC -/

/-- The PC a record holds, where its kind records one, is `pc` (R381). -/
def FaultRecord.NamesPc (f : FaultRecord) (pc : Nat) : Prop := ∀ p, f.pc? = some p → p = pc

theorem namesPc_of_pc?_eq {f : FaultRecord} (h : f.pc? = some pc) : f.NamesPc pc :=
  fun _ hp => Option.some.inj (hp.symm.trans h)

/-- The value checks made at `pc` answer meets `Q`, and the fault they raise names `pc`. -/
def Answers {α : Type} (pc : Nat) (Q : α → Prop) : Except FaultRecord α → Prop
  | .ok a => Q a
  | .error f => f.NamesPc pc

/-- A failed access or conversion: its record names no PC (R380). -/
theorem Answers.outOfBounds {α : Type} {Q : α → Prop} {place : Place} {n : Nat} :
    Answers pc Q (.error (.outOfBounds place n)) :=
  fun _ h => by cases h

/-- Checks made one after another. -/
theorem Answers.bind {α β : Type} {Q : α → Prop} {R : β → Prop} {x : Except FaultRecord α}
    {g : α → Except FaultRecord β} (hx : Answers pc Q x) (hg : ∀ a, Q a → Answers pc R (g a)) :
    Answers pc R (x >>= g) := by
  cases x with
  | ok a => exact hg a hx
  | error f => exact hx

/-- The run status is the same. -/
def SameStatus (s t : State) : Prop := t.status = s.status

/-! ### The shared checks (R29, R30, R51, R238, R301) -/

theorem addr_answers (pc : Nat) (v : F64) : Answers pc (fun _ => True) (addr v) := by
  unfold addr
  split
  · trivial
  · exact .outOfBounds

theorem count_answers (pc : Nat) (v : F64) : Answers pc (fun _ => True) (count v) := by
  unfold count
  split
  · trivial
  · exact .outOfBounds

theorem memRead_answers (pc : Nat) (s : State) (a : Int) (n : Nat) : Answers pc (fun _ => True) (memRead s a n) := by
  unfold memRead
  split
  · trivial
  · exact .outOfBounds

theorem rdF64_answers (pc : Nat) (s : State) (a : Int) : Answers pc (fun _ => True) (rdF64 s a) :=
  (memRead_answers pc s a 8).bind fun _ _ => trivial

theorem memWrite_answers (pc : Nat) (s : State) (a : Int) (n : Nat) (bs : List Byte) :
    Answers pc (SameStatus s) (memWrite s a n bs) := by
  unfold memWrite
  split
  · exact rfl
  · exact .outOfBounds

theorem strWrite_answers (pc : Nat) (a : Int) (n : Nat) (bs : List Byte) (sh : Shape) (s : State) :
    Answers pc (SameStatus s) (strWrite a n bs sh s) :=
  (memWrite_answers pc s a n bs).bind fun _ ht => ht

theorem strlenAt_answers (pc : Nat) (s : State) (a : Int) : Answers pc (fun _ => True) (strlenAt s a) := by
  unfold strlenAt
  split
  · exact .outOfBounds
  · split
    · trivial
    · exact .outOfBounds

theorem strAt_answers (pc : Nat) (s : State) (a : Int) : Answers pc (fun _ => True) (strAt s a) :=
  (strlenAt_answers pc s a).bind fun k _ => memRead_answers pc s a k

theorem strnlenAt_answers (pc : Nat) (s : State) (a : Int) (n : Nat) :
    Answers pc (fun _ => True) (strnlenAt s a n) := by
  unfold strnlenAt
  split
  · trivial
  · split
    · exact .outOfBounds
    · split
      · trivial
      · split
        · trivial
        · exact .outOfBounds

theorem strnAt_answers (pc : Nat) (s : State) (a : Int) (n : Nat) : Answers pc (fun _ => True) (strnAt s a n) :=
  (strnlenAt_answers pc s a n).bind fun k _ => memRead_answers pc s a k

theorem push_answers (s : State) (v : F64) : Answers s.pc (SameStatus s) (push s v) := by
  unfold push
  dsimp only
  split
  · exact namesPc_of_pc?_eq rfl
  · exact (addr_answers s.pc _).bind fun _ _ => (memWrite_answers s.pc s _ 8 _).bind fun _ ht => ht

theorem pop_answers (s : State) : Answers s.pc (fun r : F64 × State => SameStatus s r.2) (pop s) := by
  unfold pop
  split
  · exact namesPc_of_pc?_eq rfl
  · exact (addr_answers s.pc _).bind fun _ _ => (rdF64_answers s.pc s _).bind fun _ _ => rfl

/-! ### The shared results keep the run status -/

theorem RegEffect.sameStatus {d : Reg} {v : F64} {fl : Flags} {pc : Nat} (h : RegEffect s t d v fl pc) :
    SameStatus s t := by
  obtain ⟨_, _, _, _, _, hstatus, _, _⟩ := h
  exact hstatus

theorem FlagEffect.sameStatus {fl : Flags} {pc : Nat} (h : FlagEffect s t fl pc) : SameStatus s t := by
  obtain ⟨_, _, _, _, hstatus, _, _⟩ := h
  exact hstatus

theorem loadF64_answers (pc : Nat) (d : Reg) (ea : Int) (sh : Shape) (s : State) :
    Answers pc (SameStatus s) (loadF64 d ea sh s) :=
  (rdF64_answers pc s ea).bind fun _ _ => (moveResult_effect ..).sameStatus

theorem loadByte_answers (pc : Nat) (d : Reg) (ea : Int) (sh : Shape) (s : State) :
    Answers pc (SameStatus s) (loadByte d ea sh s) :=
  (memRead_answers pc s ea 1).bind fun _ _ => (moveResult_effect ..).sameStatus

/-! ### An instruction keeps the run status or faults -/

/-- An instruction answers a state of the same run status, or its whole effect is fault entry, with a record that
names the PC (R381, R384). -/
inductive Atomic (s : State) : Result → Prop
  | completes {t : State} (h : SameStatus s t) : Atomic s (.next t)
  | faults {f : FaultRecord} (h : f.NamesPc s.pc) : Atomic s (.next (faultEntry s f))

namespace Atomic

theorem cases_next (h : Atomic s (.next t)) :
    SameStatus s t ∨ ∃ f : FaultRecord, f.NamesPc s.pc ∧ t = faultEntry s f := by
  cases h with
  | completes h => exact .inl h
  | faults h => exact .inr ⟨_, h, rfl⟩

/-- Checks, then the writes (R13). -/
theorem of_checks {x : Except FaultRecord State} (h : Answers s.pc (SameStatus s) x) : Atomic s (complete s x) := by
  cases x with
  | ok t => exact .completes h
  | error f => exact .faults h

/-- Checks on one register value, then the rest. -/
theorem of_addr {v : F64} {g : Int → Except FaultRecord State} (h : ∀ ea, Answers s.pc (SameStatus s) (g ea)) :
    Atomic s (complete s (addr v >>= g)) :=
  of_checks ((addr_answers s.pc v).bind fun ea _ => h ea)

theorem of_count {v : F64} {g : Nat → Except FaultRecord State} (h : ∀ n, Answers s.pc (SameStatus s) (g n)) :
    Atomic s (complete s (count v >>= g)) :=
  of_checks ((count_answers s.pc v).bind fun n _ => h n)

/-- A single check that names the PC, then the result. -/
theorem of_guard {c : Prop} [Decidable c] {f : FaultRecord} (hf : f.pc? = some s.pc) (ht : SameStatus s t) :
    Atomic s (if c then takeFault f s else .next t) := by
  split
  · exact .faults (namesPc_of_pc?_eq hf)
  · exact .completes ht

theorem of_divideBy (op : Nat → F64 → F64 → F64) (d : Reg) (b : F64) (sh : Shape) (s : State) :
    Atomic s (divideBy op d b sh s) :=
  of_guard rfl (arithResult_effect ..).sameStatus

theorem of_branch (c : Bool) (a : Addr) (s : State) : Atomic s (branch c a s) := by
  obtain ⟨t, hnext, heffect⟩ := branch_effect c a s
  rw [hnext]
  exact .completes heffect.sameStatus

theorem of_output (e : HostEvent) (s : State) : Atomic s (output e s) := .completes (State.emit_status s e)

end Atomic

theorem execRet_atomic (s : State) : Atomic s (execRet s) := by
  refine .of_checks ((pop_answers s).bind fun ⟨v, t⟩ ht => (addr_answers s.pc v).bind fun target _ => ?_)
  split
  · exact .outOfBounds
  · exact ht

theorem execSysReadLine_atomic (s : State) : Atomic s (execSysReadLine s) := by
  refine .of_addr fun a => (count_answers s.pc _).bind fun cap _ => ?_
  split
  · exact .outOfBounds
  · split
    · exact State.writeReg_status ..
    · exact (memWrite_answers s.pc s a _ _).bind fun t ht => (State.writeReg_status t ..).trans ht

/-- Every instruction but HLT, by the shared operation it ends with (R13, R384). -/
theorem exec_atomic (i : Instr) (s : State) (hi : i ≠ .hlt) : Atomic s (exec i s) := by
  cases i with
  | hlt => contradiction
  | nop | jmp => exact .completes (State.jump_status ..)
  | jz a | jnz a | jg a | jge a | jl a | jle a | js a | jns a | jc a | jnc a | jo a | jno a => exact .of_branch _ a s
  | call => exact .of_checks ((push_answers s _).bind fun _ ht => ht)
  | ret => exact execRet_atomic s
  | movRR | movRI | movzx | movsx | lea => exact .completes (moveResult_effect ..).sameStatus
  | movRM => exact .of_checks (loadF64_answers ..)
  | movbRM => exact .of_checks (loadByte_answers ..)
  | movRMI => exact .of_addr fun _ => loadF64_answers ..
  | movbRMI => exact .of_addr fun _ => loadByte_answers ..
  | movMR | movbMR => exact .of_checks (strWrite_answers ..)
  | movMRI | movbMRI => exact .of_addr fun _ => strWrite_answers ..
  | push => exact .of_checks ((push_answers s _).bind fun _ ht => ht)
  | pop => exact .of_checks ((pop_answers s).bind fun _ ht => (moveResult_effect ..).sameStatus.trans ht)
  | addRR | addRI | subRR | subRI | mulRR | mulRI | inc | dec | mathAdd | mathSub | mathMul =>
    exact .completes (arithResult_effect ..).sameStatus
  | divRR | divRI | modRR | modRI | mathDiv | mathMod => exact .of_divideBy ..
  | neg => exact .completes (floatResult_effect ..).sameStatus
  | cmpRR | cmpRI => exact .completes (compareResult_effect ..).sameStatus
  | testRR | testRI => exact .completes (testResult_effect ..).sameStatus
  | mathSqrt => exact .of_guard rfl (arithResult_effect ..).sameStatus
  | mathLog => exact .of_guard rfl (floatResult_effect ..).sameStatus
  | andRR | andRI | orRR | orRI | xorRR | xorRI | not => exact .completes (logicResult_effect ..).sameStatus
  | shlRR | shlRI | shrRR | shrRI | rolRR | rolRI | rorRR | rorRI =>
    exact .completes (shiftResult_effect ..).sameStatus
  | sarRR | sarRI => exact .completes (sarResult_effect ..).sameStatus
  | strLen => exact .of_checks ((strlenAt_answers ..).bind fun _ _ => (strResult_effect ..).sameStatus)
  | strCmp | strStr =>
    exact .of_checks ((strAt_answers ..).bind fun _ _ => (strAt_answers ..).bind fun _ _ =>
      (strResult_effect ..).sameStatus)
  | strChr => exact .of_checks ((strAt_answers ..).bind fun _ _ => (strResult_effect ..).sameStatus)
  | strCpy | strUpper | strLower => exact .of_checks ((strAt_answers ..).bind fun _ _ => strWrite_answers ..)
  | strCat =>
    exact .of_checks ((strlenAt_answers ..).bind fun _ _ => (strAt_answers ..).bind fun _ _ => strWrite_answers ..)
  | strNcpy => exact .of_count fun _ => (strnAt_answers ..).bind fun _ _ => strWrite_answers ..
  | strNcat =>
    exact .of_count fun _ => (strlenAt_answers ..).bind fun _ _ => (strnAt_answers ..).bind fun _ _ =>
      strWrite_answers ..
  | memCpy => exact .of_count fun _ => (memRead_answers ..).bind fun _ _ => strWrite_answers ..
  | memSet | memClr => exact .of_count fun _ => strWrite_answers ..
  | sysGetch | sysKbhit | sysVersion => exact .completes (State.writeReg_status ..)
  | sysGetCursor => exact .completes ((State.writeReg_status ..).trans (State.writeReg_status ..))
  | sysPrintChar | sysNewline | sysSetCursor | sysSetColor | sysResetColor | sysPrintNum | sysPrintHex
  | sysClearScreen | sysSleep => exact .of_output ..
  | sysPrintStr => exact .of_addr fun _ => (strAt_answers ..).bind fun _ _ => rfl
  | sysNumToStr => exact .of_addr fun _ => strWrite_answers ..
  | sysReadLine => exact execSysReadLine_atomic s

/-! ### A step keeps the run status, halts or faults -/

@[simp] theorem faultEntry_status (s : State) (f : FaultRecord) : (faultEntry s f).status = .faulted f := rfl

/-- Every step: HLT, or the run goes on, or the whole effect is fault entry (R34, R384). -/
theorem step_status_cases (h : step s = .next t) :
    fetch s = .ok .hlt ∧ t.status = .halted ∨ t.status = .running ∨
      ∃ f : FaultRecord, f.NamesPc s.pc ∧ t = faultEntry s f := by
  obtain ⟨hrun, ⟨i, hfetch, hexec⟩ | ⟨f, hfetch, rfl⟩⟩ := step_cases h
  · by_cases hi : i = .hlt
    · subst hi
      cases hexec
      exact .inl ⟨hfetch, State.halt_status _⟩
    · have hatomic := exec_atomic i s hi
      rw [hexec] at hatomic
      exact .inr (hatomic.cases_next.imp_left fun hsame => hsame.trans hrun)
  · obtain ⟨e, _, rfl⟩ := fetch_error hfetch
    exact .inr (.inr ⟨_, fun _ => fetchFault_pc, rfl⟩)

/-- A step that ends Faulted is fault entry (R384). -/
theorem step_faulted {f : FaultRecord} (h : step s = .next t) (hf : t.status = .faulted f) :
    f.NamesPc s.pc ∧ t = faultEntry s f := by
  obtain ⟨_, hhalted⟩ | hrunning | ⟨g, hg, rfl⟩ := step_status_cases h
  · rw [hhalted] at hf; cases hf
  · rw [hrunning] at hf; cases hf
  · cases hf
    exact ⟨hg, rfl⟩

/-- There is no step from fault entry (R34, R384). -/
theorem step_faultEntry (s : State) (f : FaultRecord) : step (faultEntry s f) = .fault (.engineFaulted f) := rfl

/-- Settles O52: of the three ways a step can end, only fault entry leaves the status Faulted. -/
theorem faultsChangeTheStatusAlone : Obligations.FaultsChangeTheStatusAlone := by
  intro s t f hstep hf
  obtain ⟨hpc, rfl⟩ := step_faulted hstep hf
  refine ⟨rfl, hpc, fun u hu => ?_⟩
  rw [step_faultEntry] at hu
  cases hu

end Sys2Proof.Machine

/-! PROOFS. Decoding and encoding are inverse to each other (30_encoding R81 to R90). -/

namespace Sys2Proof

/-! ### Decoding what the encoder wrote, shape by shape (R82) -/

/-- A field that is read, then the fields after it. -/
theorem Except.bind_of_ok {α β : Type} {x : Except DecodeError α} {g : α → Except DecodeError β} {a : α}
    (h : x = .ok a) : (x >>= g) = g a := by
  rw [h]
  rfl

/-- Bytes whose fields the opcode's form reads as an instruction decode to it: the extent check passes, since the form
found all its fields. -/
theorem decode_of_parse {op : Byte} {f : Form} {fields rest : List Byte} {i : Instr} (hop : formOf op.toNat = some f)
    (h : f.parse fields = .ok (i, rest)) : decode (op :: fields) = .ok (i, rest) := by
  have he := formOf_encodedWith hop
  rw [BitVec.ofNat_toNat, BitVec.setWidth_eq] at he
  obtain ⟨hbytes, hlen⟩ := Form.parse_encode he h
  have hext : f.shape.length ≤ fields.length + 1 := by
    have := congrArg List.length hbytes
    rw [List.length_cons, List.length_append] at this
    omega
  rw [decode_eq_parse hop hext, h]

section Shapes

variable {op : Byte} {x y : Reg} {p q : Addr} {rest : List Byte}

theorem decode_n {i : Instr} (hop : formOf op.toNat = some (.n i)) : decode ([op] ++ rest) = .ok (i, rest) :=
  decode_of_parse hop rfl

theorem decode_r {k : Reg → Instr} (hop : formOf op.toNat = some (.r k)) :
    decode ([op] ++ regField x ++ rest) = .ok (k x, rest) :=
  decode_of_parse hop (Except.bind_of_ok (takeReg_regField x _))

theorem decode_rr {k : Reg → Reg → Instr} (hop : formOf op.toNat = some (.rr k)) :
    decode ([op] ++ regField x ++ regField y ++ rest) = .ok (k x y, rest) := by
  simp only [List.append_assoc]
  exact decode_of_parse hop ((Except.bind_of_ok (takeReg_regField x _)).trans
    (Except.bind_of_ok (takeReg_regField y _)))

theorem decode_ri {k : Reg → Word → Instr} {v : Word} (hop : formOf op.toNat = some (.ri k)) :
    decode ([op] ++ regField x ++ immField v ++ rest) = .ok (k x v, rest) := by
  simp only [List.append_assoc]
  exact decode_of_parse hop ((Except.bind_of_ok (takeReg_regField x _)).trans
    (Except.bind_of_ok (takeImm_immField v _)))

theorem decode_rf {k : Reg → F64 → Instr} {v : F64} (hop : formOf op.toNat = some (.rf k)) :
    decode ([op] ++ regField x ++ encodeF64 v ++ rest) = .ok (k x v, rest) := by
  simp only [List.append_assoc]
  exact decode_of_parse hop ((Except.bind_of_ok (takeReg_regField x _)).trans
    (Except.bind_of_ok (takeF64_encodeF64 v _)))

theorem decode_ra {k : Reg → Addr → Instr} (hop : formOf op.toNat = some (.ra k)) (hp : p < 2 ^ 32) :
    decode ([op] ++ regField x ++ addrField p ++ rest) = .ok (k x p, rest) := by
  simp only [List.append_assoc]
  exact decode_of_parse hop ((Except.bind_of_ok (takeReg_regField x _)).trans
    (Except.bind_of_ok (takeAddr_addrField hp _)))

theorem decode_ar {k : Addr → Reg → Instr} (hop : formOf op.toNat = some (.ar k)) (hp : p < 2 ^ 32) :
    decode ([op] ++ addrField p ++ regField x ++ rest) = .ok (k p x, rest) := by
  simp only [List.append_assoc]
  exact decode_of_parse hop ((Except.bind_of_ok (takeAddr_addrField hp _)).trans
    (Except.bind_of_ok (takeReg_regField x _)))

theorem decode_a {k : Addr → Instr} (hop : formOf op.toNat = some (.a k)) (hp : p < 2 ^ 32) :
    decode ([op] ++ addrField p ++ rest) = .ok (k p, rest) :=
  decode_of_parse hop (Except.bind_of_ok (takeAddr_addrField hp _))

theorem decode_aa {k : Addr → Addr → Instr} (hop : formOf op.toNat = some (.aa k)) (hp : p < 2 ^ 32)
    (hq : q < 2 ^ 32) : decode ([op] ++ addrField p ++ addrField q ++ rest) = .ok (k p q, rest) := by
  simp only [List.append_assoc]
  exact decode_of_parse hop ((Except.bind_of_ok (takeAddr_addrField hp _)).trans
    (Except.bind_of_ok (takeAddr_addrField hq _)))

theorem decode_raa {k : Reg → Addr → Addr → Instr} (hop : formOf op.toNat = some (.raa k)) (hp : p < 2 ^ 32)
    (hq : q < 2 ^ 32) :
    decode ([op] ++ regField x ++ addrField p ++ addrField q ++ rest) = .ok (k x p q, rest) := by
  simp only [List.append_assoc]
  exact decode_of_parse hop ((Except.bind_of_ok (takeReg_regField x _)).trans
    ((Except.bind_of_ok (takeAddr_addrField hp _)).trans (Except.bind_of_ok (takeAddr_addrField hq _))))

theorem decode_aar {k : Addr → Addr → Reg → Instr} (hop : formOf op.toNat = some (.aar k)) (hp : p < 2 ^ 32)
    (hq : q < 2 ^ 32) :
    decode ([op] ++ addrField p ++ addrField q ++ regField x ++ rest) = .ok (k p q x, rest) := by
  simp only [List.append_assoc]
  exact decode_of_parse hop ((Except.bind_of_ok (takeAddr_addrField hp _)).trans
    ((Except.bind_of_ok (takeAddr_addrField hq _)).trans (Except.bind_of_ok (takeReg_regField x _))))

theorem decode_rar {k : Reg → Addr → Reg → Instr} (hop : formOf op.toNat = some (.rar k)) (hp : p < 2 ^ 32) :
    decode ([op] ++ regField x ++ addrField p ++ regField y ++ rest) = .ok (k x p y, rest) := by
  simp only [List.append_assoc]
  exact decode_of_parse hop ((Except.bind_of_ok (takeReg_regField x _)).trans
    ((Except.bind_of_ok (takeAddr_addrField hp _)).trans (Except.bind_of_ok (takeReg_regField y _))))

theorem decode_arr {k : Addr → Reg → Reg → Instr} (hop : formOf op.toNat = some (.arr k)) (hp : p < 2 ^ 32) :
    decode ([op] ++ addrField p ++ regField x ++ regField y ++ rest) = .ok (k p x y, rest) := by
  simp only [List.append_assoc]
  exact decode_of_parse hop ((Except.bind_of_ok (takeAddr_addrField hp _)).trans
    ((Except.bind_of_ok (takeReg_regField x _)).trans (Except.bind_of_ok (takeReg_regField y _))))

end Shapes

/-- Settles O1: each instruction by the lemma of its shape, its opcode byte being the one the opcode map gives that
shape's form. -/
theorem decodeInvertsEncode : Obligations.DecodeInvertsEncode := by
  intro i rest hi
  simp only [Instr.WellFormed] at hi
  cases i with
  | nop | hlt | ret | sysGetch | sysKbhit | sysPrintChar | sysPrintStr | sysNewline | sysSetCursor | sysGetCursor
  | sysSetColor | sysResetColor | sysPrintNum | sysPrintHex | sysNumToStr | sysReadLine | sysClearScreen | sysSleep
  | sysVersion => exact decode_n rfl
  | push | pop | neg | inc | dec | not => exact decode_r rfl
  | movRR | movRMI | movMRI | movbRMI | movbMRI | movzx | movsx | addRR | subRR | mulRR | divRR | modRR | cmpRR
  | mathAdd | mathSub | mathMul | mathDiv | mathMod | mathSqrt | mathLog | andRR | orRR | xorRR | testRR | shlRR | shrRR
  | sarRR | rolRR | rorRR => exact decode_rr rfl
  | andRI | orRI | xorRI | testRI | shlRI | shrRI | sarRI | rolRI | rorRI => exact decode_ri rfl
  | movRI | addRI | subRI | mulRI | divRI | modRI | cmpRI => exact decode_rf rfl
  | movRM | movbRM | lea | strLen => exact decode_ra rfl (hi _ (.head _))
  | movMR | movbMR | memClr => exact decode_ar rfl (hi _ (.head _))
  | jmp | jz | jnz | jg | jge | jl | jle | js | jns | jc | jnc | jo | jno | call | strUpper | strLower =>
    exact decode_a rfl (hi _ (.head _))
  | strCpy | strCat => exact decode_aa rfl (hi _ (.head _)) (hi _ (.tail _ (.head _)))
  | strCmp | strStr => exact decode_raa rfl (hi _ (.head _)) (hi _ (.tail _ (.head _)))
  | strNcpy | strNcat | memCpy => exact decode_aar rfl (hi _ (.head _)) (hi _ (.tail _ (.head _)))
  | strChr => exact decode_rar rfl (hi _ (.head _))
  | memSet => exact decode_arr rfl (hi _ (.head _))

/-! ### Encoding what the decoder read (R90) -/

/-- The address fields of the instructions a form makes are the addresses the form reads (R81). -/
def Form.KeepsAddresses : Form → Prop
  | .n i => i.addrFields = []
  | .r k => ∀ x, (k x).addrFields = []
  | .rr k => ∀ x y, (k x y).addrFields = []
  | .ri k => ∀ x v, (k x v).addrFields = []
  | .rf k => ∀ x v, (k x v).addrFields = []
  | .ra k => ∀ x p, (k x p).addrFields = [p]
  | .ar k => ∀ p x, (k p x).addrFields = [p]
  | .a k => ∀ p, (k p).addrFields = [p]
  | .aa k => ∀ p q, (k p q).addrFields = [p, q]
  | .raa k => ∀ x p q, (k x p q).addrFields = [p, q]
  | .aar k => ∀ p q x, (k p q x).addrFields = [p, q]
  | .rar k => ∀ x p y, (k x p y).addrFields = [p]
  | .arr k => ∀ p x y, (k p x y).addrFields = [p]

theorem formOf_keepsAddresses {n : Nat} {f : Form} (h : formOf n = some f) : f.KeepsAddresses := by
  unfold formOf at h
  split at h <;> cases h
  all_goals
    simp only [Form.KeepsAddresses]
    intros
    rfl

/-- The instruction a form reads is well-formed: every address it reads fits its four bytes (R81). -/
theorem Form.parse_wellFormed {f : Form} {bs rest : List Byte} {i : Instr} (hf : f.KeepsAddresses)
    (h : f.parse bs = .ok (i, rest)) : i.WellFormed := by
  have hfields := Form.parse_ok h
  cases f <;> simp only [Form.KeepsAddresses] at hf
  case' n => obtain ⟨rfl, -⟩ := hfields
  case' r => obtain ⟨x, rfl, -⟩ := hfields
  case' rr => obtain ⟨x, y, rfl, -⟩ := hfields
  case' ri => obtain ⟨x, v, rfl, -⟩ := hfields
  case' rf => obtain ⟨x, v, rfl, -⟩ := hfields
  case' ra => obtain ⟨x, p, rfl, hp, -⟩ := hfields
  case' ar => obtain ⟨p, x, rfl, hp, -⟩ := hfields
  case' a => obtain ⟨p, rfl, hp, -⟩ := hfields
  case' aa => obtain ⟨p, q, rfl, hp, hq, -⟩ := hfields
  case' raa => obtain ⟨x, p, q, rfl, hp, hq, -⟩ := hfields
  case' aar => obtain ⟨p, q, x, rfl, hp, hq, -⟩ := hfields
  case' rar => obtain ⟨x, p, y, rfl, hp, -⟩ := hfields
  case' arr => obtain ⟨p, x, y, rfl, hp, -⟩ := hfields
  all_goals simp_all [Instr.WellFormed]

/-- Settles O2: the decoder read the fields of the form the opcode map gives, which are those the encoder writes. -/
theorem encodeInvertsDecode : Obligations.EncodeInvertsDecode := by
  intro bs i rest h
  obtain ⟨op, fields, f, rfl, hop, -, hparse⟩ := decode_ok h
  have he := formOf_encodedWith hop
  rw [BitVec.ofNat_toNat, BitVec.setWidth_eq] at he
  exact ⟨Form.parse_wellFormed (formOf_keepsAddresses hop) hparse, (Form.parse_encode he hparse).1⟩

/-- A decoded instruction is as long as some shape (R83). -/
theorem length_of_decode {bs rest : List Byte} {i : Instr} (h : decode bs = .ok (i, rest)) :
    ∃ sh : Shape, (encode i).length = sh.length := by
  obtain ⟨op, fields, f, -, hop, -, hparse⟩ := decode_ok h
  have he := formOf_encodedWith hop
  rw [BitVec.ofNat_toNat, BitVec.setWidth_eq] at he
  exact ⟨f.shape, (Form.parse_encode he hparse).2⟩

theorem Shape.length_pos (sh : Shape) : 0 < sh.length := by
  cases sh <;> decide

/-- Settles O3: the decoder evaluated on each word. -/
theorem specWordsDecode : Obligations.SpecWordsDecode :=
  ⟨rfl, rfl, rfl, rfl, rfl, rfl, rfl, rfl, rfl⟩

end Sys2Proof

/-! PROOFS. The frame of every instruction (10_state R32, R33, 20_memory R63): one case split over the instructions,
from which the rules about flags, Memory, PC and the invariant of a run follow. -/

namespace Sys2Proof

/-! ### The instructions that write flags, Memory or the PC, by their opcodes (R32, R63, R260) -/

/-- In the float family, 0x30..0x46, or the integer family, 0x50..0x62 (R32). -/
def Instr.writesFlags (i : Instr) : Bool :=
  decide (0x30 ≤ i.opcode ∧ i.opcode ≤ 0x46) || decide (0x50 ≤ i.opcode ∧ i.opcode ≤ 0x62)

/-- The opcodes R63 lists as writing Memory. -/
def memoryOpcodes : List Nat :=
  [0x13, 0x15, 0x17, 0x19, 0x20, 0x7D, 0x81, 0x82, 0x84, 0x85, 0x86, 0x87, 0x8A, 0x8B, 0x8C, 0xAB, 0xAC]

def Instr.writesMemory (i : Instr) : Bool := decide (i.opcode ∈ memoryOpcodes)

/-- A control transfer, 0x70..0x7E (R33). -/
def Instr.transfers (i : Instr) : Bool := decide (0x70 ≤ i.opcode ∧ i.opcode ≤ 0x7E)

namespace Machine

variable {i : Instr} {s t : State}

/-! ### Frames and how shared operations meet them -/

/-- What a completed instruction may change, field by field: the flags, Memory and the PC only where its opcode says
so, and the trace by one legal request. -/
structure Frame (i : Instr) (s t : State) : Prop where
  params : t.params = s.params
  flags : t.flags = s.flags ∨ i.writesFlags = true
  memory : t.mem = s.mem ∨ i.writesMemory = true ∧ ∃ a bs, a + bs.length ≤ s.params.memSize ∧
    t.mem = s.mem.writeBytes a bs
  pc : t.pc = s.pc + i.length ∨ i.transfers = true ∧ (t.pc ∈ i.addrFields ∨ t.pc < 2 ^ 32)
  trace : t.trace = s.trace ∨ ∃ e : HostEvent, e.Legal ∧ t.trace = s.trace ++ [e]

/-- An instruction that changes registers, the status or the draws, and moves the PC past itself. -/
theorem Frame.of_quiet (hp : t.params = s.params) (hf : t.flags = s.flags) (hm : t.mem = s.mem)
    (hpc : t.pc = s.pc + i.length) (ht : t.trace = s.trace) : Frame i s t :=
  ⟨hp, .inl hf, .inl hm, .inl hpc, .inl ht⟩

theorem Frame.of_moveResult (d : Reg) (v : F64) {sh : Shape} (hl : sh.length = i.length) :
    Frame i s (moveResult d v sh s) :=
  .of_quiet (by simp [moveResult]) (by simp [moveResult]) (by simp [moveResult]) (by simp [moveResult, hl])
    (by simp [moveResult])

theorem Frame.of_advance_writeReg (d : Reg) (v : F64) {sh : Shape} (hl : sh.length = i.length) :
    Frame i s ((s.writeReg d v).advance sh) :=
  .of_moveResult d v hl

/-- Using up a free value changes nothing else. -/
theorem Frame.draw (h : Frame i s t) : Frame i s t.draw := ⟨h.params, h.flags, h.memory, h.pc, h.trace⟩

/-- An instruction of the float and integer families, after one register write or none. -/
theorem Frame.of_setFlags {u : State} (fl : Flags) {sh : Shape} (hi : i.writesFlags = true)
    (hl : sh.length = i.length) (hu : u = s ∨ ∃ d v, u = s.writeReg d v) :
    Frame i s ((u.setFlags fl).advance sh) := by
  obtain rfl | ⟨d, v, rfl⟩ := hu
  · exact ⟨rfl, .inr hi, .inl rfl, .inl (by simp [hl]), .inl rfl⟩
  · exact ⟨by simp, .inr hi, .inl (by simp), .inl (by simp [hl]), .inl (by simp)⟩

section Flags

variable {sh : Shape} (hi : i.writesFlags = true) (hl : sh.length = i.length)

include hi hl

theorem Frame.of_floatResult (d : Reg) (r : F64) : Frame i s (floatResult d r sh s) :=
  .of_setFlags _ hi hl (.inr ⟨d, r, rfl⟩)

theorem Frame.of_arithResult (d : Reg) (r : F64) : Frame i s (arithResult d r sh s) := (of_floatResult hi hl d r).draw

theorem Frame.of_compareResult (r : F64) : Frame i s (compareResult r sh s) := .of_setFlags _ hi hl (.inl rfl)

theorem Frame.of_logicResult (d : Reg) (w : Word) : Frame i s (logicResult d w sh s) :=
  .of_setFlags _ hi hl (.inr ⟨d, _, rfl⟩)

theorem Frame.of_testResult (w : Word) : Frame i s (testResult w sh s) := .of_setFlags _ hi hl (.inl rfl)

theorem Frame.of_shiftResult (d : Reg) (w : Word) : Frame i s (shiftResult d w sh s) :=
  (of_setFlags _ hi hl (.inr ⟨d, _, rfl⟩)).draw

theorem Frame.of_sarResult (d : Reg) (r : Int) : Frame i s (sarResult d r sh s) :=
  (of_setFlags _ hi hl (.inr ⟨d, _, rfl⟩)).draw

end Flags

/-! ### Completed checks -/

/-- Every state the checks end in is framed. -/
def Ends (i : Instr) (s : State) (x : Except FaultRecord State) : Prop := ∀ t, x = .ok t → Frame i s t

theorem Ends.ok (h : Frame i s t) : Ends i s (.ok t) := fun _ ht => Except.ok.inj ht ▸ h

theorem Ends.error (f : FaultRecord) : Ends i s (.error f) := fun _ ht => by cases ht

theorem Ends.bind {α : Type} {x : Except FaultRecord α} {g : α → Except FaultRecord State}
    (h : ∀ a, x = .ok a → Ends i s (g a)) : Ends i s (x >>= g) := fun t ht => by
  obtain ⟨a, ha, hg⟩ := bind_ok_iff.1 ht
  exact h a ha t hg

theorem Ends.loadF64 (d : Reg) (ea : Int) {sh : Shape} (hl : sh.length = i.length) :
    Ends i s (loadF64 d ea sh s) :=
  .bind fun v _ => .ok (.of_moveResult d v hl)

theorem Ends.loadByte (d : Reg) (ea : Int) {sh : Shape} (hl : sh.length = i.length) :
    Ends i s (loadByte d ea sh s) :=
  .bind fun _ _ => .ok (.of_moveResult d _ hl)

/-- A checked write, as a change of Memory alone. -/
theorem memWrite_frame {a : Int} {n : Nat} {bs : List Byte} (h : memWrite s a n bs = .ok t) (hn : bs.length = n) :
    ∃ b cs, b + List.length cs ≤ s.params.memSize ∧ t = { s with mem := s.mem.writeBytes b cs } := by
  obtain ⟨hb, rfl⟩ := memWrite_ok h
  subst hn
  exact ⟨_, bs, hb.2, rfl⟩

theorem Ends.strWrite {a : Int} {n : Nat} {bs : List Byte} {sh : Shape} (hi : i.writesMemory = true)
    (hl : sh.length = i.length) (hn : bs.length = n) : Ends i s (strWrite a n bs sh s) := by
  refine .bind fun u hu => .ok ?_
  obtain ⟨b, cs, hb, rfl⟩ := memWrite_frame hu hn
  exact ⟨rfl, .inl rfl, .inr ⟨hi, b, cs, hb, rfl⟩, .inl (by simp [hl]), .inl rfl⟩

/-- A push that is not refused, then the PC. -/
theorem Ends.push {v : F64} {g : State → Nat} (hi : i.writesMemory = true)
    (hpc : ∀ u : State, u.pc = s.pc →
      g u = s.pc + i.length ∨ i.transfers = true ∧ g u ∈ i.addrFields) :
    Ends i s (push s v >>= fun u => pure (u.jump (g u))) := by
  refine .bind fun u hu => .ok ?_
  obtain ⟨-, -, hb, hst⟩ := push_ok hu
  have hg := hpc u (by rw [hst])
  subst hst
  refine ⟨rfl, .inl rfl, .inr ⟨hi, _, _, ?_, rfl⟩, ?_, .inl rfl⟩
  · rw [encodeF64_length]
    exact hb.2
  · obtain hseq | ⟨htr, hmem⟩ := hg
    · exact .inl hseq
    · exact .inr ⟨htr, .inl hmem⟩

/-- A scan of bounded length finds no more bytes than its bound (R301). -/
theorem strnlenAt_le {a : Int} {n k : Nat} (h : strnlenAt s a n = .ok k) : k ≤ n := by
  unfold strnlenAt at h
  split at h
  · cases h; omega
  · split at h
    · cases h
    · split at h
      · next hk =>
        cases h
        have := (scanZero_some hk).1
        omega
      · split at h <;> cases h
        exact le_rfl

theorem strnAt_length_le {a : Int} {n : Nat} {bs : List Byte} (h : strnAt s a n = .ok bs) : bs.length ≤ n := by
  obtain ⟨k, hk, hr⟩ := bind_ok_iff.1 h
  obtain ⟨-, rfl⟩ := memRead_ok hr
  rw [Memory.readBytes_length]
  exact strnlenAt_le hk

/-! ### Every instruction is framed or faults -/

/-- An instruction completes inside its frame, or its effect is fault entry. -/
inductive Framed (i : Instr) (s : State) : Result → Prop
  | completes {t : State} (h : Frame i s t) : Framed i s (.next t)
  | faults (f : FaultRecord) : Framed i s (.next (faultEntry s f))

namespace Framed

theorem cases_next (h : Framed i s (.next t)) : Frame i s t ∨ ∃ f, t = faultEntry s f := by
  cases h with
  | completes h => exact .inl h
  | faults f => exact .inr ⟨f, rfl⟩

theorem of_checks {x : Except FaultRecord State} (h : Ends i s x) : Framed i s (complete s x) := by
  cases x with
  | ok t => exact .completes (h t rfl)
  | error f => exact .faults f

theorem of_guard {c : Prop} [Decidable c] {f : FaultRecord} (ht : Frame i s t) :
    Framed i s (if c then takeFault f s else .next t) := by
  split
  · exact .faults f
  · exact .completes ht

theorem of_divideBy {op : Nat → F64 → F64 → F64} {d : Reg} {b : F64} {sh : Shape} (hi : i.writesFlags = true)
    (hl : sh.length = i.length) : Framed i s (divideBy op d b sh s) :=
  of_guard (.of_arithResult hi hl d _)

theorem of_branch (c : Bool) {a : Addr} (hi : i.transfers = true) (ha : a ∈ i.addrFields)
    (hl : Shape.length .a = i.length) : Framed i s (branch c a s) := by
  refine .completes ?_
  cases c with
  | true => exact ⟨rfl, .inl rfl, .inl rfl, .inr ⟨hi, .inl ha⟩, .inl rfl⟩
  | false => exact .of_quiet rfl rfl rfl (congrArg (s.pc + ·) hl) rfl

theorem of_output {e : HostEvent} (he : e.Legal) (hl : Shape.length .n = i.length) : Framed i s (output e s) :=
  .completes ⟨rfl, .inl rfl, .inl rfl, .inl (congrArg (s.pc + ·) hl), .inr ⟨e, he, rfl⟩⟩

end Framed

theorem execRet_framed (s : State) : Framed .ret s (execRet s) := by
  refine .of_checks (.bind fun ⟨v, u⟩ hpop => .bind fun target _ => ?_)
  obtain ⟨-, -, -, -, rfl⟩ := pop_ok hpop
  split
  · exact .error _
  · next h => exact .ok ⟨rfl, .inl rfl, .inl rfl, .inr ⟨rfl, .inr (by rw [State.jump_pc]; omega)⟩, .inl rfl⟩

theorem execPop_framed (d : Reg) (s : State) : Framed (.pop d) s (execPop d s) := by
  refine .of_checks (.bind fun ⟨v, u⟩ hpop => .ok ?_)
  obtain ⟨-, -, -, -, rfl⟩ := pop_ok hpop
  have hmove := Frame.of_moveResult (i := .pop d) (s := { s with sp := fadd s.draws s.sp fEight }) d v
    (sh := .r) rfl
  exact ⟨hmove.params, hmove.flags, hmove.memory, hmove.pc, hmove.trace⟩

theorem execSysPrintStr_framed (s : State) : Framed .sysPrintStr s (execSysPrintStr s) := by
  refine .of_checks (.bind fun a _ => .bind fun bs hbs => .ok ?_)
  obtain ⟨-, -, hne, -, -⟩ := strAt_ok hbs
  exact ⟨rfl, .inl rfl, .inl rfl, .inl rfl, .inr ⟨.putStr bs, hne, rfl⟩⟩

theorem execSysReadLine_framed (s : State) : Framed .sysReadLine s (execSysReadLine s) := by
  refine .of_checks (.bind fun a _ => .bind fun cap _ => ?_)
  split
  · exact .error _
  · split
    · exact .ok (.of_advance_writeReg _ _ rfl)
    · refine .bind fun u hu => .ok (Frame.draw ?_)
      obtain ⟨b, cs, hb, rfl⟩ := memWrite_frame hu (by simp)
      exact ⟨rfl, .inl rfl, .inr ⟨rfl, b, cs, hb, rfl⟩, .inl rfl, .inl rfl⟩

/-- Every instruction, by the shared operation it ends with. -/
theorem exec_framed (i : Instr) (s : State) : Framed i s (exec i s) := by
  cases i with
  | nop => exact .completes (.of_quiet rfl rfl rfl rfl rfl)
  | hlt => exact .completes (.of_quiet rfl rfl rfl rfl rfl)
  | jmp a => exact .completes ⟨rfl, .inl rfl, .inl rfl, .inr ⟨rfl, .inl (.head _)⟩, .inl rfl⟩
  | jz a | jnz a | jg a | jge a | jl a | jle a | js a | jns a | jc a | jnc a | jo a | jno a =>
    exact .of_branch _ rfl (.head _) rfl
  | call a => exact .of_checks (.push rfl fun _ _ => .inr ⟨rfl, .head _⟩)
  | ret => exact execRet_framed s
  | movRR | movRI | movzx | movsx | lea => exact .completes (.of_moveResult _ _ rfl)
  | movRM => exact .of_checks (.loadF64 _ _ rfl)
  | movbRM => exact .of_checks (.loadByte _ _ rfl)
  | movRMI => exact .of_checks (.bind fun _ _ => .loadF64 _ _ rfl)
  | movbRMI => exact .of_checks (.bind fun _ _ => .loadByte _ _ rfl)
  | movMR | movbMR => exact .of_checks (.strWrite rfl rfl rfl)
  | movMRI | movbMRI => exact .of_checks (.bind fun _ _ => .strWrite rfl rfl rfl)
  | push => exact .of_checks (.push rfl fun u hu => .inl (by rw [State.next, hu]; rfl))
  | pop d => exact execPop_framed d s
  | addRR | addRI | subRR | subRI | mulRR | mulRI | inc | dec | mathAdd | mathSub | mathMul =>
    exact .completes (.of_arithResult rfl rfl _ _)
  | divRR | divRI | modRR | modRI | mathDiv | mathMod => exact .of_divideBy rfl rfl
  | neg => exact .completes (.of_floatResult rfl rfl _ _)
  | cmpRR | cmpRI => exact .completes (.of_compareResult rfl rfl _)
  | testRR | testRI => exact .completes (.of_testResult rfl rfl _)
  | mathSqrt => exact .of_guard (.of_arithResult rfl rfl _ _)
  | mathLog => exact .of_guard (.of_floatResult rfl rfl _ _)
  | andRR | andRI | orRR | orRI | xorRR | xorRI | not => exact .completes (.of_logicResult rfl rfl _ _)
  | shlRR | shlRI | shrRR | shrRI | rolRR | rolRI | rorRR | rorRI =>
    exact .completes (.of_shiftResult rfl rfl _ _)
  | sarRR | sarRI => exact .completes (.of_sarResult rfl rfl _ _)
  | strLen => exact .of_checks (.bind fun _ _ => .ok (.of_advance_writeReg _ _ rfl))
  | strCmp | strStr => exact .of_checks (.bind fun _ _ => .bind fun _ _ => .ok (.of_advance_writeReg _ _ rfl))
  | strChr => exact .of_checks (.bind fun _ _ => .ok (.of_advance_writeReg _ _ rfl))
  | strCpy | strUpper | strLower => exact .of_checks (.bind fun _ _ => .strWrite rfl rfl (by simp))
  | strCat => exact .of_checks (.bind fun _ _ => .bind fun _ _ => .strWrite rfl rfl (by simp))
  | strNcpy =>
    exact .of_checks (.bind fun _ _ => .bind fun _ hbs => .strWrite rfl rfl (by
      have := strnAt_length_le hbs
      rw [List.length_append, List.length_replicate]
      omega))
  | strNcat => exact .of_checks (.bind fun _ _ => .bind fun _ _ => .bind fun _ _ => .strWrite rfl rfl (by simp))
  | memCpy =>
    exact .of_checks (.bind fun _ _ => .bind fun _ hbs => .strWrite rfl rfl (by simp [(memRead_ok hbs).2]))
  | memSet | memClr => exact .of_checks (.bind fun _ _ => .strWrite rfl rfl (by simp))
  | sysGetch | sysKbhit => exact .completes (Frame.of_advance_writeReg _ _ rfl).draw
  | sysVersion => exact .completes (.of_advance_writeReg _ _ rfl)
  | sysGetCursor => exact .completes (.of_quiet rfl rfl rfl rfl rfl)
  | sysPrintChar | sysNewline | sysSetCursor | sysSetColor | sysResetColor | sysPrintNum | sysPrintHex
  | sysClearScreen | sysSleep => exact .of_output trivial rfl
  | sysPrintStr => exact execSysPrintStr_framed s
  | sysNumToStr => exact .of_checks (.bind fun _ _ => .strWrite rfl rfl (by simp))
  | sysReadLine => exact execSysReadLine_framed s

theorem exec_next_cases (h : exec i s = .next t) : Frame i s t ∨ ∃ f, t = faultEntry s f := by
  have hframed := exec_framed i s
  rw [h] at hframed
  exact hframed.cases_next

/-! ### The rules that follow from the frame -/

/-- Settles O54: the frame's clauses for flags and Memory. -/
theorem onlyListedInstructionsWriteFlagsAndMemory : Obligations.OnlyListedInstructionsWriteFlagsAndMemory := by
  intro i s t h
  obtain hframe | ⟨f, rfl⟩ := exec_next_cases h
  case inl =>
    refine ⟨fun hfloat hint => hframe.flags.resolve_right ?_, fun hop => ?_⟩
    · simp only [Instr.writesFlags, Bool.or_eq_true, decide_eq_true_eq]
      exact not_or.2 ⟨hfloat, hint⟩
    · obtain hmem | ⟨hwrites, -⟩ := hframe.memory
      · exact fun a => by rw [hmem]
      · exact absurd (of_decide_eq_true hwrites) hop
  case inr => exact ⟨fun _ _ => rfl, fun _ _ => rfl⟩

/-- Settles O55: the frame's clause for the PC. -/
theorem sequentialInstructionsAdvanceByTheirLength : Obligations.SequentialInstructionsAdvanceByTheirLength := by
  intro i s t h hsound hop
  obtain hframe | ⟨f, rfl⟩ := exec_next_cases h
  · obtain hpc | ⟨htransfers, -⟩ := hframe.pc
    · exact hpc
    · exact absurd (of_decide_eq_true htransfers) hop
  · exact absurd rfl (hsound f)

/-- Settles O51: `exec` answers inside the frame or with fault entry, and `step` asks it only while Running. -/
theorem runningEngineAlwaysSteps : Obligations.RunningEngineAlwaysSteps := by
  have hexec : ∀ (i : Instr) (s : State), ∃ t, exec i s = .next t := fun i s => by
    have hframed := exec_framed i s
    generalize exec i s = r at hframed ⊢
    cases hframed <;> exact ⟨_, rfl⟩
  refine ⟨hexec, fun s => ⟨fun h => by rw [step, h], fun f h => by rw [step, h], fun h => ?_⟩⟩
  cases hfetch : fetch s with
  | ok i => rw [step_of_fetch h hfetch]; exact hexec i s
  | error f => exact ⟨_, step_of_fetch_error h hfetch⟩

/-! ### A fetched instruction stands in Memory at the PC -/

/-- The instruction a fetch answers is well-formed, and its bytes stand inside Memory from the PC on. -/
theorem fetch_ok_bytesAt (h : fetch s = .ok i) :
    i.WellFormed ∧ BytesAt s s.pc (encode i) ∧ s.pc + i.length ≤ s.params.memSize := by
  obtain ⟨rest, hdecode⟩ := fetch_ok h
  obtain ⟨hwf, hbytes⟩ := encodeInvertsDecode _ _ _ hdecode
  refine ⟨hwf, bytesAt_of_fetchWindow hbytes, ?_⟩
  have hlen := congrArg List.length hbytes
  rw [fetchWindow_length, List.length_append] at hlen
  obtain ⟨sh, hsh⟩ := length_of_decode hdecode
  have hpos := Shape.length_pos sh
  rw [Instr.length]
  omega

/-- Settles O53: of the three ways a step can end, HLT alone leaves the status Halted, and it was fetched at the PC. -/
theorem onlyHltHalts : Obligations.OnlyHltHalts := by
  intro s t hstep hhalted
  obtain ⟨hfetch, -⟩ | hrunning | ⟨f, -, rfl⟩ := step_status_cases hstep
  · obtain ⟨-, hbytes, hfit⟩ := fetch_ok_bytesAt hfetch
    rw [step_of_fetch (step_cases hstep).1 hfetch] at hstep
    cases hstep
    exact ⟨hbytes 0 (Nat.succ_pos _), hfit, rfl⟩
  · rw [hrunning] at hhalted; cases hhalted
  · cases hhalted

/-! ### The invariant of a run -/

/-- Fault entry keeps the invariant when its record names the PC. -/
theorem State.Inv.faultEntry (h : s.Inv) {f : FaultRecord} (hf : f.NamesPc s.pc) : (faultEntry s f).Inv where
  params := h.params
  memory := h.memory
  pcRange := h.pcRange
  faultPc := fun g hg p hp => by cases hg; exact hf p hp
  requests := h.requests

/-- A well-formed instruction that ends inside Memory and does not fault keeps the invariant. -/
theorem Frame.inv (hframe : Frame i s t) (h : s.Inv) (hwf : i.WellFormed) (hfit : s.pc + i.length ≤ s.params.memSize)
    (hsound : t.Sound) : t.Inv where
  params := hframe.params ▸ h.params
  memory := by
    rw [hframe.params]
    obtain hmem | ⟨-, a, bs, hab, hmem⟩ := hframe.memory
    · rw [hmem]; exact h.memory
    · rw [hmem]; exact Memory.wf_writeBytes h.memory hab
  pcRange := by
    obtain hpc | ⟨-, hpc | hpc⟩ := hframe.pc
    · exact hpc ▸ hfit.trans h.params.2
    · exact (hwf _ hpc).le
    · exact hpc.le
  faultPc := fun f hf => absurd hf (hsound f)
  requests := by
    obtain htrace | ⟨e, he, htrace⟩ := hframe.trace
    · rw [htrace]; exact h.requests
    · rw [htrace]
      exact List.forall_mem_append.2 ⟨h.requests, by simpa using he⟩

/-- Settles O56: a step that faults is fault entry naming the PC, and any other runs an instruction inside its
frame. -/
theorem stepKeepsInvariant : Obligations.StepKeepsInvariant := by
  intro s t hinv hstep
  by_cases hsound : t.Sound
  case pos =>
    obtain ⟨-, ⟨i, hfetch, hexec⟩ | ⟨f, -, rfl⟩⟩ := step_cases hstep
    · obtain hframe | ⟨f, rfl⟩ := exec_next_cases hexec
      · obtain ⟨hwf, -, hfit⟩ := fetch_ok_bytesAt hfetch
        exact ⟨hframe.inv hinv hwf hfit hsound, hframe.params⟩
      · exact absurd rfl (hsound f)
    · exact absurd rfl (hsound f)
  case neg =>
    obtain ⟨f, hf⟩ := not_forall_not.1 hsound
    obtain ⟨hpc, rfl⟩ := step_faulted hstep hf
    exact ⟨hinv.faultEntry hpc, rfl⟩

/-- The state a configuration starts from, with any canonical Memory, meets the invariant. -/
theorem State.inv_resetWith {p : Params} {m : Memory} (hp : p.Legal) (hm : m.wf p.memSize) :
    ({ State.resetWith p with mem := m } : State).Inv where
  params := hp
  memory := hm
  pcRange := Nat.zero_le _
  faultPc := fun f hf => by cases hf
  requests := by simp [State.resetWith]

/-- Settles O57: an image that fits is written inside zeroed Memory, which keeps the canonical form. -/
theorem invariantHoldsAtRunStart : Obligations.InvariantHoldsAtRunStart := by
  refine ⟨State.inv_resetWith (p := Params.reference) ⟨by decide, by decide⟩ (Memory.wf_nil _), rfl, fun p rom s hp hload => ?_⟩
  rcases Nat.lt_or_ge p.memSize rom.length with hlarge | hfit
  · rw [State.load_eq_none hlarge] at hload; cases hload
  · rw [State.load_eq_some hfit] at hload
    cases hload
    exact State.inv_resetWith hp (Memory.wf_writeBytes (Memory.wf_nil _) (by omega))

/-! ### Steps of instructions that stand in Memory (R64, R88) -/

theorem Memory.readBytes_add (m : Memory) (a k j : Nat) :
    m.readBytes a (k + j) = m.readBytes a k ++ m.readBytes (a + k) j := by
  induction k generalizing a with
  | zero => simp [Memory.readBytes]
  | succ k ih => rw [Nat.succ_add, Memory.readBytes, Memory.readBytes, ih, List.cons_append, Nat.add_right_comm, Nat.add_assoc]

/-- Bytes of Memory from the PC on that decode to an instruction make the step run it, however many were read. -/
theorem step_of_decode {n : Nat} {rest : List Byte} (hr : s.status = .running) (hn : s.pc + n ≤ s.params.memSize)
    (h : decode (s.mem.readBytes s.pc n) = .ok (i, rest)) : step s = exec i s := by
  obtain ⟨hwf, hbytes⟩ := encodeInvertsDecode _ _ _ h
  obtain ⟨sh, hsh⟩ := length_of_decode h
  have hmax := Shape.length_le_maxLength sh
  have hlen := congrArg List.length hbytes
  rw [Memory.readBytes_length, List.length_append] at hlen
  have hhead : s.mem.readBytes s.pc (encode i).length = encode i := by
    rw [hlen, Memory.readBytes_add] at hbytes
    exact List.append_inj_left hbytes (Memory.readBytes_length _ _ _)
  have hwindow : fetchWindow s = encode i ++ s.mem.readBytes (s.pc + (encode i).length)
      (min maxLength (s.params.memSize - s.pc) - (encode i).length) := by
    rw [fetchWindow, ← Nat.add_sub_cancel' (show (encode i).length ≤ min maxLength (s.params.memSize - s.pc) by omega),
      Memory.readBytes_add, hhead, Nat.add_sub_cancel_left]
  exact step_of_fetch hr (fetch_of_decode_ok (hwindow ▸ decodeInvertsEncode i _ hwf))

/-- Settles O6. -/
theorem stepRunsDecodedInstruction : Obligations.StepRunsDecodedInstruction :=
  fun _ _ _ _ => step_of_decode

/-- A byte stored and the bytes after it, as the next fetch reads them. -/
theorem Memory.readBytes_writeBytes_single (m : Memory) (a n : Nat) (b : Byte) :
    (m.writeBytes a [b]).readBytes a (n + 1) = b :: m.readBytes (a + 1) n := by
  rw [Memory.readBytes_eq_map_range, Memory.readBytes_eq_map_range, List.range_succ_eq_map, List.map_cons,
    List.map_map]
  congr 1
  · exact Memory.get_writeBytes_inside (bs := [b]) (k := 0) (Nat.succ_pos _)
  · refine List.map_congr_left fun k _ => ?_
    rw [Function.comp_apply, Memory.get_writeBytes_outside (by simp)]
    congr 1
    omega

/-- Settles O50: after the store the bytes from the PC on are the stored byte and the bytes that followed it. -/
theorem storesAreSeenByTheNextFetch : Obligations.StoresAreSeenByTheNextFetch := by
  intro x s hr hpc b
  have hexec : exec (.movbMR (s.pc + 6) x) s =
      .next (State.advance { s with mem := s.mem.writeBytes (s.pc + 6) [b] } .ar) := by
    have hb : inBounds s ((s.pc + 6 : Nat) : Int) 1 := ⟨by omega, by omega⟩
    change complete s (strWrite _ 1 [lowByte (s.readReg x)] .ar s) = _
    rw [strWrite_completes _ _ hb, lowByte_eq]
    rfl
  refine ⟨_, hexec, ?_⟩
  generalize ht : State.advance { s with mem := s.mem.writeBytes (s.pc + 6) [b] } .ar = t
  have hrun : t.status = .running := ht ▸ hr
  have htpc : t.pc = s.pc + 6 := ht ▸ rfl
  have hsize : t.params = s.params := ht ▸ rfl
  have hread : ∀ n, t.mem.readBytes t.pc (n + 1) = b :: s.mem.readBytes (s.pc + 7) n :=
    fun n => ht ▸ Memory.readBytes_writeBytes_single s.mem (s.pc + 6) n b
  have hget : t.mem.get t.pc = b := (List.cons.inj (hread 0)).1
  have hdecoded : ∀ (n : Nat) (i : Instr) (rest : List Byte), s.pc + 7 + n ≤ s.params.memSize →
      decode (b :: s.mem.readBytes (s.pc + 7) n) = .ok (i, rest) → step t = exec i t := fun n i rest hn hdecode =>
    step_of_decode hrun (n := n + 1) (by rw [hsize, htpc]; omega) (hread n ▸ hdecode)
  refine ⟨fun hop => ?unassigned, hdecoded, fun hhlt => ?hlt⟩
  case unassigned =>
    rw [← htpc, ← hget]
    exact step_unknownOpcode hrun (by rw [hsize, htpc]; exact hpc) (hget ▸ hop)
  case hlt =>
    refine ⟨_, hdecoded 0 .hlt [] (by omega) (by rw [hhlt]; rfl), rfl, ?_⟩
    change t.pc + 1 = _
    rw [htpc]

end Machine
end Sys2Proof

/-! PROOFS. The instructions of the float family: result, flags and frame (40_float_arith R121 to R146). -/

namespace Sys2Proof.Machine

/-! ### Patterns by sign and magnitude -/

theorem eq_of_fSign_fMag {a b : F64} (hs : fSign a = fSign b) (hm : fMag a = fMag b) : a = b := by
  rw [← ofSignMag_fSign_fMag a, hs, hm, ofSignMag_fSign_fMag]

@[simp] theorem fSign_fneg (v : F64) : fSign (fneg v) = !fSign v := fSign_ofSignMag _ (fMag_lt v)

@[simp] theorem fMag_fneg (v : F64) : fMag (fneg v) = fMag v := fMag_ofSignMag _ (fMag_lt v)

/-- NEG flips the sign bit and keeps every other (R132). -/
theorem fneg_eq_xor (v : F64) : fneg v = v ^^^ 0x8000000000000000#64 := by
  refine eq_of_fSign_fMag ?sign ?magnitude
  case sign =>
    have htop : (0x8000000000000000#64).msb = true := by decide
    rw [fSign_fneg, fSign, fSign, BitVec.msb_xor, htop, Bool.xor_true]
  case magnitude =>
    rw [fMag_fneg, fMag, fMag, BitVec.toNat_xor, Nat.xor_mod_two_pow]
    simp

/-! ### Arithmetic (R122 to R127, R132 to R134, R140 to R142) -/

/-- Settles O17: each instruction is one float result, NEG without a free value. -/
theorem floatArithmeticInstructions : Obligations.FloatArithmeticInstructions := by
  intro d x v s a b k
  have hneg : a ^^^ 0x8000000000000000#64 = fneg a := (fneg_eq_xor a).symm
  rw [hneg]
  simp only [List.forall_mem_cons]
  exact ⟨⟨_, rfl, arithResult_effect ..⟩, ⟨_, rfl, arithResult_effect ..⟩, ⟨_, rfl, arithResult_effect ..⟩,
    ⟨_, rfl, arithResult_effect ..⟩, ⟨_, rfl, arithResult_effect ..⟩, ⟨_, rfl, arithResult_effect ..⟩,
    ⟨_, rfl, arithResult_effect ..⟩, ⟨_, rfl, arithResult_effect ..⟩, ⟨_, rfl, arithResult_effect ..⟩,
    ⟨_, rfl, floatResult_effect ..⟩, ⟨_, rfl, arithResult_effect ..⟩, ⟨_, rfl, arithResult_effect ..⟩,
    List.forall_mem_nil _⟩

/-! ### Division (R121) -/

/-- Both outcomes of a division, by the size of its divisor. -/
theorem divideBy_effect (op : Nat → F64 → F64 → F64) (d : Reg) (b : F64) (sh : Shape) (s : State) :
    (flt (fabs b) s.params.eps = true → divideBy op d b sh s = .next (faultEntry s (.divideByZero s.pc b))) ∧
    (flt (fabs b) s.params.eps = false → ∃ t, divideBy op d b sh s = .next t ∧
      RegEffect s t d (op s.draws (s.readReg d) b) (floatFlags s.params.eps (op s.draws (s.readReg d) b))
        (s.pc + sh.length)) :=
  ⟨divideBy_near_zero, fun h => ⟨_, divideBy_completes h, arithResult_effect ..⟩⟩

/-- Settles O18: all six are `divideBy` on their divisor. -/
theorem divisionAndRemainder : Obligations.DivisionAndRemainder := by
  intro d x v s
  simp only [List.forall_mem_cons]
  exact ⟨divideBy_effect fdiv d _ .rr s, divideBy_effect fdiv d v .rf s, divideBy_effect fmod d _ .rr s,
    divideBy_effect fmod d v .rf s, divideBy_effect fdiv d _ .rr s, divideBy_effect fmod d _ .rr s,
    List.forall_mem_nil _⟩

/-! ### Compare (R135, R136) -/

theorem compareValue_eq_ite (k : Nat) (a b : F64) : compareValue k a b = if feq a b then 0 else fsub k a b := by
  rw [compareValue, fZero_false]

/-- Settles O19: both forms set the flags of `compareValue`. -/
theorem compareInstructions : Obligations.CompareInstructions := by
  intro a b v s
  simp only [List.forall_mem_cons, ← compareValue_eq_ite]
  exact ⟨⟨_, rfl, compareResult_effect ..⟩, ⟨_, rfl, compareResult_effect ..⟩, List.forall_mem_nil _⟩

/-! ### Square root and logarithm (R145, R146) -/

/-- A domain check, then a result. -/
theorem guard_effect {c : Bool} {f : FaultRecord} {s t : State} {P : State → Prop} (ht : P t) :
    (c = true → (if c = true then takeFault f s else .next t : Result) = .next (faultEntry s f)) ∧
    (c = false → ∃ u, (if c = true then takeFault f s else .next t : Result) = .next u ∧ P u) :=
  ⟨fun h => if_pos h, fun h => ⟨t, if_neg (by simp [h]), ht⟩⟩

/-- The operands a square root hands back: a zero and +infinity. -/
theorem fsqrt_eq_self {v : F64} (k : Nat) (hnan : isNaN v = false) (h : fMag v = 0 ∨ fSign v = false ∧ isInf v = true) :
    fsqrt k v = v := by
  unfold fsqrt
  rcases h with h | ⟨hpos, hinf⟩
  · simp [hnan, h]
  · simp [hnan, hpos, hinf]

theorem logFn_one : logFn 0x3FF0000000000000#64 = 0 := (if_pos rfl).trans fZero_false

theorem logFn_posInf : logFn 0x7FF0000000000000#64 = 0x7FF0000000000000#64 := by
  have hinf : (0x7FF0000000000000#64 : F64) = fInf false := by decide
  rw [logFn, if_neg (by decide), if_pos hinf, ← hinf]

theorem isNaN_logFn {v : F64} (h : isNaN v = true) : isNaN (logFn v) = true := by
  have hone : v ≠ fOne := by rintro rfl; exact absurd h (by decide)
  have hinf : v ≠ fInf false := by rintro rfl; exact absurd h (by decide)
  rw [logFn, if_neg hone, if_neg hinf, if_pos h]
  exact isNaN_nanOf _

/-- Settles O21: the domain checks of the two instructions, and the fixed values of the root and of LOG_FN. -/
theorem squareRootAndLogarithm : Obligations.SquareRootAndLogarithm := by
  refine ⟨fun d x s => ?_, fun k => ⟨fsqrt_eq_self k (by decide) (.inl (by decide)),
    fsqrt_eq_self k (by decide) (.inr (by decide))⟩, logFn, logFn_one, logFn_posInf, fun _ => isNaN_logFn,
    fun d x s => ?_⟩
  all_goals rw [← fZero_false]
  · exact guard_effect (P := fun t => RegEffect s t d _ _ _) (arithResult_effect d _ .rr s)
  · exact guard_effect (P := fun t => RegEffect s t d _ _ _) (floatResult_effect d _ .rr s)

end Sys2Proof.Machine

/-! PROOFS. The instructions of the integer family: result, flags and frame (41_integer_bitwise R170 to R190). -/

namespace Sys2Proof.Machine

/-! ### Bitwise operations (R172 to R180) -/

/-- A 32-bit result in the words of R170. -/
theorem logicResult_effect_toNat (d : Reg) (w : Word) (sh : Shape) (s : State) :
    RegEffect s (logicResult d w sh s) d (ofNat w.toNat)
      { zero := decide (w.toNat = 0), sign := decide (2 ^ 31 ≤ w.toNat), carry := false, overflow := false }
      (s.pc + sh.length) :=
  intFlags_eq w false ▸ logicResult_effect d w sh s

theorem testResult_effect_toNat (w : Word) (sh : Shape) (s : State) :
    FlagEffect s (testResult w sh s)
      { zero := decide (w.toNat = 0), sign := decide (2 ^ 31 ≤ w.toNat), carry := false, overflow := false }
      (s.pc + sh.length) :=
  intFlags_eq w false ▸ testResult_effect w sh s

/-- Settles O22: each instruction is one logic or test result. -/
theorem bitwiseInstructions : Obligations.BitwiseInstructions := by
  intro d x imm s fl
  have hnot : 0xFFFFFFFF#32 - u32 (s.readReg d) = ~~~(u32 (s.readReg d)) := BitVec.allOnes_sub_eq_not _
  rw [hnot]
  simp only [List.forall_mem_cons]
  refine ⟨⟨⟨_, rfl, ?_⟩, ⟨_, rfl, ?_⟩, ⟨_, rfl, ?_⟩, ⟨_, rfl, ?_⟩, ⟨_, rfl, ?_⟩, ⟨_, rfl, ?_⟩, ⟨_, rfl, ?_⟩,
    List.forall_mem_nil _⟩, ⟨⟨_, rfl, testResult_effect_toNat ..⟩, ⟨_, rfl, testResult_effect_toNat ..⟩,
    List.forall_mem_nil _⟩⟩
  all_goals exact logicResult_effect_toNat ..

/-! ### Shifts and rotates (R171, R181 to R184, R187 to R190) -/

theorem shl_toNat (a : Word) (c : Nat) : (shl a c).toNat = if c < 32 then a.toNat * 2 ^ c % 2 ^ 32 else 0 := by
  unfold shl
  split <;> simp

theorem shr_toNat (a : Word) (c : Nat) : (shr a c).toNat = if c < 32 then a.toNat / 2 ^ c else 0 := by
  unfold shr
  split
  · have := Nat.div_le_self a.toNat (2 ^ c)
    rw [BitVec.toNat_ofNat, Nat.mod_eq_of_lt (by omega)]
  · rfl

/-- The bits a rotate by `r` below 32 keeps and those it brings round together fill no more than 32 bits. -/
theorem rotate_lt {a r : Nat} (ha : a < 2 ^ 32) (hr : r < 32) :
    a * 2 ^ r % 2 ^ 32 + a / 2 ^ (32 - r) < 2 ^ 32 := by
  have hsplit : 2 ^ 32 = 2 ^ r * 2 ^ (32 - r) := by rw [← pow_add]; congr 1; omega
  have hkeep : a * 2 ^ r % 2 ^ 32 = 2 ^ r * (a % 2 ^ (32 - r)) := by
    rw [hsplit, Nat.mul_comm a, Nat.mul_mod_mul_left]
  have hround : a / 2 ^ (32 - r) < 2 ^ r := by
    rw [Nat.div_lt_iff_lt_mul (by positivity), ← hsplit]
    exact ha
  have hmod : a % 2 ^ (32 - r) + 1 ≤ 2 ^ (32 - r) := Nat.mod_lt _ (by positivity)
  calc a * 2 ^ r % 2 ^ 32 + a / 2 ^ (32 - r) < 2 ^ r * (a % 2 ^ (32 - r)) + 2 ^ r := by rw [hkeep]; omega
    _ = 2 ^ r * (a % 2 ^ (32 - r) + 1) := by ring
    _ ≤ 2 ^ 32 := by rw [hsplit]; exact Nat.mul_le_mul_left _ hmod

theorem rol_toNat (a : Word) (c : Nat) : (rol a c).toNat =
    if c % 32 = 0 then a.toNat else a.toNat * 2 ^ (c % 32) % 2 ^ 32 + a.toNat / 2 ^ (32 - c % 32) := by
  have ha := a.isLt
  rw [rol, BitVec.toNat_ofNat, Nat.mod_eq_of_lt (rotate_lt ha (Nat.mod_lt _ (by decide)))]
  split
  · next h => rw [h]; omega
  · rfl

theorem ror_toNat (a : Word) (c : Nat) : (ror a c).toNat =
    if c % 32 = 0 then a.toNat else a.toNat / 2 ^ (c % 32) + a.toNat * 2 ^ (32 - c % 32) % 2 ^ 32 := by
  have ha := a.isLt
  unfold ror
  split
  · next h => rw [h]; simp
  · next h =>
    have hlt := rotate_lt ha (r := 32 - c % 32) (by omega)
    rw [show 32 - (32 - c % 32) = c % 32 by omega, Nat.add_comm] at hlt
    rw [BitVec.toNat_ofNat, Nat.mod_eq_of_lt hlt]

/-- A shift or rotate whose word is the number `res`: CF is the free value (R170). -/
theorem shiftResult_effect_toNat (d : Reg) {w : Word} {res : Nat} (h : w.toNat = res) (sh : Shape) (s : State) :
    res < 2 ^ 32 ∧ ∃ (t : State) (cf : Bool), (.next (shiftResult d w sh s) : Result) = .next t ∧
      RegEffect s t d (ofNat res)
        { zero := decide (res = 0), sign := decide (2 ^ 31 ≤ res), carry := cf, overflow := false }
        (s.pc + sh.length) := by
  subst h
  exact ⟨w.isLt, _, _, rfl, intFlags_eq w _ ▸ shiftResult_effect d w sh s⟩

/-- Settles O23: each instruction is one shift result, whose number is the formula of R171. -/
theorem shiftAndRotateInstructions : Obligations.ShiftAndRotateInstructions := by
  intro d x imm s shlN shrN rolN rorN cx
  simp only [List.forall_mem_cons]
  exact ⟨shiftResult_effect_toNat d (shl_toNat ..) .rr s, shiftResult_effect_toNat d (shl_toNat ..) .ri s,
    shiftResult_effect_toNat d (shr_toNat ..) .rr s, shiftResult_effect_toNat d (shr_toNat ..) .ri s,
    shiftResult_effect_toNat d (rol_toNat ..) .rr s, shiftResult_effect_toNat d (rol_toNat ..) .ri s,
    shiftResult_effect_toNat d (ror_toNat ..) .rr s, shiftResult_effect_toNat d (ror_toNat ..) .ri s,
    List.forall_mem_nil _⟩

/-! ### Arithmetic shifts (R171, R185, R186) -/

/-- The quotient of an arithmetic shift as the floor of the rational one. -/
theorem sar_eq_floor (v : Int) (c : Nat) :
    sar v c = if c < 32 then ⌊(v : ℚ) / 2 ^ c⌋ else if v < 0 then -1 else 0 := by
  rw [sar, show (v : ℚ) / 2 ^ c = (v : ℚ) / ((2 ^ c : Nat) : ℚ) by push_cast; rfl, Rat.floor_intCast_div_natCast]

/-- An arithmetic shift of a 32-bit number is one. -/
theorem sar_bounds {v : Int} (hlo : -(2 ^ 31) ≤ v) (hhi : v < 2 ^ 31) (c : Nat) :
    sar v c < 2 ^ 31 ∧ -(2 ^ 31) ≤ sar v c := by
  have hpos : (1 : Int) ≤ (2 ^ c : Nat) := by exact_mod_cast Nat.one_le_two_pow
  unfold sar
  split
  · constructor
    · exact Int.ediv_lt_of_lt_mul (by omega) (by nlinarith)
    · exact (Int.le_ediv_iff_mul_le (by omega)).2 (by nlinarith)
  · split <;> omega

/-- The integer flags of a signed 32-bit result (R170). -/
theorem intFlags_ofInt {r : Int} (hlo : -(2 ^ 31) ≤ r) (hhi : r < 2 ^ 31) (cf : Bool) :
    intFlags (BitVec.ofInt 32 r) cf =
      { zero := decide (r = 0), sign := decide (r < 0), carry := cf, overflow := false } := by
  rw [intFlags_eq, BitVec.toNat_ofInt, Flags.mk.injEq]
  refine ⟨?_, ?_, rfl, rfl⟩
  all_goals
    rw [decide_eq_decide]
    omega

theorem i32_bounds (v : F64) : -(2 ^ 31) ≤ i32 v ∧ i32 v < 2 ^ 31 :=
  ⟨BitVec.le_toInt _, BitVec.toInt_lt⟩

/-- A SAR whose result is in the signed 32-bit range. -/
theorem sarResult_effect_floor (d : Reg) (v : F64) (c : Nat) (sh : Shape) (s : State) :
    let res : Int := if c < 32 then ⌊(i32 v : ℚ) / 2 ^ c⌋ else if i32 v < 0 then -1 else 0
    res < 2 ^ 31 ∧ -(2 ^ 31) ≤ res ∧
    ∃ (t : State) (cf : Bool), (.next (sarResult d (sar (i32 v) c) sh s) : Result) = .next t ∧
      RegEffect s t d (ofInt res) { zero := decide (res = 0), sign := decide (res < 0), carry := cf, overflow := false }
        (s.pc + sh.length) := by
  intro res
  have hres : sar (i32 v) c = res := sar_eq_floor _ _
  obtain ⟨hlo, hhi⟩ := i32_bounds v
  obtain ⟨hhi, hlo⟩ := sar_bounds hlo hhi c
  rw [← hres]
  exact ⟨hhi, hlo, _, _, rfl, intFlags_ofInt hlo hhi _ ▸ sarResult_effect d _ sh s⟩

/-- Settles O24. -/
theorem arithmeticShiftInstructions : Obligations.ArithmeticShiftInstructions := by
  intro d x imm s
  simp only [List.forall_mem_cons]
  exact ⟨sarResult_effect_floor d _ _ .rr s, sarResult_effect_floor d _ _ .ri s, List.forall_mem_nil _⟩

end Sys2Proof.Machine

/-! PROOFS. Byte images, moves, loads and stores (20_memory R53, R54, 42_data_movement R221 to R233). -/

namespace Sys2Proof

/-- Byte `k` of an image is bits 8k to 8k+7 of the number (R53). -/
theorem getElem_leBytes (n v k : Nat) (h : k < (leBytes n v).length) :
    (leBytes n v)[k].toNat = v / 2 ^ (8 * k) % 256 := by
  induction n generalizing v k with
  | zero => simp at h
  | succ n ih =>
    cases k with
    | zero => simp [leBytes]
    | succ k =>
      simp only [leBytes, List.getElem_cons_succ]
      rw [ih, Nat.div_div_eq_div_mul, show 256 * 2 ^ (8 * k) = 2 ^ (8 * (k + 1)) by ring]

theorem decodeF64_encodeF64 (v : F64) : decodeF64 (encodeF64 v) = v := by
  have hv := v.isLt
  rw [decodeF64, encodeF64, leNat_leBytes, Nat.mod_eq_of_lt (by omega), BitVec.ofNat_toNat, BitVec.setWidth_eq]

theorem encodeF64_decodeF64 {bs : List Byte} (h : bs.length = 8) : encodeF64 (decodeF64 bs) = bs := by
  have hlt := leNat_lt bs
  rw [h] at hlt
  rw [encodeF64, decodeF64, BitVec.toNat_ofNat, Nat.mod_eq_of_lt (by omega)]
  conv_lhs => rw [← h]
  exact leBytes_leNat bs

/-- Settles O49. -/
theorem binaryImages : Obligations.BinaryImages :=
  ⟨fun v => ⟨encodeF64_length v, decodeF64_encodeF64 v, getElem_leBytes 8 v.toNat⟩, fun _ => encodeF64_decodeF64⟩

namespace Machine

variable {s t : State}

/-! ### Register moves -/

/-- Settles O25: each is one move. -/
theorem registerMoves : Obligations.RegisterMoves := by
  intro d x v a s
  simp only [List.forall_mem_cons]
  exact ⟨⟨_, rfl, moveResult_effect ..⟩, ⟨_, rfl, moveResult_effect ..⟩, ⟨_, rfl, moveResult_effect ..⟩,
    ⟨_, rfl, moveResult_effect ..⟩, ⟨_, rfl, moveResult_effect ..⟩, List.forall_mem_nil _⟩

/-! ### Checks on register values, completed (R29, R30, R384) -/

theorem complete_addr_of_isFin {v : F64} {g : Int → Except FaultRecord State} (h : isFin v = true) :
    complete s (addr v >>= g) = complete s (g (ftrunc v)) := by
  rw [addr_of_finite h, bind_ok]

theorem complete_addr_of_not_isFin {v : F64} {g : Int → Except FaultRecord State} (h : isFin v = false) :
    complete s (addr v >>= g) = .next (faultEntry s (.outOfBounds (.value v) 0)) := by
  rw [addr_of_not_finite h, bind_error, complete_error]

theorem complete_count_of_good {v : F64} {g : Nat → Except FaultRecord State} (h : isFin v = true)
    (h0 : 0 ≤ ftrunc v) : complete s (count v >>= g) = complete s (g (ftrunc v).toNat) := by
  rw [count_of_good h h0, bind_ok]

theorem complete_count_of_bad {v : F64} {g : Nat → Except FaultRecord State} (h : isFin v = false ∨ ftrunc v < 0) :
    complete s (count v >>= g) = .next (faultEntry s (.outOfBounds (.value v) 0)) := by
  rw [count_of_bad h, bind_error, complete_error]

/-- The bounds check of an address operand (R51). -/
theorem inBounds_natCast {a n : Nat} : inBounds s (a : Int) n ↔ a + n ≤ s.params.memSize := by
  rw [inBounds, Int.toNat_natCast, and_iff_right (Int.natCast_nonneg a)]

/-! ### Loads, completed -/

/-- The eight bytes from an address on as a binary64. -/
theorem decodeF64_readBytes (m : Memory) (a : Nat) :
    decodeF64 (m.readBytes a 8) = decodeF64 ((List.range 8).map fun k => m.get (a + k)) := by
  rw [Memory.readBytes_eq_map_range]

theorem loadF64_effect {a : Int} (d : Reg) (sh : Shape) (h : inBounds s a 8) :
    ∃ t, complete s (loadF64 d a sh s) = .next t ∧
      RegEffect s t d (decodeF64 ((List.range 8).map fun k => s.mem.get (a.toNat + k))) s.flags (s.pc + sh.length) := by
  rw [loadF64_completes d sh h, decodeF64_readBytes]
  exact ⟨_, rfl, moveResult_effect ..⟩

theorem loadF64_fault {a : Int} (d : Reg) (sh : Shape) (h : ¬ inBounds s a 8) :
    complete s (loadF64 d a sh s) = .next (faultEntry s (.outOfBounds (.addr a) 8)) := by
  rw [loadF64_faults d sh h, complete_error]

theorem loadByte_effect {a : Int} (d : Reg) (sh : Shape) (h : inBounds s a 1) :
    ∃ t, complete s (loadByte d a sh s) = .next t ∧
      RegEffect s t d (ofNat (s.mem.get a.toNat).toNat) s.flags (s.pc + sh.length) := by
  rw [loadByte_completes d sh h]
  exact ⟨_, rfl, moveResult_effect ..⟩

theorem loadByte_fault {a : Int} (d : Reg) (sh : Shape) (h : ¬ inBounds s a 1) :
    complete s (loadByte d a sh s) = .next (faultEntry s (.outOfBounds (.addr a) 1)) := by
  rw [loadByte_faults d sh h, complete_error]

/-- Settles O26: a load at the operand address, inside Memory or not. -/
theorem absoluteLoads : Obligations.AbsoluteLoads := by
  intro d a s
  refine ⟨fun h => ?_, fun h => ?_, fun h => ?_, fun h => ?_⟩
  · exact loadF64_effect d .ra (inBounds_natCast.2 h)
  · exact loadF64_fault d .ra (mt inBounds_natCast.1 (Nat.not_le.2 h))
  · exact loadByte_effect d .ra (inBounds_natCast.2 h)
  · exact loadByte_fault d .ra (mt inBounds_natCast.1 (Nat.not_le.2 (Nat.lt_succ_of_le h)))

/-- Settles O27: the conversion, then a load at the truncated address, inside Memory or not. -/
theorem indirectLoads : Obligations.IndirectLoads := by
  intro d x s v a
  refine ⟨fun hv => ⟨complete_addr_of_not_isFin hv, complete_addr_of_not_isFin hv⟩, fun hv h => ?_, fun hv h => ?_,
    fun hv h0 h => ?_, fun hv h0 h => ?_⟩
  · exact (complete_addr_of_isFin hv).trans (loadF64_fault d .rr (mt inBounds_iff.1 h))
  · exact (complete_addr_of_isFin hv).trans (loadByte_fault d .rr (mt inBounds_iff.1 h))
  · obtain ⟨t, ht, heffect⟩ := loadF64_effect d .rr (inBounds_iff.2 ⟨h0, h⟩)
    exact ⟨t, (complete_addr_of_isFin hv).trans ht, heffect⟩
  · obtain ⟨t, ht, heffect⟩ := loadByte_effect d .rr (inBounds_iff.2 ⟨h0, h⟩)
    exact ⟨t, (complete_addr_of_isFin hv).trans ht, heffect⟩

/-! ### Stores, completed -/

theorem strWrite_effect {a : Int} {n : Nat} {bs : List Byte} (sh : Shape) (h : inBounds s a n) :
    ∃ t, complete s (strWrite a n bs sh s) = .next t ∧ StoreEffect s t a.toNat bs (s.pc + sh.length) := by
  rw [strWrite_completes bs sh h]
  exact ⟨_, rfl, storeEffect_writeBytes ..⟩

theorem strWrite_fault {a : Int} {n : Nat} {bs : List Byte} (sh : Shape) (h : ¬ inBounds s a n) :
    complete s (strWrite a n bs sh s) = .next (faultEntry s (.outOfBounds (.addr a) n)) := by
  rw [strWrite_faults bs sh h, complete_error]

/-- Both outcomes of a store at an address operand. -/
theorem strWrite_natCast (a n : Nat) (bs : List Byte) (sh : Shape) (s : State) :
    (a + n ≤ s.params.memSize →
      ∃ t, complete s (strWrite a n bs sh s) = .next t ∧ StoreEffect s t a bs (s.pc + sh.length)) ∧
    (s.params.memSize < a + n →
      complete s (strWrite a n bs sh s) = .next (faultEntry s (.outOfBounds (.addr a) n))) :=
  ⟨fun h => strWrite_effect sh (inBounds_natCast.2 h),
    fun h => strWrite_fault sh (mt inBounds_natCast.1 (Nat.not_le.2 h))⟩

/-- Settles O28: a store of the register's image, or of its low byte, at the operand address. -/
theorem absoluteStores : Obligations.AbsoluteStores := by
  intro a x s
  simp only [List.forall_mem_cons, ← lowByte_eq]
  exact ⟨strWrite_natCast a 8 _ .ar s, strWrite_natCast a 1 _ .ar s, List.forall_mem_nil _⟩

/-- The outcomes of a store at the address a register holds (R29, R51). -/
theorem addr_strWrite (v : F64) (n : Nat) (bs : List Byte) (sh : Shape) (s : State) :
    (isFin v = false → complete s (addr v >>= fun a => strWrite a n bs sh s) =
      .next (faultEntry s (.outOfBounds (.value v) 0))) ∧
    (isFin v = true → ¬ (0 ≤ ftrunc v ∧ ftrunc v + n ≤ s.params.memSize) →
      complete s (addr v >>= fun a => strWrite a n bs sh s) =
        .next (faultEntry s (.outOfBounds (.addr (ftrunc v)) n))) ∧
    (isFin v = true → 0 ≤ ftrunc v → ftrunc v + n ≤ s.params.memSize →
      ∃ t, complete s (addr v >>= fun a => strWrite a n bs sh s) = .next t ∧
        StoreEffect s t (ftrunc v).toNat bs (s.pc + sh.length)) := by
  refine ⟨complete_addr_of_not_isFin, fun hv h => ?_, fun hv h0 h => ?_⟩
  · rw [complete_addr_of_isFin hv]
    exact strWrite_fault sh (mt inBounds_iff.1 h)
  · rw [complete_addr_of_isFin hv]
    exact strWrite_effect sh (inBounds_iff.2 ⟨h0, h⟩)

/-- Settles O29: the same stores at the truncated address. -/
theorem indirectStores : Obligations.IndirectStores := by
  intro d x s v a
  simp only [List.forall_mem_cons, ← lowByte_eq]
  exact ⟨addr_strWrite v 8 _ .rr s, addr_strWrite v 1 _ .rr s, List.forall_mem_nil _⟩

end Machine
end Sys2Proof

/-! PROOFS. The stack instructions (42_data_movement R238 to R241, 43_control_flow R276, R277) and NOP, HLT and JMP. -/

namespace Sys2Proof.Machine

variable {s : State}

/-! ### Push, completed -/

/-- The outcomes of a push that then sets the PC, to `pc` whatever state it is asked in. -/
theorem push_effect (v : F64) (s : State) {g : State → Nat} {pc : Nat} (hg : ∀ u : State, u.pc = s.pc → g u = pc) :
    let nsp := fsub s.draws s.sp fEight
    let r := complete s (push s v >>= fun u => Pure.pure (u.jump (g u)))
    (flt nsp 0 = true → r = .next (faultEntry s (.stackOverflow s.pc s.sp))) ∧
    (flt nsp 0 = false → isFin nsp = false → r = .next (faultEntry s (.outOfBounds (.value nsp) 0))) ∧
    (flt nsp 0 = false → isFin nsp = true → ¬ (0 ≤ ftrunc nsp ∧ ftrunc nsp + (8 : Nat) ≤ s.params.memSize) →
      r = .next (faultEntry s (.outOfBounds (.addr (ftrunc nsp)) 8))) ∧
    (flt nsp 0 = false → isFin nsp = true → 0 ≤ ftrunc nsp → ftrunc nsp + (8 : Nat) ≤ s.params.memSize →
      ∃ t, r = .next t ∧ BytesAt t (ftrunc nsp).toNat (encodeF64 v) ∧ SameMemOutside s t (ftrunc nsp).toNat 8 ∧
        t.sp = nsp ∧ SameRegs s t [.sp] ∧ t.flags = s.flags ∧ t.pc = pc ∧ SameRun s t) := by
  intro nsp r
  rw [← fZero_false]
  refine ⟨fun h => ?overflow, fun h hv => ?value, fun h hv hb => ?bounds, fun h hv h0 hb => ?completes⟩
  case overflow =>
    have hpush : push s v = .error (.stackOverflow s.pc s.sp) := if_pos h
    simp only [r, hpush, bind_error, complete_error]
  case value =>
    have hpush : push s v = .error (.outOfBounds (.value nsp) 0) := by
      refine (if_neg (by simp [h, nsp])).trans ?_
      rw [addr_of_not_finite hv, bind_error]
    simp only [r, hpush, bind_error, complete_error]
  case bounds =>
    have hpush : push s v = .error (.outOfBounds (.addr (ftrunc nsp)) 8) := by
      refine (if_neg (by simp [h, nsp])).trans ?_
      rw [addr_of_finite hv, bind_ok, wrF64, memWrite_of_not_inBounds _ (mt inBounds_iff.1 hb), bind_error]
    simp only [r, hpush, bind_error, complete_error]
  case completes =>
    have hpush := push_completes (v := v) rfl h hv (inBounds_iff.2 ⟨h0, hb⟩)
    generalize hu : ({ s with mem := s.mem.writeBytes (ftrunc nsp).toNat (encodeF64 v), sp := nsp } : State) = u at hpush
    have hr : r = .next (u.jump (g u)) := by
      simp only [r, hpush, bind_ok]
      rfl
    refine ⟨u.jump (g u), hr, ?_⟩
    rw [hg u (by rw [← hu])]
    subst hu
    refine ⟨fun k hk => Memory.get_writeBytes_inside hk,
      fun b hb' => Memory.get_writeBytes_outside (by rwa [encodeF64_length]), rfl, ?_, rfl, rfl, rfl, rfl, rfl⟩
    exact sameRegs_writeReg { s with mem := s.mem.writeBytes (ftrunc nsp).toNat (encodeF64 v) } .sp nsp

/-- Settles O30: PUSH and CALL are a push followed by the PC each goes to. -/
theorem pushAndCall : Obligations.PushAndCall := by
  intro x target s nsp a
  simp only [List.forall_mem_cons]
  exact ⟨push_effect _ s fun u hu => by rw [State.next, hu]; rfl, push_effect _ s fun _ _ => rfl,
    List.forall_mem_nil _⟩

/-! ### Pop, completed -/

/-- The checks of a pop that fail, whatever follows it. -/
theorem pop_faults (g : F64 × State → Except FaultRecord State) (s : State) :
    let r := complete s (pop s >>= g)
    (fle (ofNat s.params.memSize) s.sp = true → r = .next (faultEntry s (.stackUnderflow s.pc s.sp))) ∧
    (fle (ofNat s.params.memSize) s.sp = false → isFin s.sp = false →
      r = .next (faultEntry s (.outOfBounds (.value s.sp) 0))) ∧
    (fle (ofNat s.params.memSize) s.sp = false → isFin s.sp = true →
      ¬ (0 ≤ ftrunc s.sp ∧ ftrunc s.sp + (8 : Nat) ≤ s.params.memSize) →
      r = .next (faultEntry s (.outOfBounds (.addr (ftrunc s.sp)) 8))) := by
  intro r
  refine ⟨fun h => ?underflow, fun h hv => ?value, fun h hv hb => ?bounds⟩
  case underflow =>
    have hpop : pop s = .error (.stackUnderflow s.pc s.sp) := if_pos h
    simp only [r, hpop, bind_error, complete_error]
  case value =>
    have hpop : pop s = .error (.outOfBounds (.value s.sp) 0) := by
      refine (if_neg (by simp [h])).trans ?_
      rw [addr_of_not_finite hv, bind_error]
    simp only [r, hpop, bind_error, complete_error]
  case bounds =>
    have hpop : pop s = .error (.outOfBounds (.addr (ftrunc s.sp)) 8) := by
      refine (if_neg (by simp [h])).trans ?_
      rw [addr_of_finite hv, bind_ok, rdF64, memRead_of_not_inBounds (mt inBounds_iff.1 hb)]
      rfl
    simp only [r, hpop, bind_error, complete_error]

/-- A pop of a slot inside Memory, then what follows it. -/
theorem complete_pop {g : F64 × State → Except FaultRecord State} (h : fle (ofNat s.params.memSize) s.sp = false)
    (hv : isFin s.sp = true) (h0 : 0 ≤ ftrunc s.sp) (hb : ftrunc s.sp + (8 : Nat) ≤ s.params.memSize) :
    complete s (pop s >>= g) =
      complete s (g (decodeF64 ((List.range 8).map fun k => s.mem.get ((ftrunc s.sp).toNat + k)),
        s.writeReg .sp (fadd s.draws s.sp fEight))) := by
  rw [pop_completes h hv (inBounds_iff.2 ⟨h0, hb⟩), bind_ok, decodeF64_readBytes]

/-- Settles O31: the checks of Pop, then SP, then the destination. -/
theorem popInstruction : Obligations.PopInstruction := by
  intro d s a v
  obtain ⟨hunderflow, hvalue, hbounds⟩ := pop_faults (fun r => Pure.pure (moveResult d r.1 .r r.2)) s
  refine ⟨hunderflow, hvalue, hbounds, fun h hv h0 hb => ?_⟩
  refine ⟨_, complete_pop h hv h0 hb, ?_⟩
  obtain ⟨hd, hregs, hflags, hpc, hmem, hrun⟩ :=
    moveResult_effect d v .r (s.writeReg .sp (fadd s.draws s.sp fEight))
  refine ⟨hd, fun hsp => hregs .sp rfl (by simpa using Ne.symm hsp), fun x hx hd' => ?_, hflags, hpc, hmem, hrun⟩
  rw [List.mem_cons, not_or] at hd'
  rw [hregs x hx hd'.2, State.readReg_writeReg_other s _ hd'.1]

/-- Settles O32: the checks of Pop, then the conversion and the range of the popped value. -/
theorem returnInstruction : Obligations.ReturnInstruction := by
  intro s a v
  obtain ⟨hunderflow, hvalue, hbounds⟩ := pop_faults (fun r => do
    let target ← addr r.1
    if target < 0 ∨ 2 ^ 32 ≤ target.toNat then .error (.outOfBounds (.value r.1) 0)
    else Pure.pure (r.2.jump target.toNat)) s
  refine ⟨hunderflow, hvalue, hbounds, fun h hv h0 hb => ⟨fun hbad => ?bad, fun hfin h1 h2 => ?good⟩⟩
  case bad =>
    refine (complete_pop h hv h0 hb).trans ?_
    cases hfin : isFin v with
    | false => exact complete_addr_of_not_isFin hfin
    | true =>
      refine (complete_addr_of_isFin hfin).trans ?_
      rw [if_pos (by simp only [hfin, Bool.true_eq_false, false_or] at hbad; omega), complete_error]
  case good =>
    refine ⟨(s.writeReg .sp (fadd s.draws s.sp fEight)).jump (ftrunc v).toNat,
      (complete_pop h hv h0 hb).trans ((complete_addr_of_isFin hfin).trans ?_), ?_⟩
    · rw [if_neg (by omega)]
      rfl
    · exact ⟨rfl, sameRegs_writeReg s .sp _, rfl, Int.toNat_of_nonneg h1, fun _ => rfl, rfl, rfl, rfl⟩

/-- Settles O35: each is a jump, HLT with the status Halted, from which `step` answers no next state. -/
theorem nopHaltAndJump : Obligations.NopHaltAndJump := by
  intro a s
  refine ⟨rfl, rfl, rfl, ⟨_, rfl, jump_effect s _⟩, ⟨_, rfl, rfl, rfl, fun x _ _ => by simp, rfl, fun _ => rfl, rfl,
    fun u h => ?_⟩, ⟨_, rfl, jump_effect s a⟩⟩
  cases h

end Sys2Proof.Machine

/-! PROOFS. The string and block instructions (44_string_memory R301 to R314). -/

namespace Sys2Proof.Machine

variable {s : State}

/-! ### The functions on byte strings, in the words of the library -/

/-- The order of strings is the lexicographic order of their unsigned bytes (R305). -/
theorem strOrder_eq_ite (xs ys : List Byte) :
    strOrder xs ys = if xs = ys then 0 else if xs.map BitVec.toNat < ys.map BitVec.toNat then -1 else 1 := by
  induction xs generalizing ys with
  | nil => cases ys <;> simp [strOrder]
  | cons x xs ih =>
    cases ys with
    | nil => simp [strOrder]
    | cons y ys =>
      by_cases hxy : x = y
      · simp [strOrder, hxy, ih]
      · have hne : x.toNat ≠ y.toNat := fun h => hxy (BitVec.eq_of_toNat_eq h)
        simp [strOrder, hxy, List.cons_lt_cons_iff, hne]

theorem findByte_eq_findIdx? (c : Byte) (bs : List Byte) : findByte c bs = bs.findIdx? (fun x => x = c) := by
  induction bs with
  | nil => rfl
  | cons b bs ih => simp [findByte, List.findIdx?_cons, ih]

/-- The least index at which a string occurs, as a search over every index (R311). -/
theorem findStr_eq_find? (m bs : List Byte) :
    findStr m bs = (List.range (bs.length + 1)).find? (fun k => (bs.drop k).take m.length = m) := by
  induction bs with
  | nil => by_cases hm : m = [] <;> simp [findStr, hm, eq_comm]
  | cons b bs ih =>
    have hhead : m.isPrefixOf (b :: bs) = decide ((b :: bs).take m.length = m) := by
      rw [Bool.eq_iff_iff, List.isPrefixOf_iff_prefix, List.prefix_iff_eq_take, decide_eq_true_eq, eq_comm]
    rw [findStr, hhead, List.length_cons, List.range_succ_eq_map, List.find?_cons, List.find?_map, ih]
    by_cases h : (b :: bs).take m.length = m <;> simp [h]

theorem upByte_eq_ite (b : Byte) :
    upByte b = if 0x61 ≤ b.toNat ∧ b.toNat ≤ 0x7A then BitVec.ofNat 8 (b.toNat - 0x20) else b := by
  unfold upByte
  split
  · apply BitVec.eq_of_toNat_eq
    rw [BitVec.toNat_sub, BitVec.toNat_ofNat, show (0x20 : Byte).toNat = 0x20 from rfl]
    omega
  · rfl

theorem downByte_eq_ite (b : Byte) :
    downByte b = if 0x41 ≤ b.toNat ∧ b.toNat ≤ 0x5A then BitVec.ofNat 8 (b.toNat + 0x20) else b := by
  unfold downByte
  split
  · apply BitVec.eq_of_toNat_eq
    rw [BitVec.toNat_add, BitVec.toNat_ofNat]
    rfl
  · rfl

/-! ### Reads of terminated strings, completed -/

theorem complete_strlenAt {a : Nat} {t : List Byte} {g : Nat → Except FaultRecord State} (h : StringAt s a t) :
    complete s (strlenAt s a >>= g) = complete s (g t.length) := by
  rw [strlenAt_of_stringAt h, bind_ok]

theorem complete_strAt {a : Nat} {t : List Byte} {g : List Byte → Except FaultRecord State} (h : StringAt s a t) :
    complete s (strAt s a >>= g) = complete s (g t) := by
  rw [strAt_of_stringAt h, bind_ok]

theorem complete_strnAt {a n : Nat} {t : List Byte} {g : List Byte → Except FaultRecord State}
    (h : BoundedStringAt s a n t) : complete s (strnAt s a n >>= g) = complete s (g t) := by
  rw [strnAt_of_boundedStringAt h, bind_ok]

/-! ### Queries (R302, R305, R310, R311) -/

/-- An instruction that completes with a string result. -/
theorem strResult_next {r : Result} {d : Reg} {v : F64} {sh : Shape} (h : r = .next (strResult d v sh s)) :
    ∃ t, r = .next t ∧ RegEffect s t d v s.flags (s.pc + sh.length) :=
  ⟨_, h, strResult_effect d v sh s⟩

/-- Settles O37: each query reads its strings and writes what the matching library function says of them. -/
theorem stringQueries : Obligations.StringQueries := by
  intro d c a b ta tb s ha hb ch
  have hch : lowByte (s.readReg c) = ch := lowByte_eq _
  simp only [List.forall_mem_cons, ← strOrder_eq_ite, ← findByte_eq_findIdx?, ← findStr_eq_find?]
  refine ⟨strResult_next (sh := .ra) ?len, strResult_next (sh := .raa) ?cmp, strResult_next (sh := .rar) ?chr,
    strResult_next (sh := .raa) ?str, List.forall_mem_nil _⟩
  case len => exact complete_strlenAt ha
  case cmp => exact (complete_strAt ha).trans (complete_strAt hb)
  case chr =>
    rw [← hch]
    exact complete_strAt ha
  case str => exact (complete_strAt ha).trans (complete_strAt hb)

/-! ### Copies (R303, R304, R306, R307) -/

/-- Both outcomes of a write at the end of a string. -/
theorem strWrite_append (d k n : Nat) (bs : List Byte) (sh : Shape) (s : State) :
    (d + k + n ≤ s.params.memSize → ∃ t, complete s (strWrite ((d : Int) + k) n bs sh s) = .next t ∧
      StoreEffect s t (d + k) bs (s.pc + sh.length)) ∧
    (s.params.memSize < d + k + n →
      complete s (strWrite ((d : Int) + k) n bs sh s) =
        .next (faultEntry s (.outOfBounds (.addr (d + k : Nat)) n))) := by
  rw [← Int.natCast_add]
  exact strWrite_natCast (d + k) n bs sh s

/-- Settles O38: the strings are read, and then one checked write follows. -/
theorem stringCopyAndConcatenate : Obligations.StringCopyAndConcatenate := by
  intro d a td ta s ha
  have hcpy : exec (.strCpy d a) s = complete s (strWrite d (ta.length + 1) (ta ++ [0]) .aa s) := complete_strAt ha
  have hcat : StringAt s d td → exec (.strCat d a) s =
      complete s (strWrite ((d : Int) + td.length) (ta.length + 1) (ta ++ [0]) .aa s) :=
    fun hd => (complete_strlenAt hd).trans (complete_strAt ha)
  have hwrite := strWrite_natCast d (ta.length + 1) (ta ++ [0]) .aa s
  rw [hcpy]
  refine ⟨hwrite.1, hwrite.2, fun hd => ?_⟩
  rw [hcat hd]
  exact strWrite_append d td.length (ta.length + 1) (ta ++ [0]) .aa s

/-- Settles O39: the count and the strings are read, and then one checked write follows. -/
theorem boundedCopyAndConcatenate : Obligations.BoundedCopyAndConcatenate := by
  intro d a n td ta s hfin h0 k ha
  have hcpy : exec (.strNcpy d a n) s =
      complete s (strWrite d k (ta ++ List.replicate (k - ta.length) 0) .aar s) :=
    (complete_count_of_good hfin h0).trans (complete_strnAt ha)
  have hcat : StringAt s d td → exec (.strNcat d a n) s =
      complete s (strWrite ((d : Int) + td.length) (ta.length + 1) (ta ++ [0]) .aar s) :=
    fun hd => (complete_count_of_good hfin h0).trans ((complete_strlenAt hd).trans (complete_strnAt ha))
  have hwrite := strWrite_natCast d k (ta ++ List.replicate (k - ta.length) 0) .aar s
  rw [hcpy]
  refine ⟨hwrite.1, hwrite.2, fun hd => ?_⟩
  rw [hcat hd]
  exact strWrite_append d td.length (ta.length + 1) (ta ++ [0]) .aar s

/-! ### Case conversion (R308, R309) -/

/-- Settles O40: the string is read and written back through the conversion, inside Memory because it was. -/
theorem caseConversion : Obligations.CaseConversion := by
  intro a ta s ha
  obtain ⟨-, -, -, hend⟩ := id ha
  have hfit : a + ta.length ≤ s.params.memSize := hend.le
  simp only [List.forall_mem_cons, ← upByte_eq_ite, ← downByte_eq_ite]
  refine ⟨?upper, ?lower, List.forall_mem_nil _⟩
  case upper =>
    obtain ⟨t, ht, heffect⟩ := (strWrite_natCast a ta.length (ta.map upByte) .a s).1 hfit
    exact ⟨t, (complete_strAt ha).trans ht, heffect⟩
  case lower =>
    obtain ⟨t, ht, heffect⟩ := (strWrite_natCast a ta.length (ta.map downByte) .a s).1 hfit
    exact ⟨t, (complete_strAt ha).trans ht, heffect⟩

/-! ### Blocks (R312, R313, R314) -/

/-- Settles O41: the count is read, for a copy the source too, and then one checked write follows. -/
theorem blockOperations : Obligations.BlockOperations := by
  intro d a v n s hfin h0 k
  have hcpy : a + k ≤ s.params.memSize → exec (.memCpy d a n) s =
      complete s (strWrite d k ((List.range k).map fun j => s.mem.get (a + j)) .aar s) := fun hsrc => by
    refine (complete_count_of_good hfin h0).trans ?_
    rw [memRead_of_inBounds (inBounds_natCast.2 hsrc), bind_ok, Int.toNat_natCast, Memory.readBytes_eq_map_range]
  have hset : exec (.memSet d v n) s =
      complete s (strWrite d k (List.replicate k (BitVec.ofNat 8 ((u32 (s.readReg v)).toNat % 256))) .arr s) := by
    rw [← lowByte_eq]
    exact complete_count_of_good hfin h0
  have hclr : exec (.memClr d n) s = complete s (strWrite d k (List.replicate k 0) .ar s) :=
    complete_count_of_good hfin h0
  rw [hset, hclr]
  refine ⟨fun hsrc => ?_, fun hsrc hdst => ?_, fun hdst => ⟨?_, ?_⟩, fun hsrc hdst => ?_, fun hdst => ⟨?_, ?_⟩⟩
  · refine (complete_count_of_good hfin h0).trans ?_
    rw [memRead_of_not_inBounds (mt inBounds_natCast.1 (Nat.not_le.2 hsrc)), bind_error, complete_error]
  · rw [hcpy hsrc]
    exact (strWrite_natCast d k _ .aar s).2 hdst
  · exact (strWrite_natCast d k _ .arr s).2 hdst
  · exact (strWrite_natCast d k _ .ar s).2 hdst
  · rw [hcpy hsrc]
    exact (strWrite_natCast d k _ .aar s).1 hdst
  · exact (strWrite_natCast d k _ .arr s).1 hdst
  · exact (strWrite_natCast d k _ .ar s).1 hdst

/-! ### Scans that fault (R301) -/

/-- No 0 byte stands from an address to the end of Memory. -/
def Unterminated (s : State) (a : Nat) : Prop := ∀ x, a ≤ x → x < s.params.memSize → s.mem.get x ≠ 0

/-- The fault of a scan that runs out of Memory: the first byte outside. -/
def scanFault (s : State) (a : Nat) : State :=
  faultEntry s (.outOfBounds (.addr (max a s.params.memSize : Nat)) 1)

theorem complete_strlenAt_unterminated {a : Nat} {g : Nat → Except FaultRecord State} (h : Unterminated s a) :
    complete s (strlenAt s a >>= g) = .next (scanFault s a) := by
  rw [strlenAt_unterminated h, bind_error, complete_error, scanFault]

theorem complete_strAt_unterminated {a : Nat} {g : List Byte → Except FaultRecord State} (h : Unterminated s a) :
    complete s (strAt s a >>= g) = .next (scanFault s a) := by
  rw [strAt_unterminated h, bind_error, complete_error, scanFault]

/-- A bounded scan whose limit reaches past the end of Memory faults there (R301). -/
theorem complete_strnAt_unterminated {a n : Nat} {g : List Byte → Except FaultRecord State} (h : Unterminated s a)
    (hpos : 0 < n) (hn : s.params.memSize < a + n) :
    complete s (strnAt s a n >>= g) = .next (scanFault s a) := by
  have hlen : strnlenAt s a n = .error (.outOfBounds (.addr (max a s.params.memSize : Nat)) 1) := by
    rw [strnlenAt, if_neg (by omega), if_neg (by omega), Int.toNat_natCast]
    cases hscan : scanZero s.mem (min n (s.params.memSize - a)) a with
    | some k =>
      obtain ⟨hk, hzero, -⟩ := scanZero_some hscan
      exact absurd hzero (h _ (by omega) (by omega))
    | none => simp only [if_neg (show ¬ n ≤ s.params.memSize - a by omega)]
  rw [strnAt, hlen, bind_error, bind_error, complete_error, scanFault]

/-- A bounded read of no bytes is still checked (R301; log 14). -/
theorem complete_strnAt_zero {a : Nat} {g : List Byte → Except FaultRecord State} (h : s.params.memSize < a) :
    complete s (strnAt s a 0 >>= g) = .next (faultEntry s (.outOfBounds (.addr a) 0)) := by
  have hlen : strnlenAt s a 0 = .ok 0 := if_pos rfl
  rw [strnAt, hlen, bind_ok, memRead_of_not_inBounds (mt inBounds_natCast.1 (Nat.not_le.2 h)), bind_error,
    complete_error]

/-- Settles O42, by the read that fails first. -/
theorem unterminatedStringsAndBadCountsFault : Obligations.UnterminatedStringsAndBadCountsFault := by
  refine ⟨fun d c a b s h => ?first, fun d a b ta s ha h => ?second, fun d a n s hfin h0 h => ?destination,
    fun d a n td s h hfin hpos hn => ?limit, fun d a n td s hfin h0 ha => ?none, fun d a v n s hbad => ?count⟩
  case first =>
    simp only [List.forall_mem_cons]
    exact ⟨complete_strlenAt_unterminated h, complete_strAt_unterminated h, complete_strlenAt_unterminated h,
      complete_strAt_unterminated h, complete_strAt_unterminated h, complete_strAt_unterminated h,
      complete_strAt_unterminated h, complete_strAt_unterminated h, List.forall_mem_nil _⟩
  case second =>
    simp only [List.forall_mem_cons]
    exact ⟨(complete_strlenAt ha).trans (complete_strAt_unterminated h),
      (complete_strAt ha).trans (complete_strAt_unterminated h),
      (complete_strAt ha).trans (complete_strAt_unterminated h), List.forall_mem_nil _⟩
  case destination => exact (complete_count_of_good hfin h0).trans (complete_strlenAt_unterminated h)
  case limit =>
    have hcount {g : Nat → Except FaultRecord State} := complete_count_of_good (s := s) (g := g) hfin hpos.le
    have hscan {g : List Byte → Except FaultRecord State} :=
      complete_strnAt_unterminated (g := g) h (n := (ftrunc (s.readReg n)).toNat) (by omega) hn
    exact ⟨hcount.trans hscan, fun hd => hcount.trans ((complete_strlenAt hd).trans hscan)⟩
  case none =>
    have hcount {g : Nat → Except FaultRecord State} : complete s (count (s.readReg n) >>= g) = complete s (g 0) := by
      rw [complete_count_of_good hfin h0.ge, h0, Int.toNat_zero]
    exact ⟨hcount.trans (complete_strnAt_zero ha),
      fun hd => hcount.trans ((complete_strlenAt hd).trans (complete_strnAt_zero ha))⟩
  case count =>
    simp only [List.forall_mem_cons]
    exact ⟨complete_count_of_bad hbad, complete_count_of_bad hbad, complete_count_of_bad hbad,
      complete_count_of_bad hbad, complete_count_of_bad hbad, List.forall_mem_nil _⟩

end Sys2Proof.Machine

/-! PROOFS. The Host I/O instructions (45_host_io R340 to R358). -/

namespace Sys2Proof.Machine

variable {s : State}

/-! ### Output (R344 to R352, R355, R356) -/

/-- Settles O43: each makes one output request. -/
theorem outputRequests : Obligations.OutputRequests := by
  intro s w0
  simp only [List.forall_mem_cons, w0, ← lowByte_eq]
  exact ⟨⟨rfl, output_effect _ s⟩, ⟨rfl, output_effect _ s⟩, ⟨rfl, output_effect _ s⟩, ⟨rfl, output_effect _ s⟩,
    ⟨rfl, output_effect _ s⟩, ⟨rfl, output_effect _ s⟩, ⟨rfl, output_effect _ s⟩, ⟨rfl, output_effect _ s⟩,
    ⟨rfl, output_effect _ s⟩, List.forall_mem_nil _⟩

/-- A scan from a negative address faults there (R301). -/
theorem complete_strAt_negative {a : Int} {g : List Byte → Except FaultRecord State} (h : a < 0) :
    complete s (strAt s a >>= g) = .next (faultEntry s (.outOfBounds (.addr a) 1)) := by
  have hlen : strlenAt s a = .error (.outOfBounds (.addr a) 1) := if_pos h
  rw [strAt, hlen, bind_error, bind_error, complete_error]

/-- Settles O44: the conversion, then the scan, then the request. -/
theorem printString : Obligations.PrintString := by
  intro t s v
  have haddr : isFin v = true → 0 ≤ ftrunc v → exec .sysPrintStr s =
      complete s (strAt s ((ftrunc v).toNat : Nat) >>= fun bs => Pure.pure ((s.emit (.putStr bs)).advance .n)) :=
    fun hv h0 => by
      rw [Int.toNat_of_nonneg h0]
      exact complete_addr_of_isFin hv
  refine ⟨fun hv => complete_addr_of_not_isFin hv, fun hv hneg => ?negative, fun hv h0 h => ?unterminated,
    fun hv h0 h => ?prints⟩
  case negative => exact (complete_addr_of_isFin hv).trans (complete_strAt_negative hneg)
  case unterminated => exact (haddr hv h0).trans (complete_strAt_unterminated h)
  case prints =>
    obtain ⟨u, hu, heffect⟩ := output_effect (.putStr t) s
    exact ⟨u, (haddr hv h0).trans ((complete_strAt h).trans hu), heffect⟩

/-! ### Input and identity (R342, R343, R348, R357) -/

/-- Using up a free value is no part of an effect. -/
theorem RegEffect.draw {t : State} {d : Reg} {v : F64} {fl : Flags} {pc : Nat} (h : RegEffect s t d v fl pc) :
    RegEffect s t.draw d v fl pc := by
  simpa only [RegEffect, SameRegs, SameMem, SameRun, State.draw_readReg, State.draw_flags, State.draw_pc,
    State.draw_mem, State.draw_status, State.draw_trace, State.draw_params] using h

/-- Settles O45: one register write for each answer. -/
theorem inputRequestsAndVersion : Obligations.InputRequestsAndVersion := by
  refine ⟨fun s => ?_, fun s => ?_, Config.engineVersion, fun s => ⟨_, rfl, moveResult_effect ..⟩⟩
  · simp only [List.forall_mem_cons]
    exact ⟨⟨_, _, rfl, (moveResult_effect r0 _ .n s).draw⟩, ⟨_, _, rfl, (moveResult_effect r0 _ .n s).draw⟩,
      List.forall_mem_nil _⟩
  · refine ⟨_, Config.hostCursorCol s.draws, Config.hostCursorRow s.draws, rfl, ?_, ?_, fun x hx hd => ?_, rfl, rfl,
      fun _ => rfl, rfl, rfl, rfl⟩
    · exact (State.readReg_writeReg_other _ _ (by decide)).trans (State.readReg_writeReg_same s (d := r0) _ rfl)
    · exact State.readReg_writeReg_same _ (d := r1) _ rfl
    · rw [List.mem_cons, List.mem_singleton, not_or] at hd
      simp [r0, r1, State.readReg_writeReg_other _ _ hd.1, State.readReg_writeReg_other _ _ hd.2]

/-! ### Text and lines (R353, R354) -/

theorem numFormat_ne_nil (v : F64) : numFormat v ≠ [] := by simp [numFormat]

theorem numFormat_printable (v : F64) : ∀ b ∈ numFormat v, 0x20 ≤ b.toNat ∧ b.toNat ≤ 0x7E := by
  intro b hb
  obtain ⟨c, -, rfl⟩ := List.mem_map.1 hb
  have hc := c.isLt
  rw [BitVec.toNat_ofNat]
  omega

/-- Settles O46: a store of the text at the converted address. -/
theorem numberToString : Obligations.NumberToString := by
  refine ⟨numFormat, fun v => ⟨numFormat_ne_nil v, numFormat_printable v⟩, fun s => ?_⟩
  intro v a txt
  have hlen : txt.length = (numFormat (s.readReg r0)).length + 1 := by simp [txt, r0]
  obtain ⟨hvalue, hbounds, hstores⟩ := addr_strWrite v txt.length txt .n s
  have hexec : exec .sysNumToStr s = complete s (addr v >>= fun a => strWrite a txt.length txt .n s) := by
    rw [hlen]
    rfl
  rw [hexec]
  refine ⟨hvalue, fun hv => ?_⟩
  split
  · next h => exact hstores hv h.1 h.2
  · next h => exact hbounds hv h

theorem hostLineFor_length_lt (k : Nat) {cap : Nat} (h : 0 < cap) : (hostLineFor k cap).length + 1 ≤ cap := by
  have := List.length_take_le (cap - 1) ((Config.hostLine k).filter (fun b => b ≠ 0))
  rw [hostLineFor]
  omega

theorem hostLineFor_ne_zero (k cap : Nat) : ∀ b ∈ hostLineFor k cap, b ≠ 0 := by
  intro b hb
  simpa using (List.mem_filter.1 (List.mem_of_mem_take hb)).2

/-- Settles O47: the conversions and the bounds check, then the line. -/
theorem readLine : Obligations.ReadLine := by
  intro s v w a cap
  refine ⟨complete_addr_of_not_isFin, fun hv hw => ?_, fun hv hw h0 => ?_⟩
  · exact (complete_addr_of_isFin hv).trans (complete_count_of_bad hw)
  · have hexec : exec .sysReadLine s = complete s (if ¬ inBounds s a cap then .error (.outOfBounds (.addr a) cap)
        else if cap = 0 then Pure.pure ((s.writeReg r2 (fZero false)).advance .n)
        else memWrite s a ((hostLineFor s.draws cap).length + 1) (hostLineFor s.draws cap ++ [0]) >>= fun t =>
          Pure.pure (((t.writeReg r2 (ofNat (hostLineFor s.draws cap).length)).advance .n).draw)) :=
      (complete_addr_of_isFin hv).trans (complete_count_of_good hw h0)
    rw [hexec]
    refine ⟨fun hb => ?bounds, fun ha hb hcap => ?nothing, fun ha hb hcap => ?line⟩
    case bounds => rw [if_pos (mt inBounds_iff.1 hb), complete_error]
    case nothing =>
      rw [if_neg (not_not.2 (inBounds_iff.2 ⟨ha, hb⟩)), if_pos hcap, ← fZero_false]
      exact ⟨_, rfl, moveResult_effect r2 _ .n s⟩
    case line =>
      have hlen := hostLineFor_length_lt s.draws hcap
      rw [if_neg (not_not.2 (inBounds_iff.2 ⟨ha, hb⟩)), if_neg hcap.ne',
        memWrite_of_inBounds _ (inBounds_iff.2 ⟨ha, by omega⟩)]
      refine ⟨_, hostLineFor s.draws cap, hlen, hostLineFor_ne_zero _ _, rfl, fun k hk => ?_, fun b hb' => ?_, ?_,
        fun x hx hd => ?_, rfl, rfl, rfl, rfl, rfl⟩
      · exact Memory.get_writeBytes_inside hk
      · exact Memory.get_writeBytes_outside (by simpa using hb')
      · exact State.readReg_writeReg_same _ (d := r2) _ rfl
      · exact (sameRegs_writeReg _ r2 _ x hx hd).trans (State.readReg_withMem ..)

end Sys2Proof.Machine

/-! PROOFS. Comparisons, and the operations whose result is no rounding: NaNs and infinities (00_scope R11,
40_float_arith R128, R130, R147). -/

namespace Sys2Proof.Machine

variable {a b v : F64}

/-! ### Comparisons -/

theorem fVal_le_iff (a b : F64) : fVal a ≤ fVal b ↔ fKey a ≤ fKey b := by
  rw [← not_lt, fVal_lt_iff, not_lt]

theorem fVal_eq_iff (a b : F64) : fVal a = fVal b ↔ fKey a = fKey b := by
  rw [le_antisymm_iff, fVal_le_iff, fVal_le_iff, ← le_antisymm_iff]

theorem fMag_le_of_not_isNaN (h : isNaN v = false) : fMag v ≤ infMag := Nat.le_of_not_lt (of_decide_eq_false h)

/-- The key of an infinity is at one of the two ends. -/
theorem fKey_of_isInf (h : isInf v = true) : fKey v = if fSign v then -(infMag : Int) else infMag := by
  rw [fKey, (isInf_iff v).1 h]

theorem fKey_bounds (h : isNaN v = false) : -(infMag : Int) ≤ fKey v ∧ fKey v ≤ infMag := by
  have := fMag_le_of_not_isNaN h
  rw [fKey]
  split <;> omega

/-- Where a key is not 0 it decides the pattern. -/
theorem eq_iff_fKey_of_isInf (ha : isInf a = true) : a = b ↔ fKey a = fKey b := by
  refine ⟨fun h => h ▸ rfl, fun h => ?_⟩
  have hpos : 0 < infMag := by decide
  have hmag := (isInf_iff a).1 ha
  simp only [fKey, hmag] at h
  refine eq_of_fSign_fMag ?_ ?_
  · cases ha' : fSign a <;> cases hb' : fSign b <;> simp [ha', hb'] at h ⊢ <;> omega
  · split at h <;> split at h <;> omega

/-- The order between an infinity and a value that is no NaN, by the infinity's sign (log 12). -/
theorem compare_of_isInf_left (ha : isInf a = true) (hb : isNaN b = false) :
    (flt a b = true ↔ fSign a = true ∧ a ≠ b) ∧ (fle a b = true ↔ fSign a = true ∨ a = b) ∧
      (feq a b = true ↔ a = b) := by
  have hkey := fKey_of_isInf ha
  have hbounds := fKey_bounds hb
  have heq := eq_iff_fKey_of_isInf (b := b) ha
  simp only [flt, fle, feq, not_isNaN_of_isInf ha, hb, heq, Ne, Bool.not_false, Bool.true_and, decide_eq_true_eq]
  cases hs : fSign a with
  | false =>
    rw [hs, if_neg Bool.false_ne_true] at hkey
    simp
    omega
  | true =>
    rw [hs, if_pos rfl] at hkey
    simp
    omega

theorem compare_of_isInf_right (hb : isInf b = true) (ha : isNaN a = false) :
    (flt a b = true ↔ fSign b = false ∧ a ≠ b) ∧ (fle a b = true ↔ fSign b = false ∨ a = b) ∧
      (feq a b = true ↔ a = b) := by
  have hkey := fKey_of_isInf hb
  have hbounds := fKey_bounds ha
  have heq := eq_iff_fKey_of_isInf (b := a) hb
  rw [eq_comm] at heq
  simp only [flt, fle, feq, not_isNaN_of_isInf hb, ha, heq, Ne, Bool.not_false, Bool.true_and, decide_eq_true_eq]
  cases hs : fSign b with
  | false =>
    rw [hs, if_neg Bool.false_ne_true] at hkey
    simp
    omega
  | true =>
    rw [hs, if_pos rfl] at hkey
    simp
    omega

theorem fle_of_isFin (ha : isFin a = true) (hb : isFin b = true) : fle a b = decide (fVal a ≤ fVal b) := by
  simp [fle, not_isNaN_of_isFin ha, not_isNaN_of_isFin hb, fVal_le_iff]

theorem feq_of_isFin (ha : isFin a = true) (hb : isFin b = true) : feq a b = decide (fVal a = fVal b) := by
  simp [feq, not_isNaN_of_isFin ha, not_isNaN_of_isFin hb, fVal_eq_iff]

theorem compare_of_isFin (ha : isFin a = true) (hb : isFin b = true) :
    (flt a b = true ↔ fVal a < fVal b) ∧ (fle a b = true ↔ fVal a ≤ fVal b) ∧ (feq a b = true ↔ fVal a = fVal b) := by
  simp only [flt_of_isFin ha hb, fle_of_isFin ha hb, feq_of_isFin ha hb, decide_eq_true_eq, true_and]

/-- Settles O14, by the classes of the operands. -/
theorem comparisonsOrderTheValues : Obligations.ComparisonsOrderTheValues :=
  fun _ _ => ⟨compare_nan, compare_of_isFin, compare_of_isInf_left, compare_of_isInf_right⟩

/-! ### Zeros and signs -/

@[simp] theorem isNaN_fneg (v : F64) : isNaN (fneg v) = isNaN v := by simp [isNaN]

@[simp] theorem isInf_fneg (v : F64) : isInf (fneg v) = isInf v := by simp [isInf]

@[simp] theorem isFin_fneg (v : F64) : isFin (fneg v) = isFin v := by simp [isFin]

theorem fKey_neg_iff (v : F64) : fKey v < 0 ↔ fSign v = true ∧ fMag v ≠ 0 := by
  rw [fKey]
  cases fSign v with
  | true => simp [Nat.pos_iff_ne_zero]
  | false => simp

/-- The zeros are the patterns of magnitude 0. -/
theorem fVal_eq_zero_iff (v : F64) : fVal v = 0 ↔ fMag v = 0 := by
  rw [← fVal_fZero false, fVal_eq_iff, fKey_fZero, fKey]
  split <;> omega

theorem fMag_ne_zero_of_isInf (h : isInf v = true) : fMag v ≠ 0 := by
  rw [(isInf_iff v).1 h]
  decide

/-! ### Operations on a NaN, and the invalid ones (R147; log 12) -/

theorem fadd_of_isNaN (k : Nat) (h : isNaN a = true ∨ isNaN b = true) : fadd k a b = producedNaN k := by
  rcases h with h | h <;> simp [fadd, h]

theorem fsub_of_isNaN (k : Nat) (h : isNaN a = true ∨ isNaN b = true) : fsub k a b = producedNaN k :=
  fadd_of_isNaN k (h.imp_right (isNaN_fneg b).trans)

theorem fmul_of_isNaN (k : Nat) (h : isNaN a = true ∨ isNaN b = true) : fmul k a b = producedNaN k := by
  rcases h with h | h <;> simp [fmul, h]

theorem fdiv_of_isNaN (k : Nat) (h : isNaN a = true ∨ isNaN b = true) : fdiv k a b = producedNaN k := by
  rcases h with h | h <;> simp [fdiv, h]

theorem fmod_of_isNaN (k : Nat) (h : isNaN a = true ∨ isNaN b = true) : fmod k a b = producedNaN k := by
  rcases h with h | h <;> simp [fmod, h]

section Infinite

variable (k : Nat)

theorem fadd_isInf_unlike (ha : isInf a = true) (hb : isInf b = true) (hs : fSign a ≠ fSign b) :
    fadd k a b = producedNaN k := by
  simp [fadd, not_isNaN_of_isInf ha, not_isNaN_of_isInf hb, ha, hb, hs]

theorem fadd_isInf_like (ha : isInf a = true) (hb : isInf b = true) (hs : fSign a = fSign b) : fadd k a b = a := by
  simp [fadd, not_isNaN_of_isInf ha, not_isNaN_of_isInf hb, ha, hs]

theorem fadd_isInf_isFin (ha : isInf a = true) (hb : isFin b = true) : fadd k a b = a := by
  simp [fadd, not_isNaN_of_isInf ha, not_isNaN_of_isFin hb, ha, not_isInf_of_isFin hb]

theorem fadd_isFin_isInf (ha : isFin a = true) (hb : isInf b = true) : fadd k a b = b := by
  simp [fadd, not_isNaN_of_isFin ha, not_isNaN_of_isInf hb, not_isInf_of_isFin ha, hb]

theorem fmul_isInf_zero (h : isInf a = true ∨ isInf b = true) (h0 : fMag a = 0 ∨ fMag b = 0) :
    fmul k a b = producedNaN k := by
  rw [fmul]
  simp [h, h0]

theorem fmul_isInf (ha : isNaN a = false) (hb : isNaN b = false) (h : isInf a = true ∨ isInf b = true)
    (ha0 : fMag a ≠ 0) (hb0 : fMag b ≠ 0) : fmul k a b = fInf (fSign a != fSign b) := by
  rw [fmul]
  simp [h, ha, hb, ha0, hb0]

theorem fdiv_isInf_isInf (ha : isInf a = true) (hb : isInf b = true) : fdiv k a b = producedNaN k := by
  simp [fdiv, ha, hb]

theorem fdiv_isInf_isFin (ha : isInf a = true) (hb : isFin b = true) : fdiv k a b = fInf (fSign a != fSign b) := by
  simp [fdiv, not_isNaN_of_isInf ha, not_isNaN_of_isFin hb, ha, not_isInf_of_isFin hb]

theorem fdiv_isFin_isInf (ha : isFin a = true) (hb : isInf b = true) : fdiv k a b = fZero (fSign a != fSign b) := by
  simp [fdiv, not_isNaN_of_isFin ha, not_isNaN_of_isInf hb, not_isInf_of_isFin ha, hb]

theorem fdiv_zero (ha : isFin a = true) (hb : isFin b = true) (hb0 : fMag b = 0) :
    fdiv k a b = if fMag a = 0 then producedNaN k else fInf (fSign a != fSign b) := by
  simp [fdiv, not_isNaN_of_isFin ha, not_isNaN_of_isFin hb, not_isInf_of_isFin ha, not_isInf_of_isFin hb, hb0]

theorem fmod_invalid (h : isInf a = true ∨ fMag b = 0) : fmod k a b = producedNaN k := by
  rcases h with h | h <;> simp [fmod, h]

theorem fmod_isFin_isInf (ha : isFin a = true) (hb : isInf b = true) : fmod k a b = a := by
  simp [fmod, not_isNaN_of_isFin ha, not_isNaN_of_isInf hb, not_isInf_of_isFin ha, hb, fMag_ne_zero_of_isInf hb]

theorem fsqrt_of_isNaN (h : isNaN a = true) : fsqrt k a = producedNaN k := if_pos h

/-- A negative value has no root. -/
theorem fsqrt_of_negative (h : flt a (fZero false) = true) : fsqrt k a = producedNaN k := by
  rw [flt, fKey_fZero, Bool.and_eq_true, decide_eq_true_eq, fKey_neg_iff] at h
  obtain ⟨-, hsign, hmag⟩ := h
  rw [fsqrt, if_neg hmag, if_pos hsign, ite_self]

end Infinite

/-- Settles O15, each operation by its lemma for the invalid operands. -/
theorem invalidOperationsGiveNaN : Obligations.InvalidOperationsGiveNaN := by
  intro k a b
  have hproduced : ∀ {r : F64}, r = producedNaN k → isNaN r = true := fun h => h ▸ isNaN_producedNaN k
  refine ⟨?operand, fun ha hb => ?infinities, fun ha => ?modInf, fun ha hb hb0 => ?mulZero, fun ha hb ha0 hb0 => ?divZero,
    fun hb hb0 => ?modZero, fun h => ?root, fun h => ?nan⟩
  case operand =>
    simp only [List.forall_mem_cons]
    exact ⟨fun h => hproduced (fadd_of_isNaN k h), fun h => hproduced (fsub_of_isNaN k h),
      fun h => hproduced (fmul_of_isNaN k h), fun h => hproduced (fdiv_of_isNaN k h),
      fun h => hproduced (fmod_of_isNaN k h), List.forall_mem_nil _⟩
  case infinities =>
    refine ⟨fun hs => hproduced (fadd_isInf_unlike k ha ((isInf_fneg b).trans hb) ?_),
      fun hs => hproduced (fadd_isInf_unlike k ha hb hs), hproduced (fdiv_isInf_isInf k ha hb)⟩
    rw [fSign_fneg, hs]
    simp
  case modInf => exact hproduced (fmod_invalid k (.inl ha))
  case mulZero =>
    have hb0' := (fVal_eq_zero_iff b).1 hb0
    exact ⟨hproduced (fmul_isInf_zero k (.inl ha) (.inr hb0')), hproduced (fmul_isInf_zero k (.inr ha) (.inl hb0'))⟩
  case divZero =>
    refine hproduced ((fdiv_zero k ha hb ((fVal_eq_zero_iff b).1 hb0)).trans ?_)
    rw [if_pos ((fVal_eq_zero_iff a).1 ha0)]
  case modZero => exact hproduced (fmod_invalid k (.inr ((fVal_eq_zero_iff b).1 hb0)))
  case root => exact hproduced (fsqrt_of_negative k (fZero_false.symm ▸ h))
  case nan => exact ⟨hproduced (fsqrt_of_isNaN k h), (isNaN_fneg a).trans h⟩

/-! ### Operations with an infinity that are valid (log 12) -/

theorem fInf_eq_ite (neg : Bool) : fInf neg = if neg then 0xFFF0000000000000#64 else 0x7FF0000000000000#64 := by
  cases neg <;> decide

theorem fZero_eq_ite (neg : Bool) : fZero neg = if neg then 0x8000000000000000#64 else 0 := by
  cases neg <;> decide

theorem eq_fInf_of_isInf (h : isInf v = true) : v = fInf (fSign v) := by
  rw [fInf, ← (isInf_iff v).1 h, ofSignMag_fSign_fMag]

/-- Settles O59, each operation by its lemma for the classes of its operands. -/
theorem infiniteOperands : Obligations.InfiniteOperands := by
  intro k a b inf zero
  have hinf : ∀ neg, inf neg = fInf neg := fun neg => (fInf_eq_ite neg).symm
  have hzero : ∀ neg, zero neg = fZero neg := fun neg => (fZero_eq_ite neg).symm
  simp only [hinf, hzero]
  refine ⟨fun ha hb => ?finite, fun ha hb => ?infinite, fun ha hb ha0 hb0 => ?divZero⟩
  case finite =>
    have ha' := (isInf_fneg a).trans ha
    have hsub : fsub k b a = fInf (!fSign a) := by
      rw [fsub, fadd_isFin_isInf k hb ha', ← fSign_fneg, ← eq_fInf_of_isInf ha']
    refine ⟨fadd_isInf_isFin k ha hb, fadd_isFin_isInf k hb ha, fadd_isInf_isFin k ha ((isFin_fneg b).trans hb), hsub,
      fdiv_isInf_isFin k ha hb, fdiv_isFin_isInf k hb ha, fmod_isFin_isInf k hb ha, fun hb0 => ?_⟩
    have hb0' := mt (fVal_eq_zero_iff b).2 hb0
    have ha0 := fMag_ne_zero_of_isInf ha
    exact ⟨fmul_isInf k (not_isNaN_of_isInf ha) (not_isNaN_of_isFin hb) (.inl ha) ha0 hb0',
      fmul_isInf k (not_isNaN_of_isFin hb) (not_isNaN_of_isInf ha) (.inr ha) hb0' ha0⟩
  case infinite =>
    refine ⟨fmul_isInf k (not_isNaN_of_isInf ha) (not_isNaN_of_isInf hb) (.inl ha) (fMag_ne_zero_of_isInf ha)
      (fMag_ne_zero_of_isInf hb), fadd_isInf_like k ha hb, fun hs => fadd_isInf_like k ha ((isInf_fneg b).trans hb) ?_⟩
    rw [fSign_fneg]
    exact Bool.eq_not.2 hs
  case divZero =>
    rw [fdiv_zero k ha hb ((fVal_eq_zero_iff b).1 hb0), if_neg (mt (fVal_eq_zero_iff a).2 ha0)]

end Sys2Proof.Machine

/-! PROOFS. Rounding (00_scope R11, 40_float_arith R147): the magnitude a rounding answers is the one nearest to the
ratio, ties to even, among all magnitudes; everything else about rounding follows from that. -/

namespace Sys2Proof.Machine

/-! ### Magnitudes as scaled significands -/

/-- The pattern that holds the significand `m` scaled by `j` powers of two, a carry into the exponent included. -/
theorem magUnits_scaled {j m : Nat} (hm : m ≤ 2 ^ 53) (hj : 2 ^ 52 ≤ m ∨ j = 0) :
    magUnits (j * 2 ^ 52 + m) = m * 2 ^ j := by
  unfold magUnits
  rcases Nat.lt_or_ge m (2 ^ 52) with hsub | hnormal
  · obtain rfl : j = 0 := by omega
    rw [if_pos (by omega), Nat.zero_mul, Nat.zero_add, Nat.pow_zero, Nat.mul_one]
  · rcases Nat.lt_or_ge m (2 ^ 53) with hlt | hcarry
    · rw [show (j * 2 ^ 52 + m) / 2 ^ 52 = j + 1 by omega, show (j * 2 ^ 52 + m) % 2 ^ 52 = m - 2 ^ 52 by omega,
        if_neg (Nat.succ_ne_zero j), Nat.add_sub_cancel, Nat.add_sub_cancel' hnormal]
    · obtain rfl : m = 2 ^ 53 := le_antisymm hm hcarry
      rw [show (j * 2 ^ 52 + 2 ^ 53) / 2 ^ 52 = j + 2 by omega, show (j * 2 ^ 52 + 2 ^ 53) % 2 ^ 52 = 0 by omega,
        if_neg (Nat.succ_ne_zero _), show j + 2 - 1 = j + 1 by omega, Nat.pow_succ 2 j]
      ring

/-- Every significand of at most 53 bits is held by some magnitude, at every scale. -/
theorem exists_magUnits_eq {m : Nat} (j : Nat) (hm : m ≤ 2 ^ 53) : ∃ M, magUnits M = m * 2 ^ j := by
  induction j generalizing m with
  | zero => exact ⟨_, magUnits_scaled hm (.inr rfl)⟩
  | succ j ih =>
    rcases Nat.lt_or_ge m (2 ^ 52) with hsub | hnormal
    · obtain ⟨M, hM⟩ := ih (m := 2 * m) (by omega)
      exact ⟨M, by rw [hM, Nat.pow_succ]; ring⟩
    · exact ⟨_, magUnits_scaled hm (.inl hnormal)⟩

theorem magUnits_zero : magUnits 0 = 0 := rfl

/-- The magnitude of an infinity, counted as the values below it are. -/
theorem magUnits_infMag : magUnits infMag = 2 ^ 53 * 2 ^ 2045 := by
  have h := magUnits_scaled (j := 2045) (m := 2 ^ 53) le_rfl (.inl (by norm_num))
  rwa [show 2045 * 2 ^ 52 + 2 ^ 53 = infMag from rfl] at h

/-- The greatest finite magnitude. -/
theorem magUnits_pred_infMag : magUnits (infMag - 1) = (2 ^ 53 - 1) * 2 ^ 2045 := by
  have h := magUnits_scaled (j := 2045) (m := 2 ^ 53 - 1) (by norm_num) (.inl (by norm_num))
  rwa [show 2045 * 2 ^ 52 + (2 ^ 53 - 1) = infMag - 1 from rfl] at h

/-! ### Nearest magnitudes -/

section Nearest

variable {K : Type} [Field K] [LinearOrder K] [IsStrictOrderedRing K] {y : K} {M c : Nat}

/-- No magnitude is nearer to `y` units than `M`: `y` is on `M`'s side of every midpoint. -/
structure IsNearest (y : K) (M : Nat) : Prop where
  below : ∀ c < M, (magUnits c + magUnits M : K) ≤ 2 * y
  above : ∀ c, M < c → 2 * y ≤ (magUnits c + magUnits M : K)

/-- And where `y` is at a midpoint, `M` is even. -/
structure IsNearestEven (y : K) (M : Nat) : Prop extends IsNearest y M where
  tie : ∀ c, c ≠ M → (magUnits c + magUnits M : K) = 2 * y → M % 2 = 0

theorem magUnits_cast_lt {m n : Nat} (h : m < n) : (magUnits m : K) < magUnits n :=
  Nat.cast_lt.2 (magUnits_strictMono h)

theorem magUnits_cast_le {m n : Nat} (h : m ≤ n) : (magUnits m : K) ≤ magUnits n :=
  Nat.cast_le.2 (magUnits_strictMono.monotone h)

/-- Of two numbers the lesser is at least as near to `y` when `y` is not above their midpoint. -/
theorem abs_sub_le_abs_sub_iff_of_lt {p q y : K} (h : p < q) : |p - y| ≤ |q - y| ↔ 2 * y ≤ q + p := by
  rw [← sq_le_sq, ← sub_nonneg, show (q - y) ^ 2 - (p - y) ^ 2 = (q - p) * (q + p - 2 * y) by ring,
    mul_nonneg_iff_of_pos_left (sub_pos.2 h), sub_nonneg]

theorem abs_sub_le_abs_sub_iff_of_gt {p q y : K} (h : q < p) : |p - y| ≤ |q - y| ↔ q + p ≤ 2 * y := by
  rw [← sq_le_sq, ← sub_nonneg, show (q - y) ^ 2 - (p - y) ^ 2 = (p - q) * (2 * y - (q + p)) by ring,
    mul_nonneg_iff_of_pos_left (sub_pos.2 h), sub_nonneg]

theorem isNearest_iff : IsNearest y M ↔ ∀ c, |(magUnits M : K) - y| ≤ |(magUnits c : K) - y| := by
  constructor
  · intro h c
    rcases lt_trichotomy c M with hc | rfl | hc
    · exact (abs_sub_le_abs_sub_iff_of_gt (magUnits_cast_lt hc)).2 (h.below c hc)
    · exact le_rfl
    · exact (abs_sub_le_abs_sub_iff_of_lt (magUnits_cast_lt hc)).2 (h.above c hc)
  · intro h
    exact ⟨fun c hc => (abs_sub_le_abs_sub_iff_of_gt (magUnits_cast_lt hc)).1 (h c),
      fun c hc => (abs_sub_le_abs_sub_iff_of_lt (magUnits_cast_lt hc)).1 (h c)⟩

/-- Two magnitudes at one distance have `y` at their midpoint. -/
theorem midpoint_of_abs_sub_eq {p q y : K} (hne : p ≠ q) (h : |p - y| = |q - y|) : q + p = 2 * y := by
  rcases lt_or_gt_of_ne hne with hlt | hlt
  · exact le_antisymm ((abs_sub_le_abs_sub_iff_of_gt hlt).1 h.ge |>.trans_eq' (add_comm _ _))
      ((abs_sub_le_abs_sub_iff_of_lt hlt).1 h.le)
  · exact le_antisymm ((abs_sub_le_abs_sub_iff_of_gt hlt).1 h.le)
      ((abs_sub_le_abs_sub_iff_of_lt hlt).1 h.ge |>.trans_eq (add_comm _ _))

/-- Between two neighbours `y` is nearest to one of them, by the side of their midpoint it is on. -/
theorem isNearestEven_of_bracket (hlo : (magUnits M : K) ≤ y) (hhi : y < magUnits (M + 1)) :
    ((2 * y < magUnits M + magUnits (M + 1) ∨ 2 * y = magUnits M + magUnits (M + 1) ∧ M % 2 = 0) →
      IsNearestEven y M) ∧
    ((magUnits M + magUnits (M + 1) < 2 * y ∨ 2 * y = magUnits M + magUnits (M + 1) ∧ M % 2 = 1) →
      IsNearestEven y (M + 1)) := by
  refine ⟨fun h => ⟨⟨fun c hc => ?_, fun c hc => ?_⟩, fun c hne hc => ?_⟩,
    fun h => ⟨⟨fun c hc => ?_, fun c hc => ?_⟩, fun c hne hc => ?_⟩⟩
  · have := magUnits_cast_lt (K := K) hc
    linarith
  · have := magUnits_cast_le (K := K) (Nat.succ_le_of_lt hc)
    rcases h with h | ⟨h, -⟩ <;> linarith
  · rcases h with h | ⟨-, heven⟩
    · rcases lt_or_gt_of_ne hne with hlt | hlt
      · have := magUnits_cast_lt (K := K) hlt
        linarith
      · have := magUnits_cast_le (K := K) (Nat.succ_le_of_lt hlt)
        linarith
    · exact heven
  · have := magUnits_cast_le (K := K) (Nat.le_of_lt_succ hc)
    rcases h with h | ⟨h, -⟩ <;> linarith
  · have := magUnits_cast_lt (K := K) hc
    linarith
  · rcases h with h | ⟨-, hodd⟩
    · rcases lt_or_gt_of_ne hne with hlt | hlt
      · have := magUnits_cast_le (K := K) (Nat.le_of_lt_succ hlt)
        linarith
      · have := magUnits_cast_lt (K := K) hlt
        linarith
    · omega

/-- A magnitude is nearest to its own value. -/
theorem isNearestEven_self (M : Nat) : IsNearestEven (magUnits M : K) M where
  below c hc := by
    have := magUnits_cast_lt (K := K) hc
    linarith
  above c hc := by
    have := magUnits_cast_lt (K := K) hc
    linarith
  tie c hne hc := by
    refine absurd (magUnits_strictMono.injective (Nat.cast_injective (R := K) ?_)) hne
    linarith

/-- Only one magnitude is nearest with ties to even. -/
theorem IsNearestEven.unique {N : Nat} (hM : IsNearestEven y M) (hN : IsNearestEven y N) : M = N := by
  have hdist : |(magUnits M : K) - y| = |(magUnits N : K) - y| :=
    le_antisymm (isNearest_iff.1 hM.toIsNearest N) (isNearest_iff.1 hN.toIsNearest M)
  by_contra hne
  wlog hlt : M < N generalizing M N
  · exact this hN hM hdist.symm (Ne.symm hne) (by omega)
  have hmid := midpoint_of_abs_sub_eq (magUnits_cast_lt hlt).ne hdist
  have hMeven := hM.tie N (Ne.symm hne) hmid
  have hNeven := hN.tie M hne ((add_comm _ _).trans hmid)
  have hbetween := hM.above (M + 1) (Nat.lt_succ_self M)
  have hgap := magUnits_cast_lt (K := K) (show M + 1 < N by omega)
  linarith

end Nearest

/-! ### The values of patterns in units -/

/-- 2^-1074, the value of one unit. -/
def ulpMin : ℚ := 2 ^ (-1074 : Int)

theorem ulpMin_pos : 0 < ulpMin := zpow_pos two_pos _

theorem fVal_eq_magUnits (v : F64) : fVal v = (if fSign v then -1 else 1) * (magUnits (fMag v) * ulpMin) := by
  rw [fVal, mul_assoc, magUnits_fMag, ulpMin]

theorem abs_fVal (v : F64) : |fVal v| = magUnits (fMag v) * ulpMin := by
  have hpos : (0 : ℚ) ≤ magUnits (fMag v) * ulpMin := mul_nonneg (Nat.cast_nonneg _) ulpMin_pos.le
  rw [fVal_eq_magUnits, abs_mul, abs_of_nonneg hpos]
  split <;> simp

/-- A power of two at a scale not above its own. -/
theorem two_zpow_eq_mul {K : Type} [Field K] [CharZero K] {e f : Int} (h : e ≤ f) :
    (2 : K) ^ f = 2 ^ (f - e).toNat * 2 ^ e := by
  rw [← zpow_natCast, ← zpow_add₀ two_ne_zero, Int.toNat_of_nonneg (by omega), sub_add_cancel]

/-- A number of units as a scaled significand. -/
theorem mul_two_pow_mul_ulpMin (m j : Nat) : ((m * 2 ^ j : Nat) : ℚ) * ulpMin = m * 2 ^ ((j : Int) - 1074) := by
  rw [ulpMin, Nat.cast_mul, Nat.cast_pow, Nat.cast_ofNat, mul_assoc, sub_eq_add_neg, zpow_add₀ two_ne_zero,
    zpow_natCast]

/-! ### The rounding (R11, R147) -/

theorem two_pow_toNat_div (e : Int) : (2 : ℚ) ^ e.toNat / 2 ^ (-e).toNat = 2 ^ e := by
  rcases le_total 0 e with h | h
  · obtain ⟨n, rfl⟩ := Int.eq_ofNat_of_zero_le h
    simp
  · obtain ⟨n, hn⟩ := Int.eq_ofNat_of_zero_le (Int.neg_nonneg_of_nonpos h)
    obtain rfl : e = -(n : Int) := by omega
    simp

/-- `floorLog2` is the exponent of the ratio. -/
theorem floorLog2_bounds {num den : Nat} (hnum : 0 < num) (hden : 0 < den) :
    (2 : ℚ) ^ floorLog2 num den ≤ num / den ∧ (num : ℚ) / den < 2 ^ (floorLog2 num den + 1) := by
  have hdenQ : (0 : ℚ) < den := Nat.cast_pos.2 hden
  have hnumLo : (2 : ℚ) ^ (num.log2 : Int) ≤ num := by exact_mod_cast Nat.log2_self_le hnum.ne'
  have hnumHi : (num : ℚ) < 2 ^ ((num.log2 : Int) + 1) := by exact_mod_cast Nat.lt_log2_self
  have hdenLo : (2 : ℚ) ^ (den.log2 : Int) ≤ den := by exact_mod_cast Nat.log2_self_le hden.ne'
  have hdenHi : (den : ℚ) < 2 ^ ((den.log2 : Int) + 1) := by exact_mod_cast Nat.lt_log2_self
  unfold floorLog2
  generalize hl : (num.log2 : Int) - den.log2 = l
  have hhi : (num : ℚ) / den < 2 ^ (l + 1) := by
    rw [div_lt_iff₀ hdenQ]
    calc (num : ℚ) < 2 ^ ((num.log2 : Int) + 1) := hnumHi
      _ = 2 ^ (l + 1) * 2 ^ (den.log2 : Int) := by rw [← zpow_add₀ two_ne_zero]; congr 1; omega
      _ ≤ 2 ^ (l + 1) * den := by gcongr
  have hlo : (2 : ℚ) ^ (l - 1) ≤ num / den := by
    rw [le_div_iff₀ hdenQ]
    calc (2 : ℚ) ^ (l - 1) * den ≤ 2 ^ (l - 1) * 2 ^ ((den.log2 : Int) + 1) := by gcongr
      _ = 2 ^ (num.log2 : Int) := by rw [← zpow_add₀ two_ne_zero]; congr 1; omega
      _ ≤ num := hnumLo
  have hcheck : den * 2 ^ l.toNat ≤ num * 2 ^ (-l).toNat ↔ (2 : ℚ) ^ l ≤ num / den := by
    rw [← two_pow_toNat_div l, div_le_div_iff₀ (by positivity) hdenQ, mul_comm den]
    exact_mod_cast Iff.rfl
  dsimp only
  split
  case isTrue h => exact ⟨hcheck.1 h, hhi⟩
  case isFalse h =>
    refine ⟨hlo, ?_⟩
    rw [sub_add_cancel]
    exact not_le.1 (mt hcheck.2 h)

/-- The quotient rounded to the nearest integer, ties to even. -/
def roundedQuotient (n d : Nat) : Nat :=
  if d < 2 * (n % d) ∨ (2 * (n % d) = d ∧ n / d % 2 = 1) then n / d + 1 else n / d

/-- A quotient of at most 53 bits, rounded and scaled, is the magnitude nearest to the scaled ratio. -/
theorem isNearestEven_roundedQuotient {n d j : Nat} (hd : 0 < d) (hq : n / d < 2 ^ 53) (hj : 2 ^ 52 ≤ n / d ∨ j = 0) :
    IsNearestEven ((n : ℚ) / d * 2 ^ j) (j * 2 ^ 52 + roundedQuotient n d) := by
  have hdQ : (0 : ℚ) < d := Nat.cast_pos.2 hd
  have hpow : (0 : ℚ) < 2 ^ j := by positivity
  have hunits : ((magUnits (j * 2 ^ 52 + n / d) : Nat) : ℚ) = (n / d : Nat) * 2 ^ j := by
    rw [magUnits_scaled hq.le hj]
    push_cast
    rfl
  have hunits' : ((magUnits (j * 2 ^ 52 + n / d + 1) : Nat) : ℚ) = ((n / d : Nat) + 1) * 2 ^ j := by
    rw [Nat.add_assoc, magUnits_scaled (by omega) (by omega)]
    push_cast
    rfl
  have hratio : (n : ℚ) / d = (n / d : Nat) + (n % d : Nat) / d := by
    rw [eq_comm, ← mul_right_inj' hdQ.ne', mul_add, mul_div_cancel₀ _ hdQ.ne', mul_div_cancel₀ _ hdQ.ne']
    exact_mod_cast Nat.div_add_mod n d
  have hfrac : ((n % d : Nat) : ℚ) / d < 1 := by
    rw [div_lt_one hdQ]
    exact_mod_cast Nat.mod_lt n hd
  have hfrac0 : (0 : ℚ) ≤ ((n % d : Nat) : ℚ) / d := by positivity
  have hhalf : d < 2 * (n % d) ↔ 1 < 2 * (((n % d : Nat) : ℚ) / d) := by
    rw [← mul_div_assoc, one_lt_div hdQ]
    exact_mod_cast Iff.rfl
  have heq : 2 * (n % d) = d ↔ 2 * (((n % d : Nat) : ℚ) / d) = 1 := by
    rw [← mul_div_assoc, div_eq_one_iff_eq hdQ.ne']
    exact_mod_cast Iff.rfl
  have hdouble : 2 * ((n : ℚ) / d * 2 ^ j) = (2 * (n / d : Nat) + 2 * (((n % d : Nat) : ℚ) / d)) * 2 ^ j := by
    rw [hratio]
    ring
  have hsum : ((magUnits (j * 2 ^ 52 + n / d) : Nat) : ℚ) + (magUnits (j * 2 ^ 52 + n / d + 1) : Nat) =
      (2 * (n / d : Nat) + 1) * 2 ^ j := by
    rw [hunits, hunits']
    ring
  have hparity : (j * 2 ^ 52 + n / d) % 2 = n / d % 2 := by omega
  obtain ⟨hdown, hup⟩ := isNearestEven_of_bracket (M := j * 2 ^ 52 + n / d) (y := (n : ℚ) / d * 2 ^ j)
    (by rw [hunits, hratio]; gcongr; linarith) (by rw [hunits', hratio]; gcongr)
  rw [hdouble, hsum, hparity, mul_lt_mul_iff_left₀ hpow, mul_left_inj' hpow.ne', add_lt_add_iff_left, add_right_inj,
    ← heq] at hdown
  rw [hdouble, hsum, hparity, mul_lt_mul_iff_left₀ hpow, mul_left_inj' hpow.ne', add_lt_add_iff_left, add_right_inj,
    ← hhalf, ← heq] at hup
  unfold roundedQuotient
  split
  case isTrue h =>
    rw [← Nat.add_assoc]
    exact hup h
  case isFalse h =>
    refine hdown ?_
    rw [not_or, hhalf, not_lt] at h
    obtain ⟨hle, htie⟩ := h
    rcases hle.lt_or_eq with hlt | hhalfway
    · exact .inl hlt
    · rw [← heq] at hhalfway
      exact .inr ⟨hhalfway, Nat.mod_two_ne_one.1 fun hodd => htie ⟨hhalfway, hodd⟩⟩

/-- What `roundRatio` answers: the magnitude nearest to the ratio in units, ties to even, with infinity for every
magnitude from its own on. -/
theorem roundRatio_spec (neg : Bool) (num : Nat) {den : Nat} (hden : 0 < den) :
    ∃ M, IsNearestEven ((num : ℚ) / den / ulpMin) M ∧ roundRatio neg num den = ofSignMag neg (min M infMag) := by
  rcases Nat.eq_zero_or_pos num with rfl | hnum
  · refine ⟨0, ?_, by simp [roundRatio, fZero]⟩
    simpa [magUnits_zero] using isNearestEven_self (K := ℚ) 0
  · obtain ⟨hlo, hhi⟩ := floorLog2_bounds hnum hden
    have hdef : roundRatio neg num den =
        let e : Int := max (floorLog2 num den - 52) (-1074)
        ofSignMag neg (min ((e + 1074).toNat * 2 ^ 52 +
          roundedQuotient (num * 2 ^ (-e).toNat) (den * 2 ^ e.toNat)) infMag) := if_neg hnum.ne'
    refine ⟨_, ?_, hdef⟩
    generalize floorLog2 num den = l at hlo hhi
    generalize he : max (l - 52) (-1074) = e
    generalize hj : (e + 1074).toNat = j
    generalize hn : num * 2 ^ (-e).toNat = n
    generalize hd : den * 2 ^ e.toNat = d
    have hdpos : 0 < d := hd ▸ Nat.mul_pos hden (Nat.two_pow_pos _)
    have hdQ : (0 : ℚ) < d := Nat.cast_pos.2 hdpos
    have hratio : (n : ℚ) / d = num / den * 2 ^ (-e) := by
      rw [← hn, ← hd, ← two_pow_toNat_div, neg_neg]
      push_cast
      field_simp
    have hunits : (n : ℚ) / d * 2 ^ j = num / den / ulpMin := by
      rw [hratio, ulpMin, mul_assoc, ← zpow_natCast, ← zpow_add₀ two_ne_zero,
        div_eq_mul_inv _ ((2 : ℚ) ^ (-1074 : Int)), ← zpow_neg]
      congr 2
      omega
    have hsmall : n / d < 2 ^ 53 := by
      rw [Nat.div_lt_iff_lt_mul hdpos]
      have h : (n : ℚ) / d < 2 ^ (53 : Int) := by
        rw [hratio]
        calc (num : ℚ) / den * 2 ^ (-e) < 2 ^ (l + 1) * 2 ^ (-e) := by gcongr
          _ = 2 ^ (l + 1 + -e) := (zpow_add₀ two_ne_zero _ _).symm
          _ ≤ 2 ^ (53 : Int) := zpow_le_zpow_right₀ one_le_two (by omega)
      rw [div_lt_iff₀ hdQ] at h
      exact_mod_cast h
    have hnormal : 2 ^ 52 ≤ n / d ∨ j = 0 := by
      rcases le_or_gt (l - 52) (-1074) with hle | hgt
      · right
        omega
      · left
        rw [Nat.le_div_iff_mul_le hdpos]
        have h : (2 : ℚ) ^ (52 : Int) ≤ (n : ℚ) / d := by
          rw [hratio]
          calc (2 : ℚ) ^ (52 : Int) = 2 ^ l * 2 ^ (-e) := by rw [← zpow_add₀ two_ne_zero]; congr 1; omega
            _ ≤ num / den * 2 ^ (-e) := by gcongr
        rw [le_div_iff₀ hdQ] at h
        exact_mod_cast h
    rw [← hunits]
    exact isNearestEven_roundedQuotient hdpos hsmall hnormal

end Sys2Proof.Machine

/-! PROOFS. What the nearest magnitude says of rounding, conversions and operations (00_scope R10, R11,
40_float_arith R130, R147). -/

namespace Sys2Proof.Machine

/-! ### The pattern a rounding answers -/

section RoundedPattern

variable (neg : Bool) (M : Nat)

/-- The pattern of a nearest magnitude, an infinity from `infMag` on. -/
def roundedPattern : F64 := ofSignMag neg (min M infMag)

theorem min_infMag_lt : min M infMag < 2 ^ 63 := lt_of_le_of_lt (Nat.min_le_right _ _) (by decide)

@[simp] theorem fSign_roundedPattern : fSign (roundedPattern neg M) = neg := fSign_ofSignMag neg (min_infMag_lt M)

@[simp] theorem fMag_roundedPattern : fMag (roundedPattern neg M) = min M infMag :=
  fMag_ofSignMag neg (min_infMag_lt M)

theorem isNaN_roundedPattern : isNaN (roundedPattern neg M) = false := by simp [isNaN]

theorem isInf_roundedPattern_iff : isInf (roundedPattern neg M) = true ↔ infMag ≤ M := by
  rw [isInf_iff, fMag_roundedPattern, min_eq_right_iff]

theorem isFin_roundedPattern_iff : isFin (roundedPattern neg M) = true ↔ M < infMag := by
  simp [isFin]

theorem fVal_roundedPattern (h : M < infMag) :
    fVal (roundedPattern neg M) = (if neg then -1 else 1) * (magUnits M * ulpMin) := by
  rw [fVal_eq_magUnits, fSign_roundedPattern, fMag_roundedPattern, min_eq_left h.le]

end RoundedPattern

/-! ### Nearest to even, in values (R11) -/

/-- The greatest finite value and the value one unit above it, halfway: the overflow threshold. -/
theorem overflow_threshold :
    ((magUnits (infMag - 1) : ℚ) + magUnits infMag) * ulpMin = 2 * (2 ^ 1024 - 2 ^ 970) := by
  have htop : (2 : ℚ) ^ 1024 = 2 ^ 54 * 2 ^ 970 := by rw [← pow_add]
  have hpred := mul_two_pow_mul_ulpMin (2 ^ 53 - 1) 2045
  have hinf := mul_two_pow_mul_ulpMin (2 ^ 53) 2045
  have h971 : (2 : ℚ) ^ ((2045 : Nat) - 1074 : Int) = 2 * 2 ^ 970 := by
    rw [← pow_succ', ← zpow_natCast]
    rfl
  rw [add_mul, magUnits_pred_infMag, magUnits_infMag, hpred, hinf, h971, htop]
  generalize (2 : ℚ) ^ 970 = p
  push_cast
  ring

/-- A nearest magnitude reaches that of an infinity from the overflow threshold on; at the threshold itself because the
greatest finite magnitude is odd. -/
theorem IsNearestEven.infMag_le_iff {y : ℚ} {M : Nat} (h : IsNearestEven y M) :
    infMag ≤ M ↔ (magUnits (infMag - 1) : ℚ) + magUnits infMag ≤ 2 * y := by
  have hpred : infMag - 1 < infMag := by decide
  constructor
  · intro hM
    have hmid := h.below (infMag - 1) (hpred.trans_le hM)
    have hle := magUnits_cast_le (K := ℚ) hM
    linarith
  · intro hy
    by_contra hM
    rw [not_le] at hM
    have hmid := h.above infMag hM
    have hle := magUnits_cast_le (K := ℚ) (Nat.le_pred_of_lt hM)
    have hmax : M = infMag - 1 := by
      refine magUnits_strictMono.injective (Nat.cast_injective (R := ℚ) (le_antisymm hle ?_))
      linarith
    have heven := h.tie infMag hM.ne' (by rw [hmax] at hmid ⊢; linarith)
    rw [hmax] at heven
    exact absurd heven (by decide)

/-- Distances in values are distances in units. -/
theorem abs_units_sub (m : Nat) (x : ℚ) : |(magUnits m : ℚ) * ulpMin - x| = |(magUnits m : ℚ) - x / ulpMin| * ulpMin := by
  rw [← abs_of_pos ulpMin_pos, ← abs_mul, abs_of_pos ulpMin_pos, sub_mul, div_mul_cancel₀ _ ulpMin_pos.ne']

/-- Settles O10: the nearest magnitude in units, read as values. -/
theorem roundingIsNearestTiesToEven : Obligations.RoundingIsNearestTiesToEven := by
  intro neg num den hden x r
  obtain ⟨M, hM, hr⟩ := roundRatio_spec neg num hden
  change r = roundedPattern neg M at hr
  rw [hr]
  refine ⟨fSign_roundedPattern neg M, isNaN_roundedPattern neg M, ?overflow, fun hfin c hc => ?nearest⟩
  case overflow =>
    rw [isInf_roundedPattern_iff, hM.infMag_le_iff, ← mul_le_mul_iff_left₀ ulpMin_pos, overflow_threshold, mul_assoc,
      div_mul_cancel₀ _ ulpMin_pos.ne', mul_le_mul_iff_right₀ two_pos]
  case nearest =>
    rw [isFin_roundedPattern_iff] at hfin
    rw [abs_fVal, abs_fVal, fMag_roundedPattern, min_eq_left hfin.le, abs_units_sub, abs_units_sub]
    refine ⟨mul_le_mul_of_nonneg_right (isNearest_iff.1 hM.toIsNearest _) ulpMin_pos.le, fun hdist hne => ?_⟩
    have hunits : (magUnits M : ℚ) ≠ magUnits (fMag c) := fun h => hne (by rw [h])
    have hmid := midpoint_of_abs_sub_eq hunits (mul_right_cancel₀ ulpMin_pos.ne' hdist)
    exact hM.tie (fMag c) (fun h => hunits (by rw [h])) hmid

/-! ### Rounding depends on the ratio alone, and keeps a ratio some pattern holds -/

theorem roundRatio_congr (neg : Bool) {num den num' den' : Nat} (hden : 0 < den) (hden' : 0 < den')
    (h : (num : ℚ) / den = num' / den') : roundRatio neg num den = roundRatio neg num' den' := by
  obtain ⟨M, hM, hr⟩ := roundRatio_spec neg num hden
  obtain ⟨N, hN, hr'⟩ := roundRatio_spec neg num' hden'
  rw [h] at hM
  rw [hr, hr', hM.unique hN]

/-- A ratio that is the value of a finite magnitude rounds to it. -/
theorem roundRatio_of_magUnits (neg : Bool) {num den M : Nat} (hden : 0 < den)
    (h : (num : ℚ) / den = magUnits M * ulpMin) : roundRatio neg num den = roundedPattern neg M := by
  obtain ⟨N, hN, hr⟩ := roundRatio_spec neg num hden
  rw [h, mul_div_cancel_right₀ _ ulpMin_pos.ne'] at hN
  rw [hr, hN.unique (isNearestEven_self M), roundedPattern]

theorem scaled_lt_scaled {m n j t : Nat} (hn : 0 < n) (hm : m ≤ n) (hj : j < t ∨ j = t ∧ m < n) :
    m * 2 ^ j < n * 2 ^ t := by
  rcases hj with hlt | ⟨rfl, hlt⟩
  · calc m * 2 ^ j ≤ n * 2 ^ j := Nat.mul_le_mul_right _ hm
      _ < n * 2 ^ t := Nat.mul_lt_mul_of_pos_left (Nat.pow_lt_pow_right one_lt_two hlt) hn
  · exact Nat.mul_lt_mul_of_pos_right hlt (Nat.two_pow_pos _)

/-- Every significand below 2^53, at every exponent of a finite value, is the value of a finite magnitude; so is 2^53
itself below the greatest exponent. -/
theorem exists_finite_magUnits {m j : Nat} (hm : m ≤ 2 ^ 53) (hj : j < 2045 ∨ j = 2045 ∧ m < 2 ^ 53) :
    ∃ M < infMag, magUnits M = m * 2 ^ j := by
  obtain ⟨M, hM⟩ := exists_magUnits_eq j hm
  refine ⟨M, magUnits_strictMono.lt_iff_lt.1 ?_, hM⟩
  rw [hM, magUnits_infMag]
  exact scaled_lt_scaled (Nat.two_pow_pos _) hm hj

/-- A rounding that is exact: its sign and value. -/
structure IsExact (r : F64) (neg : Bool) (x : ℚ) : Prop where
  fin : isFin r = true
  sign : fSign r = neg
  val : fVal r = (if neg then -1 else 1) * x

/-- A ratio that is a significand of at most 53 bits at an exponent in range is rounded exactly. -/
theorem roundRatio_isExact (neg : Bool) {num den m : Nat} {e : Int} (hden : 0 < den)
    (h : (num : ℚ) / den = m * 2 ^ e) (hm : m ≤ 2 ^ 53) (hlo : -1074 ≤ e) (hhi : e ≤ 970 ∨ e = 971 ∧ m < 2 ^ 53) :
    IsExact (roundRatio neg num den) neg (m * 2 ^ e) := by
  obtain ⟨M, hMlt, hM⟩ := exists_finite_magUnits (j := (e + 1074).toNat) hm (by omega)
  have hval : (magUnits M : ℚ) * ulpMin = m * 2 ^ e := by
    rw [hM, mul_two_pow_mul_ulpMin]
    congr 2
    omega
  rw [roundRatio_of_magUnits neg hden (h.trans hval.symm)]
  exact ⟨(isFin_roundedPattern_iff neg M).2 hMlt, fSign_roundedPattern neg M, by
    rw [fVal_roundedPattern neg M hMlt, hval]⟩

/-- Patterns that are finite, of one sign and of one value are one pattern. -/
theorem IsExact.unique {r r' : F64} {neg : Bool} {x : ℚ} (h : IsExact r neg x) (h' : IsExact r' neg x) : r = r' := by
  have hkey : fKey r = fKey r' := (fVal_eq_iff r r').1 (h.val.trans h'.val.symm)
  refine eq_of_fSign_fMag (h.sign.trans h'.sign.symm) ?_
  rw [fKey, fKey, h.sign, h'.sign] at hkey
  split at hkey <;> omega

/-! ### Conversions (R10) -/

/-- `f64(n)` is exact up to 2^53. -/
theorem roundRatio_natCast (neg : Bool) {n : Nat} (h : n ≤ 2 ^ 53) : IsExact (roundRatio neg n 1) neg n := by
  have hexact := roundRatio_isExact neg (num := n) (den := 1) (e := 0) one_pos (by simp) h (by norm_num)
    (.inl (by norm_num))
  simpa using hexact

theorem ofNat_isExact {n : Nat} (h : n ≤ 2 ^ 53) : IsExact (ofNat n) false n := roundRatio_natCast false h

/-- The magnitude of the value as a ratio of naturals. -/
theorem abs_fVal_eq_div (v : F64) :
    |fVal v| = ((fMant v * 2 ^ (fScale v).toNat : Nat) : ℚ) / (2 ^ (-fScale v).toNat : Nat) := by
  rw [abs_fVal, ulpMin, ← magUnits_fMag, ← two_pow_toNat_div]
  push_cast
  rw [mul_div_assoc]

/-- `trunc` drops the fraction of the magnitude (R10). -/
theorem ftrunc_eq_floor (v : F64) : ftrunc v = if fSign v then -⌊|fVal v|⌋ else ⌊|fVal v|⌋ := by
  rw [abs_fVal_eq_div, ← Int.cast_natCast (fMant v * _), Rat.floor_intCast_div_natCast, ← Int.natCast_div]
  rfl

theorem fVal_of_fSign {v : F64} : fVal v = if fSign v then -|fVal v| else |fVal v| := by
  rw [abs_fVal, fVal_eq_magUnits]
  split <;> simp

/-- `trunc` rounds toward zero (R10). -/
theorem ftrunc_eq_floor_or_ceil (v : F64) : ftrunc v = if 0 ≤ fVal v then ⌊fVal v⌋ else ⌈fVal v⌉ := by
  rw [ftrunc_eq_floor]
  have hval := fVal_of_fSign (v := v)
  have hnonneg := abs_nonneg (fVal v)
  cases hs : fSign v with
  | false =>
    simp only [hs, Bool.false_eq_true, if_false] at hval ⊢
    rw [if_pos (hval ▸ hnonneg), ← hval]
  | true =>
    simp only [hs, if_true] at hval ⊢
    split
    · next h =>
      have hzero : |fVal v| = 0 := by linarith
      rw [hval, hzero]
      simp
    · rw [hval, abs_neg, abs_abs, Int.ceil_neg]

/-- Settles O9. -/
theorem conversionsKeepTheValue : Obligations.ConversionsKeepTheValue := by
  refine ⟨fun v _ => ftrunc_eq_floor_or_ceil v, fun n hn => ?_, fun n hn => ?_⟩
  · obtain ⟨hfin, hsign, hval⟩ := ofNat_isExact hn
    exact ⟨hfin, by simpa using hval, hsign⟩
  · obtain ⟨hfin, hsign, hval⟩ := roundRatio_natCast (decide (n < 0)) hn
    refine ⟨hfin, hval.trans ?_, hsign⟩
    have habs : (n.natAbs : ℚ) = |(n : ℚ)| := by rw [Nat.cast_natAbs, Int.cast_abs]
    rw [habs]
    rcases lt_or_ge n 0 with hneg | hpos
    · rw [abs_of_neg (Int.cast_lt_zero.2 hneg)]
      simp [hneg]
    · rw [abs_of_nonneg (Int.cast_nonneg hpos)]
      simp [hpos]

end Sys2Proof.Machine

/-! PROOFS. Arithmetic on finite operands: one rounding of the exact result, and the exact remainder (00_scope R11,
40_float_arith R130). -/

namespace Sys2Proof.Machine

variable {a b v : F64} {k : Nat}

/-! ### Exact results as integers at a scale -/

theorem fScale_bounds (h : isFin v = true) : -1074 ≤ fScale v ∧ fScale v ≤ 971 := by
  have hmag : fMag v < infMag := of_decide_eq_true h
  rw [infMag] at hmag
  unfold fScale
  split <;> omega

theorem fMant_lt (v : F64) : fMant v < 2 ^ 53 := by
  unfold fMant
  split <;> omega

theorem fScale_ge (v : F64) : -1074 ≤ fScale v := by
  unfold fScale
  split <;> omega

/-- The value as a signed significand at a scale not above its own. -/
theorem fixedAt_mul {e : Int} (h : e ≤ fScale v) : (fixedAt v e : ℚ) * 2 ^ e = fVal v := by
  rw [fVal, two_zpow_eq_mul h]
  unfold fixedAt
  split <;> push_cast <;> ring

theorem natAbs_fixedAt (v : F64) (e : Int) : (fixedAt v e).natAbs = fMant v * 2 ^ (fScale v - e).toNat := by
  unfold fixedAt
  split <;> simp only [Int.natAbs_neg, Int.natAbs_natCast]

/-- The ratio a dyadic rounding rounds. -/
theorem dyadic_ratio (m : Nat) (e : Int) : ((m * 2 ^ e.toNat : Nat) : ℚ) / (2 ^ (-e).toNat : Nat) = m * 2 ^ e := by
  rw [← two_pow_toNat_div]
  push_cast
  rw [mul_div_assoc]

theorem abs_eq_num_div_den (q : ℚ) : |q| = (q.num.natAbs : ℚ) / q.den := by
  rw [← Rat.num_div_den q, abs_div, Nat.cast_natAbs, Int.cast_abs, Nat.abs_cast, Rat.num_div_den]

/-- Rounding any ratio of naturals is rounding the rational it is the magnitude of. -/
theorem roundRatio_eq_of_abs (neg : Bool) {num den : Nat} {q : ℚ} (hden : 0 < den) (h : (num : ℚ) / den = |q|) :
    roundRatio neg num den = roundRatio neg q.num.natAbs q.den :=
  roundRatio_congr neg hden q.den_pos (h.trans (abs_eq_num_div_den q))

theorem roundDyadic_eq_of_abs (neg : Bool) {m : Nat} {e : Int} {q : ℚ} (h : (m : ℚ) * 2 ^ e = |q|) :
    roundDyadic neg m e = roundRatio neg q.num.natAbs q.den :=
  roundRatio_eq_of_abs neg (Nat.two_pow_pos _) ((dyadic_ratio m e).trans h)

/-! ### The four operations (R11) -/

theorem fVal_fneg (v : F64) : fVal (fneg v) = -fVal v := by
  rw [fVal_eq_magUnits, fVal_eq_magUnits, fSign_fneg, fMag_fneg]
  cases fSign v <;> simp

section Finite

variable (ha : isFin a = true) (hb : isFin b = true)

include ha hb

/-- Addition of finite values: the sum at the smaller scale, rounded. -/
theorem fadd_of_isFin : fadd k a b =
    if fVal a + fVal b = 0 then fZero (fSign a && fSign b)
    else roundRatio (decide (fVal a + fVal b < 0)) (fVal a + fVal b).num.natAbs (fVal a + fVal b).den := by
  generalize he : min (fScale a) (fScale b) = e
  have hpow : (0 : ℚ) < 2 ^ e := zpow_pos two_pos _
  have hsum : ((fixedAt a e + fixedAt b e : Int) : ℚ) * 2 ^ e = fVal a + fVal b := by
    rw [Int.cast_add, add_mul, fixedAt_mul (by omega), fixedAt_mul (by omega)]
  have hzero : fixedAt a e + fixedAt b e = 0 ↔ fVal a + fVal b = 0 := by
    rw [← hsum, mul_eq_zero_iff_right hpow.ne', Int.cast_eq_zero]
  have hneg : fixedAt a e + fixedAt b e < 0 ↔ fVal a + fVal b < 0 := by
    rw [← Int.cast_lt_zero (R := ℚ), ← mul_lt_mul_iff_left₀ hpow, zero_mul, hsum]
  have habs : (((fixedAt a e + fixedAt b e).natAbs : Nat) : ℚ) * 2 ^ e = |fVal a + fVal b| := by
    rw [← hsum, abs_mul, abs_of_pos hpow, Nat.cast_natAbs, Int.cast_abs]
  simp only [fadd, not_isNaN_of_isFin ha, not_isNaN_of_isFin hb, not_isInf_of_isFin ha, not_isInf_of_isFin hb,
    Bool.or_self, Bool.false_eq_true, if_false, he, hzero, hneg, roundDyadic_eq_of_abs _ habs]

theorem fsub_of_isFin : fsub k a b =
    if fVal a - fVal b = 0 then fZero (fSign a && !fSign b)
    else roundRatio (decide (fVal a - fVal b < 0)) (fVal a - fVal b).num.natAbs (fVal a - fVal b).den := by
  rw [fsub, fadd_of_isFin ha ((isFin_fneg b).trans hb), fVal_fneg, ← sub_eq_add_neg, fSign_fneg]

theorem fmul_of_isFin : fmul k a b =
    roundRatio (fSign a != fSign b) (fVal a * fVal b).num.natAbs (fVal a * fVal b).den := by
  have habs : ((fMant a * fMant b : Nat) : ℚ) * 2 ^ (fScale a + fScale b) = |fVal a * fVal b| := by
    rw [abs_mul, abs_fVal, abs_fVal, ulpMin, ← magUnits_fMag, ← magUnits_fMag, zpow_add₀ two_ne_zero]
    push_cast
    ring
  simp only [fmul, not_isNaN_of_isFin ha, not_isNaN_of_isFin hb, not_isInf_of_isFin ha, not_isInf_of_isFin hb,
    Bool.or_self, Bool.false_eq_true, if_false, roundDyadic_eq_of_abs _ habs]

theorem fdiv_of_isFin (hb0 : fVal b ≠ 0) : fdiv k a b =
    roundRatio (fSign a != fSign b) (fVal a / fVal b).num.natAbs (fVal a / fVal b).den := by
  have hmag : fMag b ≠ 0 := mt (fVal_eq_zero_iff b).2 hb0
  have hmant : 0 < fMant b := by
    unfold fMant
    split <;> omega
  generalize he : fScale a - fScale b = e
  have hden : 0 < fMant b * 2 ^ (-e).toNat := Nat.mul_pos hmant (Nat.two_pow_pos _)
  have habs : ((fMant a * 2 ^ e.toNat : Nat) : ℚ) / (fMant b * 2 ^ (-e).toNat : Nat) = |fVal a / fVal b| := by
    have hmantQ : (fMant b : ℚ) ≠ 0 := Nat.cast_ne_zero.2 hmant.ne'
    rw [abs_div, abs_fVal, abs_fVal, ulpMin, ← magUnits_fMag, ← magUnits_fMag, Nat.cast_mul, Nat.cast_mul,
      mul_div_mul_comm, mul_div_mul_comm, ← zpow_sub₀ two_ne_zero, he, ← two_pow_toNat_div]
    push_cast
    rfl
  simp only [fdiv, not_isNaN_of_isFin ha, not_isNaN_of_isFin hb, not_isInf_of_isFin ha, not_isInf_of_isFin hb,
    Bool.or_self, Bool.false_eq_true, if_false, if_neg hmag, he, roundRatio_eq_of_abs _ hden habs]

end Finite

/-- Settles O11. -/
theorem operationsRoundTheExactResult : Obligations.OperationsRoundTheExactResult := by
  intro k a b ha hb
  simp only [← fZero_eq_ite]
  refine ⟨fun h => ?_, fun h => ?_, fun h => ?_, fun h => ?_, fmul_of_isFin ha hb, fdiv_of_isFin ha hb⟩
  · rw [fadd_of_isFin ha hb, if_neg h]
  · rw [fsub_of_isFin ha hb, if_neg h]
  · rw [fadd_of_isFin ha hb, if_pos h]
  · rw [fsub_of_isFin ha hb, if_pos h]

end Sys2Proof.Machine

/-! PROOFS. The exact remainder (00_scope R11, R130) and the nearest square root (R145). -/

namespace Sys2Proof.Machine

variable {a b v : F64} {k : Nat}

/-! ### The remainder -/

theorem fVal_eq_sign_mul_abs (v : F64) : fVal v = (if fSign v then -1 else 1) * |fVal v| := by
  rw [abs_fVal, ← fVal_eq_magUnits]

/-- Truncation of a negated magnitude. -/
theorem trunc_neg_of_nonneg {q : ℚ} (h : 0 ≤ q) : (if 0 ≤ -q then ⌊-q⌋ else ⌈-q⌉ : Int) = -⌊q⌋ := by
  split
  · next hq =>
    obtain rfl : q = 0 := by linarith
    simp
  · exact Int.ceil_neg

/-- The truncated multiple of the divisor has the sign of the dividend, whatever the divisor's. -/
theorem mul_trunc_div (a b : F64) :
    fVal b * (if 0 ≤ fVal a / fVal b then ⌊fVal a / fVal b⌋ else ⌈fVal a / fVal b⌉ : Int) =
      (if fSign a then -1 else 1) * (|fVal b| * ⌊|fVal a| / |fVal b|⌋) := by
  have hnonneg : 0 ≤ |fVal a| / |fVal b| := div_nonneg (abs_nonneg _) (abs_nonneg _)
  have ha := fVal_of_fSign (v := a)
  have hb := fVal_of_fSign (v := b)
  generalize |fVal a| = p at *
  generalize |fVal b| = q at *
  rw [ha, hb]
  cases fSign a <;> cases fSign b
  case false.false => simp [if_pos hnonneg]
  case true.true => simp [neg_div_neg_eq, if_pos hnonneg]
  case false.true =>
    simp only [Bool.false_eq_true, if_false, if_true, div_neg, trunc_neg_of_nonneg hnonneg]
    push_cast
    ring
  case true.false =>
    simp only [Bool.false_eq_true, if_false, if_true, neg_div, trunc_neg_of_nonneg hnonneg]
    push_cast
    ring

/-- The remainder of two finite values is exact: at the smaller scale one of the two significands has 53 bits, and the
integer remainder is no greater than it. -/
theorem fmod_of_isFin (ha : isFin a = true) (hb : isFin b = true) (hb0 : fVal b ≠ 0) :
    IsExact (fmod k a b) (fSign a) (|fVal a| - |fVal b| * ⌊|fVal a| / |fVal b|⌋) := by
  have hmag : fMag b ≠ 0 := mt (fVal_eq_zero_iff b).2 hb0
  generalize he : min (fScale a) (fScale b) = e
  have hpow : (0 : ℚ) < 2 ^ e := zpow_pos two_pos _
  have hfixed : ∀ {c : F64}, e ≤ fScale c → ((fixedAt c e).natAbs : ℚ) * 2 ^ e = |fVal c| := fun {c} hc => by
    rw [← fixedAt_mul hc, abs_mul, abs_of_pos hpow, Nat.cast_natAbs, Int.cast_abs]
  have hA := hfixed (c := a) (by omega)
  have hB := hfixed (c := b) (by omega)
  have hmantA := natAbs_fixedAt a e
  have hmantB := natAbs_fixedAt b e
  have hfmod : fmod k a b = roundDyadic (fSign a) ((fixedAt a e).natAbs % (fixedAt b e).natAbs) e := by
    simp [fmod, not_isNaN_of_isFin ha, not_isNaN_of_isFin hb, not_isInf_of_isFin ha, not_isInf_of_isFin hb, hmag, he]
  generalize (fixedAt a e).natAbs = A at *
  generalize (fixedAt b e).natAbs = B at *
  have hBpos : 0 < B := by
    rw [Nat.pos_iff_ne_zero]
    rintro rfl
    exact hb0 (abs_eq_zero.1 (by rw [← hB]; simp))
  have hsmall : A % B < 2 ^ 53 := by
    rcases min_choice (fScale a) (fScale b) with hmin | hmin
    · rw [← he, hmin, sub_self, Int.toNat_zero, Nat.pow_zero, Nat.mul_one] at hmantA
      exact (Nat.mod_le A B).trans_lt (hmantA ▸ fMant_lt a)
    · rw [← he, hmin, sub_self, Int.toNat_zero, Nat.pow_zero, Nat.mul_one] at hmantB
      exact (Nat.mod_lt A hBpos).trans (hmantB ▸ fMant_lt b)
  have hvalue : ((A % B : Nat) : ℚ) * 2 ^ e = |fVal a| - |fVal b| * ⌊|fVal a| / |fVal b|⌋ := by
    have hquot : ⌊|fVal a| / |fVal b|⌋ = ((A / B : Nat) : Int) := by
      rw [← hA, ← hB, mul_div_mul_right _ _ hpow.ne', ← Int.cast_natCast A, Rat.floor_intCast_div_natCast,
        Int.natCast_div]
    have hsplit : (A : ℚ) = B * (A / B : Nat) + (A % B : Nat) := by exact_mod_cast (Nat.div_add_mod A B).symm
    rw [hquot, Int.cast_natCast, ← hA, ← hB]
    linear_combination (-(2 : ℚ) ^ e) * hsplit
  have hbounds := fScale_bounds ha
  have hbounds' := fScale_bounds hb
  rw [hfmod, ← hvalue]
  exact roundRatio_isExact (fSign a) (Nat.two_pow_pos _) (dyadic_ratio _ e) hsmall.le (by omega) (by omega)

/-- Settles O12. -/
theorem remainderIsExact : Obligations.RemainderIsExact := by
  intro k a b ha hb hb0
  obtain ⟨hfin, hsign, hval⟩ := fmod_of_isFin (k := k) ha hb hb0
  refine ⟨hfin, hsign, ?_⟩
  rw [hval, mul_trunc_div, mul_sub, ← fVal_eq_sign_mul_abs]

/-! ### The integer square root -/

/-- The bits found so far and the greatest number the bits left can add enclose the root. -/
theorem isqrtFrom_spec {j n r : Nat} (hlo : r * r ≤ n) (hhi : n < (r + 2 ^ j) * (r + 2 ^ j)) :
    isqrtFrom j n r * isqrtFrom j n r ≤ n ∧ n < (isqrtFrom j n r + 1) * (isqrtFrom j n r + 1) := by
  induction j generalizing r with
  | zero => exact ⟨hlo, hhi⟩
  | succ j ih =>
    rw [isqrtFrom]
    split
    · next h => exact ih h (by rwa [Nat.add_assoc, ← Nat.two_mul, ← Nat.pow_succ'])
    · next h => exact ih hlo (not_le.1 h)

/-- The integer root of a number of `2 * j + 1` or `2 * j + 2` bits, which has `j + 1` bits. -/
theorem isqrtFrom_bounds {j n : Nat} (hlo : 2 ^ j * 2 ^ j ≤ n) (hhi : n < 2 ^ (j + 1) * 2 ^ (j + 1)) :
    (2 ^ j ≤ isqrtFrom (j + 1) n 0 ∧ isqrtFrom (j + 1) n 0 < 2 ^ (j + 1)) ∧
      isqrtFrom (j + 1) n 0 ^ 2 ≤ n ∧ n < (isqrtFrom (j + 1) n 0 + 1) ^ 2 := by
  obtain ⟨hbelow, habove⟩ := isqrtFrom_spec (j := j + 1) (n := n) (r := 0) (Nat.zero_le n) (by rwa [Nat.zero_add])
  rw [Nat.pow_two, Nat.pow_two]
  exact ⟨⟨Nat.le_of_lt_succ (Nat.mul_self_lt_mul_self_iff.1 (hlo.trans_lt habove)),
    Nat.mul_self_lt_mul_self_iff.1 (hbelow.trans_lt hhi)⟩, hbelow, habove⟩

/-! ### Nearest magnitudes to an irrational root -/

/-- Every magnitude from the exponent `j` on is a multiple of `2 ^ j` units. -/
theorem two_pow_dvd_magUnits {j M : Nat} (h : (j + 1) * 2 ^ 52 ≤ M) : 2 ^ j ∣ magUnits M := by
  have hexp : j + 1 ≤ M / 2 ^ 52 := (Nat.le_div_iff_mul_le (Nat.two_pow_pos _)).2 h
  rw [magUnits, if_neg (by omega)]
  exact Dvd.dvd.mul_left (pow_dvd_pow 2 (by omega)) _

/-- Where `M` is the magnitude nearest to half an odd number of `2 ^ i` units, at a scale where magnitudes are
multiples of `4 * 2 ^ i`, no midpoint lies between that number's two neighbours. -/
theorem midpoints_of_isNearest {i r s M : Nat} (hr : 2 ^ 54 ≤ r) (hs : s ≤ 1)
    (hM : IsNearest (((2 * r + s) * 2 ^ i : Nat) / 2 : ℚ) M) :
    (∀ c < M, magUnits c + magUnits M ≤ 2 * r * 2 ^ i) ∧
      ∀ c, M < c → (2 * r + 2 * s) * 2 ^ i ≤ magUnits c + magUnits M := by
  have hbelow : ∀ c < M, magUnits c + magUnits M ≤ (2 * r + s) * 2 ^ i := fun c hc => by
    have h := hM.below c hc
    rw [mul_div_cancel₀ _ two_ne_zero] at h
    exact_mod_cast h
  have habove : ∀ c, M < c → (2 * r + s) * 2 ^ i ≤ magUnits c + magUnits M := fun c hc => by
    have h := hM.above c hc
    rw [mul_div_cancel₀ _ two_ne_zero] at h
    exact_mod_cast h
  generalize hL : (i + 2) * 2 ^ 52 + 2 ^ 52 = L
  have hunitsL : magUnits L = 2 ^ 54 * 2 ^ i := by
    rw [← hL, magUnits_scaled (by norm_num) (.inl le_rfl), Nat.pow_add 2 i 2]
    ring
  have hdvd : ∀ c, L ≤ c → 4 * 2 ^ i ∣ magUnits c := fun c hc => by
    have h := two_pow_dvd_magUnits (j := i + 2) (M := c) (by omega)
    rwa [Nat.pow_add 2 i 2, Nat.mul_comm] at h
  have hpow : 0 < 2 ^ i := Nat.two_pow_pos i
  have hrL : 2 * magUnits L ≤ 2 * r * 2 ^ i := by
    rw [hunitsL, ← Nat.mul_assoc]
    exact Nat.mul_le_mul_right _ (by omega)
  have hML : L ≤ M := by
    by_contra hlt
    rw [not_le] at hlt
    have hsum := habove L hlt
    have hunits := magUnits_strictMono hlt
    have hmul : 2 * r * 2 ^ i ≤ (2 * r + s) * 2 ^ i := Nat.mul_le_mul_right _ (Nat.le_add_right _ _)
    omega
  have hsum : ∀ c, L ≤ c → ∃ t, magUnits c + magUnits M = 4 * t * 2 ^ i := fun c hc => by
    obtain ⟨t, ht⟩ := (Nat.dvd_add (hdvd c hc) (hdvd M hML))
    exact ⟨t, by rw [ht]; ring⟩
  have hbelowL : ∀ c, L ≤ c → c < M → magUnits c + magUnits M ≤ 2 * r * 2 ^ i := fun c hcL hcM => by
    have h := hbelow c hcM
    obtain ⟨t, ht⟩ := hsum c hcL
    rw [ht] at h ⊢
    have := Nat.le_of_mul_le_mul_right h hpow
    exact Nat.mul_le_mul_right _ (by omega)
  refine ⟨fun c hc => ?below, fun c hc => ?above⟩
  case below =>
    rcases le_or_gt L c with hcL | hcL
    · exact hbelowL c hcL hc
    · have hcunits := magUnits_strictMono hcL
      rcases hML.eq_or_lt with rfl | hlt
      · omega
      · have := hbelowL L le_rfl hlt
        omega
  case above =>
    have h := habove c hc
    obtain ⟨t, ht⟩ := hsum c (hML.trans hc.le)
    rw [ht] at h ⊢
    have := Nat.le_of_mul_le_mul_right h hpow
    exact Nat.mul_le_mul_right _ (by omega)

/-! ### The square root -/

theorem fSign_of_pos (h : 0 < fVal v) : fSign v = false := by
  by_contra hs
  rw [Bool.not_eq_false] at hs
  have hval := fVal_of_fSign (v := v)
  rw [hs, if_pos rfl] at hval
  linarith [abs_nonneg (fVal v)]

theorem fMant_pos (h : fMag v ≠ 0) : 0 < fMant v := by
  unfold fMant
  split <;> omega

/-- The integer `fsqrt` takes the root of has 109 or 110 bits. -/
theorem sqrt_operand_bounds {m t j : Nat} (hm : 0 < m) (ht : m.log2 + t = j + j ∨ m.log2 + t = j + j + 1) :
    2 ^ j * 2 ^ j ≤ m * 2 ^ t ∧ m * 2 ^ t < 2 ^ (j + 1) * 2 ^ (j + 1) := by
  have hlo := Nat.mul_le_mul_right (2 ^ t) (Nat.log2_self_le hm.ne')
  have hhi := Nat.mul_lt_mul_of_pos_right (Nat.lt_log2_self (n := m)) (Nat.two_pow_pos t)
  rw [← Nat.pow_add] at hlo hhi
  rw [← Nat.pow_add, ← Nat.pow_add]
  exact ⟨(Nat.pow_le_pow_right two_pos (by omega)).trans hlo, hhi.trans_le (Nat.pow_le_pow_right two_pos (by omega))⟩

/-- What the root of a positive finite value is computed from: the integer root `r` of `n`, where the value is
`n * 2 ^ (2 * h)`, with a bit `s` that says whether it is exact. -/
structure RootParts (v : F64) (h : Int) (n r s : Nat) : Prop where
  value : fVal v = n * 2 ^ (2 * h)
  scale : -1074 ≤ h ∧ h ≤ 457
  root : 2 ^ 54 ≤ r ∧ r < 2 ^ 55
  below : r ^ 2 ≤ n
  above : n ≤ (r + s) ^ 2
  sticky : s ≤ 1

theorem fsqrt_eq_roundDyadic (hfin : isFin v = true) (hpos : 0 < fVal v) :
    ∃ h n r s, RootParts v h n r s ∧ ∀ k, fsqrt k v = roundDyadic false (2 * r + s) (h - 1) := by
  have hmag : fMag v ≠ 0 := mt (fVal_eq_zero_iff v).2 hpos.ne'
  have hsign := fSign_of_pos hpos
  have hmant := fMant_pos hmag
  have hbounds := fScale_bounds hfin
  have hlog : (fMant v).log2 < 53 := (Nat.log2_lt hmant.ne').2 (fMant_lt v)
  generalize hh : (fScale v + (fMant v).log2 - 108) / 2 = h
  generalize hn : fMant v * 2 ^ (fScale v - 2 * h).toNat = n
  generalize hr : isqrtFrom 55 n 0 = r
  have hnbounds := sqrt_operand_bounds hmant (t := (fScale v - 2 * h).toNat) (j := 54) (by omega)
  rw [hn] at hnbounds
  obtain ⟨hroot, hbelow, habove⟩ := isqrtFrom_bounds hnbounds.1 hnbounds.2
  rw [hr] at hroot hbelow habove
  refine ⟨h, n, r, if r * r = n then 0 else 1, ⟨?value, by omega, hroot, hbelow, ?above, ?sticky⟩, fun k => ?_⟩
  case value =>
    have hval : fVal v = |fVal v| := (abs_of_pos hpos).symm
    have hle : 2 * h ≤ fScale v := by omega
    rw [hval, abs_fVal, ulpMin, ← magUnits_fMag, two_zpow_eq_mul hle, ← hn]
    push_cast
    ring
  case above =>
    split
    · next heq => rw [Nat.pow_two, Nat.add_zero, heq]
    · exact habove.le
  case sticky => split <;> omega
  · simp only [fsqrt, not_isNaN_of_isFin hfin, not_isInf_of_isFin hfin, hsign, Bool.false_eq_true, if_false, if_neg hmag,
      hh, hn, hr]

/-- In units, the computed root rounds to the magnitude nearest to the real root. -/
theorem RootParts.isNearest_sqrt {h : Int} {n r s M : Nat} (hp : RootParts v h n r s)
    (hM : IsNearestEven (((2 * r + s : Nat) : ℚ) * 2 ^ (h - 1) / ulpMin) M) :
    M < infMag ∧ IsNearest (Real.sqrt (fVal v) / (ulpMin : ℝ)) M := by
  obtain ⟨hvalue, ⟨hhlo, hhhi⟩, ⟨hrlo, hrhi⟩, hbelow, habove, hs⟩ := hp
  generalize hi : (h + 1074).toNat = i
  have hscale : ∀ {K : Type} [Field K] [CharZero K], (2 : K) ^ h = 2 ^ i * 2 ^ (-1074 : Int) := by
    intro K _ _
    rw [two_zpow_eq_mul hhlo, ← hi, sub_neg_eq_add]
  have hunits : ((2 * r + s : Nat) : ℚ) * 2 ^ (h - 1) / ulpMin = ((2 * r + s) * 2 ^ i : Nat) / 2 := by
    rw [zpow_sub_one₀ two_ne_zero, hscale, ulpMin]
    have hulp : (2 : ℚ) ^ (-1074 : Int) ≠ 0 := (zpow_pos two_pos _).ne'
    field_simp
    push_cast
    ring
  rw [hunits] at hM
  obtain ⟨hmidBelow, hmidAbove⟩ := midpoints_of_isNearest hrlo hs hM.toIsNearest
  refine ⟨?finite, ?nearest⟩
  case finite =>
    by_contra hinf
    have hover := hM.infMag_le_iff.1 (not_lt.1 hinf)
    rw [mul_div_cancel₀ _ two_ne_zero] at hover
    have hover' : magUnits (infMag - 1) + magUnits infMag ≤ (2 * r + s) * 2 ^ i := by exact_mod_cast hover
    have hsmall : ∀ t, i + 3 < t → (2 * r + s) * 2 ^ i < 2 ^ 53 * 2 ^ t := fun t ht => by
      obtain ⟨u, rfl⟩ : ∃ u, t = u + 3 := ⟨t - 3, by omega⟩
      rw [Nat.pow_add, Nat.mul_comm (2 ^ u), ← Nat.mul_assoc]
      exact scaled_lt_scaled (by decide) (by omega) (.inl (by omega))
    have hlt := hsmall 2045 (by omega)
    rw [← magUnits_infMag] at hlt
    omega
  case nearest =>
    have hpow : (0 : ℝ) ≤ 2 ^ i := by positivity
    have hroot : Real.sqrt (fVal v) / (ulpMin : ℝ) = Real.sqrt n * 2 ^ i := by
      have hcast : ((fVal v : ℚ) : ℝ) = n * (2 ^ h) ^ 2 := by
        rw [hvalue, mul_comm 2 h, zpow_mul]
        push_cast
        rfl
      rw [hcast, Real.sqrt_mul (Nat.cast_nonneg n), Real.sqrt_sq (by positivity), hscale, ulpMin, Rat.cast_zpow,
        Rat.cast_ofNat, ← mul_assoc, mul_div_cancel_right₀ _ (by positivity)]
    have hlo : (r : ℝ) ≤ Real.sqrt n := Real.le_sqrt_of_sq_le (by exact_mod_cast hbelow)
    have hhi : Real.sqrt n ≤ r + s := (Real.sqrt_le_left (by positivity)).2 (by exact_mod_cast habove)
    rw [hroot]
    refine ⟨fun c hc => ?_, fun c hc => ?_⟩
    · calc (magUnits c + magUnits M : ℝ) ≤ 2 * r * 2 ^ i := by exact_mod_cast hmidBelow c hc
        _ ≤ 2 * (Real.sqrt n * 2 ^ i) := by rw [mul_assoc]; gcongr
    · calc 2 * (Real.sqrt n * 2 ^ i) ≤ (2 * r + 2 * s) * 2 ^ i := by rw [← mul_assoc, ← mul_add]; gcongr
        _ ≤ magUnits c + magUnits M := by exact_mod_cast hmidAbove c hc

/-- A magnitude nearest in units is nearest among the finite values, negative ones included. -/
theorem abs_sub_le_of_isNearest {y : ℝ} {M : Nat} (hy : 0 ≤ y) (hM : IsNearest (y / (ulpMin : ℝ)) M) (c : F64) :
    |(magUnits M : ℝ) * ulpMin - y| ≤ |((fVal c : ℚ) : ℝ) - y| := by
  have hulp : (0 : ℝ) < ulpMin := by exact_mod_cast ulpMin_pos
  have hunits : ∀ m : Nat, |(magUnits m : ℝ) * ulpMin - y| = |(magUnits m : ℝ) - y / ulpMin| * ulpMin := fun m => by
    rw [← abs_of_pos hulp, ← abs_mul, abs_of_pos hulp, sub_mul, div_mul_cancel₀ _ hulp.ne']
  calc |(magUnits M : ℝ) * ulpMin - y| ≤ |(magUnits (fMag c) : ℝ) * ulpMin - y| := by
        rw [hunits, hunits]
        exact mul_le_mul_of_nonneg_right (isNearest_iff.1 hM _) hulp.le
    _ = |(|((fVal c : ℚ) : ℝ)| - |y|)| := by
        rw [abs_of_nonneg hy, ← Rat.cast_abs, abs_fVal]
        push_cast
        rfl
    _ ≤ |((fVal c : ℚ) : ℝ) - y| := abs_abs_sub_abs_le _ _

/-- Settles O13: the root computed to 55 bits and a sticky bit rounds as the real root does. -/
theorem squareRootIsNearest : Obligations.SquareRootIsNearest := by
  intro k v hfin hpos
  obtain ⟨h, n, r, s, hp, hfsqrt⟩ := fsqrt_eq_roundDyadic hfin hpos
  obtain ⟨M, hM, hround⟩ := roundRatio_spec false ((2 * r + s) * 2 ^ (h - 1).toNat) (Nat.two_pow_pos (-(h - 1)).toNat)
  rw [dyadic_ratio] at hM
  obtain ⟨hMlt, hnearest⟩ := hp.isNearest_sqrt hM
  have heq : fsqrt k v = roundedPattern false M := (hfsqrt k).trans hround
  rw [heq]
  refine ⟨(isFin_roundedPattern_iff _ _).2 hMlt, fSign_roundedPattern _ _, fun c _ => ?_⟩
  have hval : ((fVal (roundedPattern false M) : ℚ) : ℝ) = magUnits M * (ulpMin : ℝ) := by
    rw [fVal_roundedPattern false M hMlt]
    push_cast
    simp
  rw [hval]
  exact abs_sub_le_of_isNearest (Real.sqrt_nonneg _) hnearest c

end Sys2Proof.Machine

/-! PROOFS. EPS of the reference configuration (00_scope R6) and the order CMP sets flags by (40_float_arith R135). -/

namespace Sys2Proof.Machine

variable {v : F64}

/-- EPS is the rounding of 1/10^9 (R6). -/
theorem referenceEps_eq_roundRatio : Config.referenceEps = roundRatio false 1 (10 ^ 9) := by decide

/-- Settles O60: EPS is a rounding, so no finite value is nearer, one of the other sign included. -/
theorem referenceParameters : Obligations.ReferenceParameters := by
  have heps : State.reset.params.eps = roundRatio false 1 (10 ^ 9) := referenceEps_eq_roundRatio
  have hfin : isFin State.reset.params.eps = true := by decide
  have hsign : fSign State.reset.params.eps = false := by decide
  refine ⟨rfl, rfl, hfin, by decide, fun c hc => ?_⟩
  obtain ⟨-, -, -, hnearest⟩ := roundingIsNearestTiesToEven false 1 (10 ^ 9) (by norm_num)
  rw [← heps] at hnearest
  have hval : |fVal State.reset.params.eps| = fVal State.reset.params.eps := by
    rw [fVal_of_fSign, hsign, if_neg Bool.false_ne_true, abs_abs]
  have hratio : ((1 : Nat) : ℚ) / (10 ^ 9 : Nat) = 1 / 10 ^ 9 := by norm_num
  have hpos : |(1 / 10 ^ 9 : ℚ)| = 1 / 10 ^ 9 := abs_of_pos (by norm_num)
  have h := (hnearest hfin c hc).1
  rw [hval, hratio] at h
  calc |fVal State.reset.params.eps - 1 / 10 ^ 9| ≤ |(|fVal c| - 1 / 10 ^ 9)| := h
    _ = |(|fVal c| - |1 / 10 ^ 9|)| := by rw [hpos]
    _ ≤ |fVal c - 1 / 10 ^ 9| := abs_abs_sub_abs_le _ _

end Sys2Proof.Machine

/-! PROOFS. What the flags of CMP say of the order of its operands (40_float_arith R135, 43_control_flow R278). -/

namespace Sys2Proof.Machine

variable {a b v eps : F64} {k : Nat}

theorem feq_self (h : isNaN v = false) : feq v v = true := by simp [feq, h]

/-- The flags of 0.0 under an EPS above 0 (R120). -/
theorem floatFlags_zero (h : flt 0 eps = true) :
    floatFlags eps 0 = { zero := true, sign := false, carry := false, overflow := false } := by
  have habs : fabs 0 = 0 := by decide
  rw [floatFlags, habs, h]
  simp only [Flags.mk.injEq, true_and]
  decide

/-- The flags of a NaN (R120). -/
theorem floatFlags_of_isNaN (h : isNaN v = true) :
    floatFlags eps v = { zero := false, sign := false, carry := false, overflow := false } := by
  obtain ⟨-, -, -, hflags⟩ := floatFlagUpdate eps v
  exact hflags h

/-- A result below 0.0 has its sign bit set. -/
theorem fSign_of_flt_zero (h : flt v 0 = true) : fSign v = true := by
  rw [← fZero_false, flt, fKey_fZero, Bool.and_eq_true, decide_eq_true_eq, fKey_neg_iff] at h
  exact h.2.1

/-- A result whose sign bit is set and that sets neither ZF nor SF is none: below 0.0 it sets SF, and -0.0 sets ZF. -/
theorem zero_or_sign_of_fSign (hv : isNaN v = false) (hs : fSign v = true) (heps : flt 0 eps = true) :
    (floatFlags eps v).zero = true ∨ (floatFlags eps v).sign = true := by
  rcases Nat.eq_zero_or_pos (fMag v) with hmag | hmag
  · left
    have habs : fabs v = 0 := by rw [fabs, hmag]; decide
    change flt (fabs v) eps = true
    rw [habs, heps]
  · right
    change flt v (fZero false) = true
    have hkey : fKey v < 0 := (fKey_neg_iff v).2 ⟨hs, hmag.ne'⟩
    simp [flt, hv, not_isNaN_of_isFin (isFin_fZero false), hkey]

/-- What CMP of finite unequal operands sets its flags from: a value whose sign bit is that of the difference. -/
theorem compareValue_of_isFin (ha : isFin a = true) (hb : isFin b = true) (hne : fVal a ≠ fVal b) :
    isNaN (compareValue k a b) = false ∧ fSign (compareValue k a b) = decide (fVal a < fVal b) := by
  have hfeq : feq a b = false := by
    rw [feq_of_isFin ha hb, decide_eq_false hne]
  have hdiff : fVal a - fVal b ≠ 0 := sub_ne_zero.2 hne
  rw [compareValue, hfeq, if_neg Bool.false_ne_true, fsub_of_isFin ha hb, if_neg hdiff]
  obtain ⟨hsign, hnan, -⟩ := roundingIsNearestTiesToEven (decide (fVal a - fVal b < 0)) (fVal a - fVal b).num.natAbs
    (fVal a - fVal b).den (fVal a - fVal b).den_pos
  exact ⟨hnan, by rw [hsign, decide_eq_decide, sub_neg]⟩

theorem compareValue_of_eq (ha : isFin a = true) (hb : isFin b = true) (h : fVal a = fVal b) :
    compareValue k a b = 0 := by
  rw [compareValue_eq_ite, feq_of_isFin ha hb, decide_eq_true h, if_pos rfl]

/-- After CMP of finite operands the condition of JG means greater (R278). -/
theorem lt_of_condG (ha : isFin a = true) (hb : isFin b = true) (heps : flt 0 eps = true)
    (h : condG (floatFlags eps (compareValue k a b)) = true) : fVal b < fVal a := by
  simp only [condG, Bool.and_eq_true, Bool.not_eq_true'] at h
  obtain ⟨hzero, hsf⟩ := h
  rcases lt_trichotomy (fVal a) (fVal b) with hlt | heq | hgt
  · obtain ⟨hnan, hsign⟩ := compareValue_of_isFin (k := k) ha hb hlt.ne
    rw [decide_eq_true hlt] at hsign
    rcases zero_or_sign_of_fSign hnan hsign heps with h | h
    · rw [h] at hzero; cases hzero
    · rw [h] at hsf; cases hsf
  · rw [compareValue_of_eq ha hb heq, floatFlags_zero heps] at hzero
    cases hzero
  · exact hgt

/-- After CMP of finite operands the condition of JL means less, whatever EPS (R278). -/
theorem lt_of_condL (ha : isFin a = true) (hb : isFin b = true)
    (h : condL (floatFlags eps (compareValue k a b)) = true) : fVal a < fVal b := by
  simp only [condL, Bool.and_eq_true] at h
  have hsf : flt (compareValue k a b) 0 = true := fZero_false ▸ h.1
  have hbit := fSign_of_flt_zero hsf
  by_cases heq : fVal a = fVal b
  · rw [compareValue_of_eq ha hb heq] at hbit
    exact absurd hbit (by decide)
  · rw [(compareValue_of_isFin ha hb heq).2] at hbit
    exact of_decide_eq_true hbit

/-- Settles O20: the flags are those of `compareValue`, which is 0.0 for equal operands and a NaN beside one. -/
theorem compareMeansOrder : Obligations.CompareMeansOrder := by
  intro a b s t hexec
  have hflags : t.flags = floatFlags s.params.eps (compareValue s.draws (s.readReg a) (s.readReg b)) := by
    cases hexec
    rfl
  rw [hflags]
  refine ⟨fun hab hnan heps => ?equal, fun hnan => ?nan, fun ha hb =>
    ⟨fun heps => lt_of_condG ha hb heps, lt_of_condL ha hb⟩⟩
  case equal =>
    subst hab
    rw [compareValue_eq_ite, feq_self hnan, if_pos rfl, floatFlags_zero heps]
  case nan =>
    obtain ⟨-, -, hfeq⟩ := compare_nan hnan
    rw [compareValue_eq_ite, hfeq, if_neg Bool.false_ne_true, fsub_of_isNaN _ hnan]
    exact floatFlags_of_isNaN (isNaN_producedNaN _)

end Sys2Proof.Machine

/-! PROOFS. The stack discipline (42_data_movement R239, 43_control_flow R276): with SP a finite value from 8 to
MEM_SIZE, SP - 8.0 is exact, and adding 8.0 gives SP back. -/

namespace Sys2Proof.Machine

variable {v : F64} {k : Nat}

theorem fEight_eq_ofNat : fEight = ofNat 8 := by decide

theorem isFin_fEight : isFin fEight = true := by decide

theorem fVal_fEight : fVal fEight = 8 := by
  rw [fEight_eq_ofNat, (ofNat_isExact (by norm_num)).val]
  simp

/-- A finite value is the rounding of itself. -/
theorem roundRatio_fVal (h : isFin v = true) : roundRatio (fSign v) (fVal v).num.natAbs (fVal v).den = v := by
  have hmag : fMag v < infMag := of_decide_eq_true h
  rw [roundRatio_of_magUnits (fSign v) (fVal v).den_pos (M := fMag v) (by rw [← abs_eq_num_div_den, abs_fVal]),
    roundedPattern, min_eq_left hmag.le, ofSignMag_fSign_fMag]

/-- A value that is no subnormal has a full significand. -/
theorem fMant_ge_of_fScale (h : -1074 < fScale v) : 2 ^ 52 ≤ fMant v := by
  unfold fScale at h
  unfold fMant
  split at h
  · omega
  · rw [if_neg ‹_›]
    omega

/-- The value of SP between 8 and 2^32 is a significand at a scale at which 8 is an integer. -/
theorem fScale_le_three (hmax : fVal v ≤ 2 ^ 32) (hpos : 0 < fVal v) : fScale v ≤ 3 := by
  by_contra hscale
  have hmant : (2 : ℚ) ^ 52 ≤ fMant v := by exact_mod_cast fMant_ge_of_fScale (v := v) (by omega)
  have hpow : (1 : ℚ) ≤ 2 ^ fScale v := one_le_zpow₀ one_le_two (by omega)
  have hval : fVal v = fMant v * 2 ^ fScale v := by
    rw [fVal, fSign_of_pos hpos]
    simp
  have hlt : (2 : ℚ) ^ 32 < 2 ^ 52 := by norm_num
  nlinarith

/-- SP - 8.0 is exact while SP is a finite value from 8 to 2^32 (R239). -/
theorem fsub_fEight_isExact (hv : isFin v = true) (hmin : 8 ≤ fVal v) (hmax : fVal v ≤ 2 ^ 32) :
    IsExact (fsub k v fEight) false (fVal v - 8) := by
  have hpos : 0 < fVal v := by linarith
  have hsign := fSign_of_pos hpos
  rw [fsub_of_isFin hv isFin_fEight, fVal_fEight, hsign]
  split
  case isTrue hzero => exact ⟨isFin_fZero _, by decide, by rw [hzero, mul_zero]; exact fVal_fZero _⟩
  case isFalse hne =>
    generalize he : fScale v = e
    have hscale : e ≤ 3 := he ▸ fScale_le_three hmax hpos
    have hlow : -1074 ≤ e := he ▸ fScale_ge v
    have hpow : (0 : ℚ) < 2 ^ e := zpow_pos two_pos _
    have hval : fVal v = fMant v * 2 ^ e := by
      rw [fVal, hsign, he]
      simp
    have height : (8 : ℚ) = (2 ^ (3 - e).toNat : Nat) * 2 ^ e := by
      rw [Nat.cast_pow, Nat.cast_ofNat, ← two_zpow_eq_mul hscale]
      norm_num
    have hle : 2 ^ (3 - e).toNat ≤ fMant v := by
      have h : ((2 ^ (3 - e).toNat : Nat) : ℚ) * 2 ^ e ≤ fMant v * 2 ^ e := by rw [← height, ← hval]; exact hmin
      exact_mod_cast le_of_mul_le_mul_right h hpow
    have hdiff : fVal v - 8 = (fMant v - 2 ^ (3 - e).toNat : Nat) * 2 ^ e := by
      rw [Nat.cast_sub hle, sub_mul, ← height, ← hval]
    have hnonneg : ¬ fVal v - 8 < 0 := by linarith
    have habs := abs_eq_num_div_den (fVal v - 8)
    rw [abs_of_nonneg (not_lt.1 hnonneg)] at habs
    have hmant := fMant_lt v
    rw [decide_eq_false hnonneg]
    have hexact := roundRatio_isExact false (fVal v - 8).den_pos (habs.symm.trans hdiff)
      ((Nat.sub_le _ _).trans hmant.le) hlow (.inl (by omega))
    rwa [← hdiff] at hexact

/-- Adding 8.0 to what was exactly SP - 8.0 gives SP back (R239). -/
theorem fadd_fEight_of_isExact {w : F64} (hw : IsExact w false (fVal v - 8)) (hv : isFin v = true) (hpos : 0 < fVal v) :
    fadd k w fEight = v := by
  have hsum : fVal w + fVal fEight = fVal v := by
    rw [hw.val, fVal_fEight]
    simp
  rw [fadd_of_isFin hw.fin isFin_fEight, hsum, if_neg hpos.ne', decide_eq_false hpos.le.not_gt, ← fSign_of_pos hpos]
  exact roundRatio_fVal hv

/-- What the stack discipline asks of a state: SP finite, from 8 to MEM_SIZE, in a configuration R6 allows (R239). -/
structure StackRoom (s : State) : Prop where
  legal : s.params.Legal
  fin : isFin s.sp = true
  low : 8 ≤ fVal s.sp
  high : fVal s.sp ≤ s.params.memSize

namespace StackRoom

variable {s : State}

theorem le_two_pow (h : StackRoom s) : fVal s.sp ≤ 2 ^ 32 :=
  h.high.trans (by exact_mod_cast h.legal.2)

theorem pos (h : StackRoom s) : 0 < fVal s.sp := by
  have := h.low
  linarith

/-- SP after a push. -/
theorem pushed_isExact (h : StackRoom s) (k : Nat) : IsExact (fsub k s.sp fEight) false (fVal s.sp - 8) :=
  fsub_fEight_isExact h.fin h.low h.le_two_pow

theorem fVal_pushed (h : StackRoom s) (k : Nat) : fVal (fsub k s.sp fEight) = fVal s.sp - 8 := by
  rw [(h.pushed_isExact k).val]
  simp

theorem ftrunc_pushed (h : StackRoom s) (k : Nat) : ftrunc (fsub k s.sp fEight) = ftrunc s.sp - 8 := by
  have hlow := h.low
  rw [ftrunc_eq_floor_or_ceil, ftrunc_eq_floor_or_ceil, h.fVal_pushed, if_pos (by linarith), if_pos h.pos.le]
  exact_mod_cast Int.floor_sub_natCast (fVal s.sp) 8

/-- The slot below SP is inside Memory. -/
theorem slot_inBounds (h : StackRoom s) : 0 ≤ ftrunc s.sp - 8 ∧ ftrunc s.sp - 8 + 8 ≤ s.params.memSize := by
  have hlow : 8 ≤ ⌊fVal s.sp⌋ := Int.le_floor.2 (by exact_mod_cast h.low)
  have hhigh : ⌊fVal s.sp⌋ ≤ s.params.memSize := by
    exact_mod_cast (Int.floor_le (fVal s.sp)).trans h.high
  rw [ftrunc_eq_floor_or_ceil, if_pos h.pos.le]
  omega

theorem not_overflow (h : StackRoom s) (k : Nat) : flt (fsub k s.sp fEight) 0 = false := by
  have hlow := h.low
  rw [← fZero_false, flt_fZero_of_isFin (h.pushed_isExact k).fin, h.fVal_pushed, decide_eq_false (by linarith)]

/-- SP - 8.0 is below the end of Memory, so a pop there is no underflow. -/
theorem not_underflow (h : StackRoom s) (k : Nat) : fle (ofNat s.params.memSize) (fsub k s.sp fEight) = false := by
  have hsize := ofNat_isExact (n := s.params.memSize) (h.legal.2.trans (by norm_num))
  have hhigh := h.high
  rw [fle_of_isFin hsize.fin (h.pushed_isExact k).fin, h.fVal_pushed, hsize.val, decide_eq_false_iff_not]
  simp only [Bool.false_eq_true, if_false, one_mul, not_le]
  linarith

end StackRoom

/-- Eight bytes that hold an image are read as its value. -/
theorem decodeF64_of_bytesAt {s : State} {a : Nat} (h : BytesAt s a (encodeF64 v)) :
    decodeF64 ((List.range 8).map fun k => s.mem.get (a + k)) = v := by
  have hread := readBytes_of_bytesAt h
  rw [encodeF64_length, Memory.readBytes_eq_map_range] at hread
  rw [hread, decodeF64_encodeF64]

/-- Settles O33: SP - 8.0 and back are exact, and the slot holds the image of the value pushed. -/
theorem popUndoesPush : Obligations.PopUndoesPush := by
  intro x d s hlegal hfin hlow hhigh hd hdsp
  have room : StackRoom s := ⟨hlegal, hfin, hlow, hhigh⟩
  have htrunc := room.ftrunc_pushed s.draws
  obtain ⟨hslotLo, hslotHi⟩ := room.slot_inBounds
  obtain ⟨-, -, -, hpush⟩ := push_effect (s.readReg x) s (g := fun u => u.next .r) (pc := s.pc + 2)
    fun u hu => by rw [State.next, hu]; rfl
  rw [htrunc] at hpush
  obtain ⟨t, hexec, hbytes, hmem, hsp, hregs, hflags, -, hstatus, htrace, hparams⟩ :=
    hpush (room.not_overflow _) (room.pushed_isExact _).fin hslotLo hslotHi
  obtain ⟨-, -, -, hpop⟩ := popInstruction d t
  rw [hsp, hparams, htrunc] at hpop
  obtain ⟨u, hexec', hval, husp, hregs', hflags', -, hmem', hstatus', htrace', hparams'⟩ :=
    hpop (room.not_underflow _) (room.pushed_isExact _).fin hslotLo hslotHi
  have hback : u.sp = s.sp := (husp hdsp).trans (fadd_fEight_of_isExact (room.pushed_isExact _) hfin room.pos)
  refine ⟨t, u, hexec, hexec', hback, (hval hd).trans (decodeF64_of_bytesAt hbytes), fun y hy hyd => ?_,
    hflags'.trans hflags, fun b hb => (hmem' b).trans (hmem b hb), hstatus'.trans hstatus, htrace'.trans htrace,
    hparams'.trans hparams⟩
  by_cases hysp : y = .sp
  · subst hysp
    exact hback
  · rw [List.mem_singleton] at hyd
    exact (hregs' y hy (by simp [hysp, hyd])).trans (hregs y hy (by simp [hysp]))

/-- Settles O34: RET pops the image of the return address, which is exact below 2^32, from the slot the CALL wrote. -/
theorem returnComesBackAfterCall : Obligations.ReturnComesBackAfterCall := by
  intro target s t u hlegal hfin hlow hhigh hpc hexec hparamsU hspU hslot
  have room : StackRoom s := ⟨hlegal, hfin, hlow, hhigh⟩
  have htrunc := room.ftrunc_pushed s.draws
  obtain ⟨hslotLo, hslotHi⟩ := room.slot_inBounds
  obtain ⟨-, -, -, hpush⟩ := push_effect (ofNat (s.pc + 5)) s (g := fun _ => target) (pc := target) fun _ _ => rfl
  rw [htrunc] at hpush
  obtain ⟨t', hexec', hbytes, -, hsp, -, -, -, -, -, hparams⟩ :=
    hpush (room.not_overflow _) (room.pushed_isExact _).fin hslotLo hslotHi
  obtain rfl : t' = t := Host.Outcome.next.inj (hexec'.symm.trans hexec)
  rw [hsp, htrunc] at hslot
  have hslotU : decodeF64 ((List.range 8).map fun k => u.mem.get ((ftrunc s.sp - 8).toNat + k)) = ofNat (s.pc + 5) := by
    rw [← decodeF64_of_bytesAt hbytes]
    congr 1
    exact List.map_congr_left fun k hk => hslot k (List.mem_range.1 hk)
  have hreturn := ofNat_isExact (n := s.pc + 5) (by omega)
  have htarget : ftrunc (ofNat (s.pc + 5)) = (s.pc + 5 : Nat) := by
    rw [ftrunc_eq_floor_or_ceil, hreturn.val]
    simp only [Bool.false_eq_true, if_false, one_mul, if_pos (Nat.cast_nonneg (α := ℚ) _), Int.floor_natCast]
  obtain ⟨-, -, -, hret⟩ := returnInstruction u
  rw [hspU, hsp, hparamsU, hparams, htrunc, hslotU, htarget] at hret
  obtain ⟨-, hgood⟩ := hret (room.not_underflow _) (room.pushed_isExact _).fin hslotLo hslotHi
  obtain ⟨w, hexecW, hspW, -, -, hpcW, -, hstatusW, -, -⟩ := hgood hreturn.fin (by omega) (by omega)
  refine ⟨w, hexecW, by exact_mod_cast hpcW, ?_, hstatusW⟩
  exact hspW.trans (fadd_fEight_of_isExact (room.pushed_isExact _) hfin room.pos)

end Sys2Proof.Machine
